-- ==== Sys2Proof/Word.lean ====
section
/-! DEFINITION. The word types of the core: 32-bit words and bytes (00_scope.md R9, R12). -/

namespace Sys2Proof

/-- A register, address, instruction or bus value: 32 bits, arithmetic modulo 2^32 (00_scope.md R12). -/
abbrev Word := BitVec 32

/-- The smallest addressable unit (10_state.md R28). -/
abbrev Byte := BitVec 8

/-- A VRAM pixel, opaque but for the fill command (62_gpu.md R195). -/
abbrev Pixel := BitVec 16

end Sys2Proof
end

