-- ==== Sys2Proof/Machine/Flags.lean ====
section
/-! DEFINITION. The core has no flags (10_state.md R18): what stands for them are the overflow tests of
41_alu.md R71 and the 0 or 1 a comparison writes (R81, R82). -/

namespace Sys2Proof.Machine

/-- `overflow_add(a, b, r)` (41_alu.md R71). -/
def overflowAdd (a b r : Word) : Bool := a.getLsbD 31 == b.getLsbD 31 && r.getLsbD 31 != a.getLsbD 31

/-- `overflow_sub(a, b, r)` (41_alu.md R71). -/
def overflowSub (a b r : Word) : Bool := a.getLsbD 31 != b.getLsbD 31 && r.getLsbD 31 != a.getLsbD 31

/-- The word a comparison writes: 1 or 0 (10_state.md R18). -/
def flagWord (c : Bool) : Word := if c then 1#32 else 0#32

/-- `signed(a) < signed(b)` (41_alu.md R81). -/
def lessSigned (a b : Word) : Bool := decide (a.toInt < b.toInt)

/-- `a < b` as unsigned numbers (48_mips1_extension.md R242, R247). -/
def lessUnsigned (a b : Word) : Bool := decide (a.toNat < b.toNat)

end Sys2Proof.Machine
end

