-- ==== Sys2Proof/Config.lean ====
section
/-! DEFINITION. What is fixed for this machine: the sizes the document states (00_scope.md R9), the
constants the spec chose (00_scope.md R10; log 14), and its one open value, the field layout of the
VRAM-to-VRAM copy (92_eei_decisions.md D29; log 3). `MIPS1_EXT` and the BIOS image are parameters too,
but each may differ between two machines a claim speaks of, so they stand in State (logs 1 and 2). -/

namespace Sys2Proof

/-- 2 MiB of RAM (00_scope.md R9). -/
def Config.ramSize : Nat := 0x00200000

/-- The mask of the RAM test (00_scope.md R9; 20_memory.md R30). -/
def Config.ramMask : Word := 0x1FFFFFFF#32

/-- 512 KiB of BIOS (00_scope.md R9). -/
def Config.biosSize : Nat := 0x00080000

/-- `BIOS_BASE` (00_scope.md R10, D8). -/
def Config.biosBase : Word := 0xBFC00000#32

/-- `RESET_PC` (00_scope.md R10, D8). -/
def Config.resetPc : Word := Config.biosBase

/-- `EXC_VECTOR`, the one exception vector (00_scope.md R10, D7). -/
def Config.excVector : Word := 0x80000080#32

/-- `SP_RESET` (00_scope.md R10, D12). -/
def Config.spReset : Word := 0x801FFFF0#32

/-- `TIMER_BASE` (00_scope.md R10, D9). -/
def Config.timerBase : Word := 0x1F801100#32

/-- `TIMER_STRIDE` (00_scope.md R9). -/
def Config.timerStride : Nat := 0x30

/-- `GP0_ADDR` (00_scope.md R10, D11). -/
def Config.gp0Addr : Word := 0x1F801810#32

/-- `GP1_ADDR` (00_scope.md R10, D11). -/
def Config.gp1Addr : Word := 0x1F801814#32

/-- Columns of VRAM (62_gpu.md R195). -/
def Config.vramWidth : Nat := 1024

/-- Rows of VRAM (62_gpu.md R195). -/
def Config.vramHeight : Nat := 512

/-- `GPU_IRQ_LINE` (00_scope.md R10, D28). -/
def Config.gpuIrqLine : Fin 8 := 0

/-- The GP0 opcode bytes (00_scope.md R10, D25). -/
def Config.opNop : Byte := 0x00#8
def Config.opFill : Byte := 0x02#8
def Config.opTriFlat : Byte := 0x20#8
def Config.opTriTex : Byte := 0x24#8
def Config.opVramCopy : Byte := 0x80#8
def Config.opXferSetup : Byte := 0xA0#8
def Config.opAreaTL : Byte := 0xE3#8
def Config.opAreaBR : Byte := 0xE4#8
def Config.opOffset : Byte := 0xE5#8
def Config.opMask : Byte := 0xE6#8

/-- The GP1 opcode bytes (00_scope.md R10, D28). -/
def Config.gp1IrqAck : Byte := 0x02#8
def Config.gp1IrqEnable : Byte := 0x0A#8

/-- What `VRAM_COPY_FIELDS` yields: source, destination and size of a VRAM-to-VRAM copy (62_gpu.md R205).
The size is 16 bits a side, the bound 70_reset_and_hazards.md R237 states. -/
structure CopyFields where
  sx : Nat
  sy : Nat
  dx : Nat
  dy : Nat
  w  : BitVec 16
  h  : BitVec 16
  deriving DecidableEq, Repr, Inhabited

/-- `VRAM_COPY_FIELDS(w0, w1, w2)`, the spec's OPEN parameter (62_gpu.md R205, D29): a free value with no
body, so a claim about the copy holds for every layout. DESIGN CHOICE, safe (log 3). -/
opaque Config.vramCopyFields : Word → Word → Word → CopyFields

end Sys2Proof
end

