-- ==== Sys2Proof/Syntax.lean ====
section
/-! DEFINITION. The instructions, one constructor per row of spec/opcode_table.json, in the table's order
(30_encoding.md R53 to R55). A field an instruction ignores (30_encoding.md R56) is no part of it. -/

namespace Sys2Proof

/-- A general register number, 0 to 31 (10_state.md R15). -/
abbrev Reg := Fin 32

/-- A COP0 slot number, 0 to 31 (10_state.md R21). -/
abbrev Slot := Fin 32

/-- An instruction of the core. The last 21 constructors are the gated extension (48_mips1_extension.md R240). -/
inductive Instr where
  | sll (rd rt : Reg) (sa : Fin 32)
  | srl (rd rt : Reg) (sa : Fin 32)
  | sra (rd rt : Reg) (sa : Fin 32)
  | sllv (rd rt rs : Reg)
  | srlv (rd rt rs : Reg)
  | srav (rd rt rs : Reg)
  | syscall
  | brk
  | mult (rs rt : Reg)
  | div (rs rt : Reg)
  | add (rd rs rt : Reg)
  | addu (rd rs rt : Reg)
  | sub (rd rs rt : Reg)
  | subu (rd rs rt : Reg)
  | and (rd rs rt : Reg)
  | or (rd rs rt : Reg)
  | xor (rd rs rt : Reg)
  | nor (rd rs rt : Reg)
  | slt (rd rs rt : Reg)
  | j (target : BitVec 26)
  | jal (target : BitVec 26)
  | beq (rs rt : Reg) (imm : BitVec 16)
  | bne (rs rt : Reg) (imm : BitVec 16)
  | addi (rt rs : Reg) (imm : BitVec 16)
  | slti (rt rs : Reg) (imm : BitVec 16)
  | lb (rt base : Reg) (offset : BitVec 16)
  | lh (rt base : Reg) (offset : BitVec 16)
  | lwl (rt base : Reg) (offset : BitVec 16)
  | lw (rt base : Reg) (offset : BitVec 16)
  | lbu (rt base : Reg) (offset : BitVec 16)
  | lhu (rt base : Reg) (offset : BitVec 16)
  | lwr (rt base : Reg) (offset : BitVec 16)
  | sb (rt base : Reg) (offset : BitVec 16)
  | sh (rt base : Reg) (offset : BitVec 16)
  | swl (rt base : Reg) (offset : BitVec 16)
  | sw (rt base : Reg) (offset : BitVec 16)
  | swr (rt base : Reg) (offset : BitVec 16)
  | mfc0 (rt : Reg) (rd : Slot)
  | mtc0 (rt : Reg) (rd : Slot)
  | eret
  | addiu (rt rs : Reg) (imm : BitVec 16)
  | sltiu (rt rs : Reg) (imm : BitVec 16)
  | andi (rt rs : Reg) (imm : BitVec 16)
  | ori (rt rs : Reg) (imm : BitVec 16)
  | xori (rt rs : Reg) (imm : BitVec 16)
  | lui (rt : Reg) (imm : BitVec 16)
  | sltu (rd rs rt : Reg)
  | multu (rs rt : Reg)
  | divu (rs rt : Reg)
  | mfhi (rd : Reg)
  | mthi (rs : Reg)
  | mflo (rd : Reg)
  | mtlo (rs : Reg)
  | jr (rs : Reg)
  | jalr (rd rs : Reg)
  | blez (rs : Reg) (imm : BitVec 16)
  | bgtz (rs : Reg) (imm : BitVec 16)
  | bltz (rs : Reg) (imm : BitVec 16)
  | bgez (rs : Reg) (imm : BitVec 16)
  | bltzal (rs : Reg) (imm : BitVec 16)
  | bgezal (rs : Reg) (imm : BitVec 16)
  deriving DecidableEq, Repr

end Sys2Proof
end

