-- ==== Sys2Proof/WellFormed.lean ====
section
/-! DEFINITION. Which instructions a machine recognises. Every operand's range is in its type (Syntax.lean),
so the one check left is the gate of the extension (48_mips1_extension.md R240; 92_eei_decisions.md D18). -/

namespace Sys2Proof

/-- Is the instruction one of the 21 rows with `"ext": true` (30_encoding.md R53, R54, R56)? -/
def Instr.isExt : Instr → Bool
  | .sll _ _ _ | .srl _ _ _ | .sra _ _ _ | .sllv _ _ _ | .srlv _ _ _ | .srav _ _ _ => false
  | .syscall | .brk | .mult _ _ | .div _ _ => false
  | .add _ _ _ | .addu _ _ _ | .sub _ _ _ | .subu _ _ _ => false
  | .and _ _ _ | .or _ _ _ | .xor _ _ _ | .nor _ _ _ | .slt _ _ _ => false
  | .j _ | .jal _ | .beq _ _ _ | .bne _ _ _ | .addi _ _ _ | .slti _ _ _ => false
  | .lb _ _ _ | .lh _ _ _ | .lwl _ _ _ | .lw _ _ _ | .lbu _ _ _ | .lhu _ _ _ | .lwr _ _ _ => false
  | .sb _ _ _ | .sh _ _ _ | .swl _ _ _ | .sw _ _ _ | .swr _ _ _ => false
  | .mfc0 _ _ | .mtc0 _ _ | .eret => false
  | .addiu _ _ _ | .sltiu _ _ _ | .andi _ _ _ | .ori _ _ _ | .xori _ _ _ | .lui _ _ => true
  | .sltu _ _ _ | .multu _ _ | .divu _ _ | .mfhi _ | .mthi _ | .mflo _ | .mtlo _ => true
  | .jr _ | .jalr _ _ | .blez _ _ | .bgtz _ _ => true
  | .bltz _ _ | .bgez _ _ | .bltzal _ _ | .bgezal _ _ => true

/-- A machine with `MIPS1_EXT = ext` recognises the base rows always and the extension's only when `ext` holds. -/
def Instr.wf (ext : Bool) (i : Instr) : Bool := ext || !i.isExt

end Sys2Proof
end

