-- ==== Sys2Proof/Decode.lean ====
section
/-! DEFINITION. The decoder, total on all 2^32 words (30_encoding.md R51 to R57), and after it the encoder,
written from the same tables. The numbers are the spec's (92_eei_decisions.md D39; log 15). -/

namespace Sys2Proof

/-! ## Fields (30_encoding.md R51) -/

def fieldOp (w : Word) : BitVec 6 := w.extractLsb' 26 6
def fieldRs (w : Word) : Reg := (w.extractLsb' 21 5).toFin
def fieldRt (w : Word) : Reg := (w.extractLsb' 16 5).toFin
def fieldRd (w : Word) : Reg := (w.extractLsb' 11 5).toFin
def fieldSa (w : Word) : Fin 32 := (w.extractLsb' 6 5).toFin
def fieldFunct (w : Word) : BitVec 6 := w.extractLsb' 0 6
def fieldImm (w : Word) : BitVec 16 := w.extractLsb' 0 16
def fieldTarget (w : Word) : BitVec 26 := w.extractLsb' 0 26

/-! ## Decoding -/

/-- What a word is: an instruction, a reserved instruction (30_encoding.md R56), or a GTE word, which is outside
the spec (R57). -/
inductive Decoded where
  | instr (i : Instr)
  | reserved
  | gte
  deriving DecidableEq, Repr

/-- An "ext" entry of the opcode map (30_encoding.md R53): a reserved instruction unless `MIPS1_EXT` is true. -/
def gated (ext : Bool) (i : Instr) : Decoded := if ext then .instr i else .reserved

/-- SPECIAL, dispatched on `funct` (30_encoding.md R54). -/
def decodeSpecial (ext : Bool) (w : Word) : Decoded :=
  match (fieldFunct w).toNat with
  | 0x00 => .instr (.sll (fieldRd w) (fieldRt w) (fieldSa w))
  | 0x02 => .instr (.srl (fieldRd w) (fieldRt w) (fieldSa w))
  | 0x03 => .instr (.sra (fieldRd w) (fieldRt w) (fieldSa w))
  | 0x04 => .instr (.sllv (fieldRd w) (fieldRt w) (fieldRs w))
  | 0x06 => .instr (.srlv (fieldRd w) (fieldRt w) (fieldRs w))
  | 0x07 => .instr (.srav (fieldRd w) (fieldRt w) (fieldRs w))
  | 0x08 => gated ext (.jr (fieldRs w))
  | 0x09 => gated ext (.jalr (fieldRd w) (fieldRs w))
  | 0x0C => .instr .syscall
  | 0x0D => .instr .brk
  | 0x10 => gated ext (.mfhi (fieldRd w))
  | 0x11 => gated ext (.mthi (fieldRs w))
  | 0x12 => gated ext (.mflo (fieldRd w))
  | 0x13 => gated ext (.mtlo (fieldRs w))
  | 0x18 => .instr (.mult (fieldRs w) (fieldRt w))
  | 0x19 => gated ext (.multu (fieldRs w) (fieldRt w))
  | 0x1A => .instr (.div (fieldRs w) (fieldRt w))
  | 0x1B => gated ext (.divu (fieldRs w) (fieldRt w))
  | 0x20 => .instr (.add (fieldRd w) (fieldRs w) (fieldRt w))
  | 0x21 => .instr (.addu (fieldRd w) (fieldRs w) (fieldRt w))
  | 0x22 => .instr (.sub (fieldRd w) (fieldRs w) (fieldRt w))
  | 0x23 => .instr (.subu (fieldRd w) (fieldRs w) (fieldRt w))
  | 0x24 => .instr (.and (fieldRd w) (fieldRs w) (fieldRt w))
  | 0x25 => .instr (.or (fieldRd w) (fieldRs w) (fieldRt w))
  | 0x26 => .instr (.xor (fieldRd w) (fieldRs w) (fieldRt w))
  | 0x27 => .instr (.nor (fieldRd w) (fieldRs w) (fieldRt w))
  | 0x2A => .instr (.slt (fieldRd w) (fieldRs w) (fieldRt w))
  | 0x2B => gated ext (.sltu (fieldRd w) (fieldRs w) (fieldRt w))
  | _ => .reserved

/-- REGIMM, dispatched on `rt` (48_mips1_extension.md R260 to R264). -/
def decodeRegimm (ext : Bool) (w : Word) : Decoded :=
  match (fieldRt w).val with
  | 0x00 => gated ext (.bltz (fieldRs w) (fieldImm w))
  | 0x01 => gated ext (.bgez (fieldRs w) (fieldImm w))
  | 0x10 => gated ext (.bltzal (fieldRs w) (fieldImm w))
  | 0x11 => gated ext (.bgezal (fieldRs w) (fieldImm w))
  | _ => .reserved

/-- COP0, dispatched on `rs`, and for `rs` = 0x10 on `funct` (30_encoding.md R55). -/
def decodeCop0 (w : Word) : Decoded :=
  match (fieldRs w).val with
  | 0x00 => .instr (.mfc0 (fieldRt w) (fieldRd w))
  | 0x04 => .instr (.mtc0 (fieldRt w) (fieldRd w))
  | 0x10 => if fieldFunct w = 0x18#6 then .instr .eret else .reserved
  | _ => .reserved

/-- The decode algorithm of 30_encoding.md R55, over the major opcodes of R53; `ext` is `MIPS1_EXT`. -/
def decode (ext : Bool) (w : Word) : Decoded :=
  match (fieldOp w).toNat with
  | 0x00 => decodeSpecial ext w
  | 0x01 => decodeRegimm ext w
  | 0x02 => .instr (.j (fieldTarget w))
  | 0x03 => .instr (.jal (fieldTarget w))
  | 0x04 => .instr (.beq (fieldRs w) (fieldRt w) (fieldImm w))
  | 0x05 => .instr (.bne (fieldRs w) (fieldRt w) (fieldImm w))
  | 0x06 => gated ext (.blez (fieldRs w) (fieldImm w))
  | 0x07 => gated ext (.bgtz (fieldRs w) (fieldImm w))
  | 0x08 => .instr (.addi (fieldRt w) (fieldRs w) (fieldImm w))
  | 0x09 => gated ext (.addiu (fieldRt w) (fieldRs w) (fieldImm w))
  | 0x0A => .instr (.slti (fieldRt w) (fieldRs w) (fieldImm w))
  | 0x0B => gated ext (.sltiu (fieldRt w) (fieldRs w) (fieldImm w))
  | 0x0C => gated ext (.andi (fieldRt w) (fieldRs w) (fieldImm w))
  | 0x0D => gated ext (.ori (fieldRt w) (fieldRs w) (fieldImm w))
  | 0x0E => gated ext (.xori (fieldRt w) (fieldRs w) (fieldImm w))
  | 0x0F => gated ext (.lui (fieldRt w) (fieldImm w))
  | 0x10 => decodeCop0 w
  | 0x12 => .gte
  | 0x20 => .instr (.lb (fieldRt w) (fieldRs w) (fieldImm w))
  | 0x21 => .instr (.lh (fieldRt w) (fieldRs w) (fieldImm w))
  | 0x22 => .instr (.lwl (fieldRt w) (fieldRs w) (fieldImm w))
  | 0x23 => .instr (.lw (fieldRt w) (fieldRs w) (fieldImm w))
  | 0x24 => .instr (.lbu (fieldRt w) (fieldRs w) (fieldImm w))
  | 0x25 => .instr (.lhu (fieldRt w) (fieldRs w) (fieldImm w))
  | 0x26 => .instr (.lwr (fieldRt w) (fieldRs w) (fieldImm w))
  | 0x28 => .instr (.sb (fieldRt w) (fieldRs w) (fieldImm w))
  | 0x29 => .instr (.sh (fieldRt w) (fieldRs w) (fieldImm w))
  | 0x2A => .instr (.swl (fieldRt w) (fieldRs w) (fieldImm w))
  | 0x2B => .instr (.sw (fieldRt w) (fieldRs w) (fieldImm w))
  | 0x2E => .instr (.swr (fieldRt w) (fieldRs w) (fieldImm w))
  | 0x32 => .gte
  | 0x3A => .gte
  | _ => .reserved

/-- A word from four bytes, the one at the lowest address the most significant (20_memory.md R40). -/
def wordOfBytes (b0 b1 b2 b3 : Byte) : Word := b0 ++ b1 ++ b2 ++ b3

/-- The four bytes of a word, the one stored at the lowest address first (20_memory.md R40). -/
def bytesOfWord (w : Word) : List Byte :=
  [w.extractLsb' 24 8, w.extractLsb' 16 8, w.extractLsb' 8 8, w.extractLsb' 0 8]

/-- The decoder on the bytes as memory holds them, with the bytes left over; none where there are too few for a
word (30_encoding.md R50). -/
def decodeBytes (ext : Bool) : List Byte → Option (Decoded × List Byte)
  | b0 :: b1 :: b2 :: b3 :: rest => some (decode ext (wordOfBytes b0 b1 b2 b3), rest)
  | [] | [_] | [_, _] | [_, _, _] => none

/-- The instruction an opcode-table word stands for. The table's extension rows are read as the table reads
them, that is by a machine with `MIPS1_EXT` = true (log 1). -/
def decodeTableWord (nbits w : Nat) : Option Instr :=
  match decodeBytes true (bytesOfWord (BitVec.ofNat 32 (w % 2 ^ nbits))) with
  | some (.instr i, _) => some i
  | some (.reserved, _) | some (.gte, _) | none => none

/-- Does the word decode only with `MIPS1_EXT` = true (48_mips1_extension.md R240)? -/
def needsExt (w : Word) : Bool :=
  match decode true w with
  | .instr i => i.isExt
  | .reserved | .gte => false

/-! ## Encoding (30_encoding.md R51, R53 to R55; 48_mips1_extension.md) -/

/-- R format: `op rs rt rd sa funct`. -/
def rType (op : BitVec 6) (rs rt rd sa : Fin 32) (funct : BitVec 6) : Word :=
  op ++ (BitVec.ofFin rs : BitVec 5) ++ (BitVec.ofFin rt : BitVec 5) ++ (BitVec.ofFin rd : BitVec 5)
    ++ (BitVec.ofFin sa : BitVec 5) ++ funct

/-- I format: `op rs rt imm`. -/
def iType (op : BitVec 6) (rs rt : Fin 32) (imm : BitVec 16) : Word :=
  op ++ (BitVec.ofFin rs : BitVec 5) ++ (BitVec.ofFin rt : BitVec 5) ++ imm

/-- J format: `op target`. -/
def jType (op : BitVec 6) (target : BitVec 26) : Word := op ++ target

/-- The word of an instruction, with every bit the decoder ignores zero. -/
def encode : Instr → Word
  | .sll rd rt sa => rType 0x00#6 0 rt rd sa 0x00#6
  | .srl rd rt sa => rType 0x00#6 0 rt rd sa 0x02#6
  | .sra rd rt sa => rType 0x00#6 0 rt rd sa 0x03#6
  | .sllv rd rt rs => rType 0x00#6 rs rt rd 0 0x04#6
  | .srlv rd rt rs => rType 0x00#6 rs rt rd 0 0x06#6
  | .srav rd rt rs => rType 0x00#6 rs rt rd 0 0x07#6
  | .syscall => rType 0x00#6 0 0 0 0 0x0C#6
  | .brk => rType 0x00#6 0 0 0 0 0x0D#6
  | .mult rs rt => rType 0x00#6 rs rt 0 0 0x18#6
  | .div rs rt => rType 0x00#6 rs rt 0 0 0x1A#6
  | .add rd rs rt => rType 0x00#6 rs rt rd 0 0x20#6
  | .addu rd rs rt => rType 0x00#6 rs rt rd 0 0x21#6
  | .sub rd rs rt => rType 0x00#6 rs rt rd 0 0x22#6
  | .subu rd rs rt => rType 0x00#6 rs rt rd 0 0x23#6
  | .and rd rs rt => rType 0x00#6 rs rt rd 0 0x24#6
  | .or rd rs rt => rType 0x00#6 rs rt rd 0 0x25#6
  | .xor rd rs rt => rType 0x00#6 rs rt rd 0 0x26#6
  | .nor rd rs rt => rType 0x00#6 rs rt rd 0 0x27#6
  | .slt rd rs rt => rType 0x00#6 rs rt rd 0 0x2A#6
  | .j target => jType 0x02#6 target
  | .jal target => jType 0x03#6 target
  | .beq rs rt imm => iType 0x04#6 rs rt imm
  | .bne rs rt imm => iType 0x05#6 rs rt imm
  | .addi rt rs imm => iType 0x08#6 rs rt imm
  | .slti rt rs imm => iType 0x0A#6 rs rt imm
  | .lb rt base offset => iType 0x20#6 base rt offset
  | .lh rt base offset => iType 0x21#6 base rt offset
  | .lwl rt base offset => iType 0x22#6 base rt offset
  | .lw rt base offset => iType 0x23#6 base rt offset
  | .lbu rt base offset => iType 0x24#6 base rt offset
  | .lhu rt base offset => iType 0x25#6 base rt offset
  | .lwr rt base offset => iType 0x26#6 base rt offset
  | .sb rt base offset => iType 0x28#6 base rt offset
  | .sh rt base offset => iType 0x29#6 base rt offset
  | .swl rt base offset => iType 0x2A#6 base rt offset
  | .sw rt base offset => iType 0x2B#6 base rt offset
  | .swr rt base offset => iType 0x2E#6 base rt offset
  | .mfc0 rt rd => rType 0x10#6 0x00 rt rd 0 0x00#6
  | .mtc0 rt rd => rType 0x10#6 0x04 rt rd 0 0x00#6
  | .eret => rType 0x10#6 0x10 0 0 0 0x18#6
  | .addiu rt rs imm => iType 0x09#6 rs rt imm
  | .sltiu rt rs imm => iType 0x0B#6 rs rt imm
  | .andi rt rs imm => iType 0x0C#6 rs rt imm
  | .ori rt rs imm => iType 0x0D#6 rs rt imm
  | .xori rt rs imm => iType 0x0E#6 rs rt imm
  | .lui rt imm => iType 0x0F#6 0 rt imm
  | .sltu rd rs rt => rType 0x00#6 rs rt rd 0 0x2B#6
  | .multu rs rt => rType 0x00#6 rs rt 0 0 0x19#6
  | .divu rs rt => rType 0x00#6 rs rt 0 0 0x1B#6
  | .mfhi rd => rType 0x00#6 0 0 rd 0 0x10#6
  | .mthi rs => rType 0x00#6 rs 0 0 0 0x11#6
  | .mflo rd => rType 0x00#6 0 0 rd 0 0x12#6
  | .mtlo rs => rType 0x00#6 rs 0 0 0 0x13#6
  | .jr rs => rType 0x00#6 rs 0 0 0 0x08#6
  | .jalr rd rs => rType 0x00#6 rs 0 rd 0 0x09#6
  | .blez rs imm => iType 0x06#6 rs 0 imm
  | .bgtz rs imm => iType 0x07#6 rs 0 imm
  | .bltz rs imm => iType 0x01#6 rs 0x00 imm
  | .bgez rs imm => iType 0x01#6 rs 0x01 imm
  | .bltzal rs imm => iType 0x01#6 rs 0x10 imm
  | .bgezal rs imm => iType 0x01#6 rs 0x11 imm

/-- The bits of the word that the decoder looks at for this instruction: all but the `ignored` bits of its row
in spec/opcode_table.json (30_encoding.md R56). -/
def usedBits : Instr → Word
  | .sll _ _ _ | .srl _ _ _ | .sra _ _ _ => 0xFC1FFFFF#32
  | .sllv _ _ _ | .srlv _ _ _ | .srav _ _ _ => 0xFFFFF83F#32
  | .syscall | .brk => 0xFC00003F#32
  | .mult _ _ | .div _ _ | .multu _ _ | .divu _ _ => 0xFFFF003F#32
  | .add _ _ _ | .addu _ _ _ | .sub _ _ _ | .subu _ _ _ | .and _ _ _ | .or _ _ _ | .xor _ _ _
  | .nor _ _ _ | .slt _ _ _ | .sltu _ _ _ => 0xFFFFF83F#32
  | .j _ | .jal _ => 0xFFFFFFFF#32
  | .beq _ _ _ | .bne _ _ _ | .addi _ _ _ | .slti _ _ _ | .addiu _ _ _ | .sltiu _ _ _
  | .andi _ _ _ | .ori _ _ _ | .xori _ _ _ => 0xFFFFFFFF#32
  | .lb _ _ _ | .lh _ _ _ | .lwl _ _ _ | .lw _ _ _ | .lbu _ _ _ | .lhu _ _ _ | .lwr _ _ _
  | .sb _ _ _ | .sh _ _ _ | .swl _ _ _ | .sw _ _ _ | .swr _ _ _ => 0xFFFFFFFF#32
  | .mfc0 _ _ | .mtc0 _ _ => 0xFFFFF800#32
  | .eret => 0xFFE0003F#32
  | .lui _ _ => 0xFC1FFFFF#32
  | .mfhi _ | .mflo _ => 0xFC00F83F#32
  | .mthi _ | .mtlo _ | .jr _ => 0xFFE0003F#32
  | .jalr _ _ => 0xFFE0F83F#32
  | .blez _ _ | .bgtz _ _ => 0xFFE0FFFF#32
  | .bltz _ _ | .bgez _ _ | .bltzal _ _ | .bgezal _ _ => 0xFFFFFFFF#32

end Sys2Proof
end

