-- ==== Sys2Proof/Machine/Memory.lean ====
section
/-! DEFINITION. Sparse storage in one canonical form: a list of (index, value) pairs with rising indexes and no
zero value. RAM, BIOS and VRAM are such lists. An index that is not listed reads 0: reset fills RAM and VRAM
with zeros (10_state.md R29) and a machine without an image has a BIOS of zeros (20_memory.md R36). -/

namespace Sys2Proof.Machine

/-- A memory of `w`-bit items, listed by rising index, zero items left out. -/
abbrev Store (w : Nat) := List (Nat × BitVec w)

/-- A memory of bytes: a list of `Host.Cell`. -/
abbrev Memory := Store 8

/-- The item at index `k`; an unlisted index reads 0 (10_state.md R29; 20_memory.md R36). -/
def Store.read {w : Nat} : Store w → Nat → BitVec w
  | [], _ => 0#w
  | (a, v) :: m, k => if a = k then v else Store.read m k

/-- Write `v` at index `k`, keeping the canonical form: a zero removes the entry. -/
def Store.write {w : Nat} : Store w → Nat → BitVec w → Store w
  | [], k, v => if v = 0#w then [] else [(k, v)]
  | (a, x) :: m, k, v =>
    if k < a then (if v = 0#w then (a, x) :: m else (k, v) :: (a, x) :: m)
    else if k = a then (if v = 0#w then m else (k, v) :: m)
    else (a, x) :: Store.write m k v

/-- Canonical from index `lo` up to index `hi` (not included): rising indexes in range, no zero item. -/
def Store.wfFrom {w : Nat} (hi : Nat) : Nat → Store w → Bool
  | _, [] => true
  | lo, (a, v) :: m => decide (lo ≤ a) && decide (a < hi) && decide (v ≠ 0#w) && Store.wfFrom hi (a + 1) m

/-- The canonical form of a memory of `size` items. -/
def Store.wf {w : Nat} (size : Nat) (m : Store w) : Bool := Store.wfFrom size 0 m

/-- The canonical form of a byte memory of `size` bytes. -/
def Memory.wf (size : Nat) (m : Memory) : Bool := Store.wf size m

/-- Write a list of items from index `k` on. -/
def Store.writeList {w : Nat} : Store w → Nat → List (BitVec w) → Store w
  | m, _, [] => m
  | m, k, v :: vs => Store.writeList (Store.write m k v) (k + 1) vs

end Sys2Proof.Machine
end

