-- ==== Sys2Proof/Machine/State.lean ====
section
/-! DEFINITION. The state of the machine as plain data: everything 10_state.md R15 to R29 lists, the outputs the
spec has the block produce (log 4), and the two configuration inputs held as data (logs 1 and 2). -/

namespace Sys2Proof.Machine

/-- The exceptions of 60_exceptions.md R156. -/
inductive Exc where
  | interrupt
  | addressErrorLoad
  | addressErrorStore
  | syscall
  | brk
  | reservedInstruction
  | integerOverflow
  deriving DecidableEq, Repr

/-- What a step reports to the host (40_step_sequencer.md R68). -/
inductive StepResult where
  | ok
  | exception (e : Exc)
  deriving DecidableEq, Repr

/-- The width of a bus access (20_memory.md R30, R42). -/
inductive Width where
  | byte
  | half
  | word
  deriving DecidableEq, Repr

/-- The region an address resolves to (20_memory.md R30): RAM and BIOS with the offset, the timer window with
the timer and the field offset, the two GPU ports. -/
inductive Region where
  | ram (offset : Nat)
  | bios (offset : Nat)
  | timer (i : Fin 3) (field : Nat)
  | gp0
  | gp1
  | unmapped
  deriving DecidableEq, Repr

/-- A diagnostic event; `n` is the access width in bytes, `v` the low `8n` bits stored (20_memory.md R39). -/
inductive Diag where
  | unmappedRead (addr : Word) (n : Nat)
  | unmappedWrite (addr : Word) (n : Nat) (v : Word)
  | biosWriteRejected (addr : Word) (n : Nat) (v : Word)
  | divideByZero (cia : Word)
  | unknownGpuOpcode (word : Word)
  deriving DecidableEq, Repr

/-- A vertex of a triangle: X in the low half, Y in the high half, both signed (62_gpu.md R215). -/
structure Vertex where
  x : BitVec 16
  y : BitVec 16
  deriving DecidableEq, Repr

/-- A call on the RendererPort with its arguments (62_gpu.md R214). `createTextureFromVram` carries the packet's
seven raw words in place of the region, which the spec does not describe (R216, log 9). -/
inductive RenderEvent where
  | updateVramTexture (vram : Store 16)
  | drawFlatTriangle (v1 v2 v3 : Vertex) (color : BitVec 24)
  | createTextureFromVram (packet : List Word) (vram : Store 16)
  | drawTexturedTriangle (v1 v2 v3 : Vertex) (uv1 uv2 uv3 : Word) (color : BitVec 24)
  deriving DecidableEq, Repr

/-- One of the three timers (61_timers.md R180). -/
structure Timer where
  counter    : BitVec 16
  target     : BitVec 16
  mode       : BitVec 14
  irqPending : Bool
  deriving DecidableEq, Repr

/-- The state of the GPU's parser (62_gpu.md R197). -/
inductive XferState where
  | idle
  | awaitingTransferSetup
  | transferringPixels
  deriving DecidableEq, Repr

/-- The GPU's state (62_gpu.md R195 to R211). Pixel (x, y) is item `1024 * y + x` of `vram`; the offsets are
read as signed 11-bit numbers (R208). -/
structure Gpu where
  vram       : Store 16
  queue      : List Word
  xferState  : XferState
  xferX      : BitVec 16
  xferY      : BitVec 16
  xferW      : BitVec 16
  xferH      : BitVec 16
  cursor     : BitVec 32
  areaLeft   : BitVec 10
  areaTop    : BitVec 10
  areaRight  : BitVec 10
  areaBottom : BitVec 10
  offsetX    : BitVec 11
  offsetY    : BitVec 11
  maskBit    : Bool
  irqEnable  : Bool
  irqFlag    : Bool
  deriving DecidableEq, Repr

/-- The whole machine between two steps. -/
structure State where
  /-- `x[0]` to `x[31]` (10_state.md R15). -/
  regs        : Vector Word 32
  hi          : Word
  lo          : Word
  pc          : Word
  nextPC      : Word
  inDelaySlot : Bool
  /-- The COP0 slots (10_state.md R21). -/
  c0          : Vector Word 32
  /-- RAM by offset (20_memory.md R33). -/
  ram         : Memory
  /-- The BIOS image by offset (20_memory.md R34, R36). No step writes it. -/
  bios        : Memory
  timers      : Vector Timer 3
  gpu         : Gpu
  /-- The result of the step just done (40_step_sequencer.md R68). -/
  result      : StepResult
  /-- The diagnostic events so far, oldest first (20_memory.md R39). -/
  diag        : List Diag
  /-- The RendererPort calls so far, oldest first (62_gpu.md R214). -/
  render      : List RenderEvent
  /-- The configuration parameter `MIPS1_EXT` (48_mips1_extension.md R240). No step writes it. -/
  mips1Ext    : Bool
  /-- Has the machine taken a step since power-on? The host may supply the BIOS image only before the first one
  (00_scope.md R7; log 8). -/
  stepped     : Bool
  deriving DecidableEq, Repr

/-- The machine never stops with a fault: every exception is an architectural next state and "nothing in the
machine is stuck" (70_reset_and_hazards.md R237; 93_implementation_defined.md, part 1). So there is none (log 7). -/
inductive Fault where
  deriving DecidableEq, Repr

/-- What the model does not speak of. -/
inductive Refusal where
  /-- Raised by `exec` for an instruction that has no meaning yet. Safe: the model stops. No arm raises it. -/
  | notModelled (mnemonic : String)
  /-- Raised by `step` for a word with major opcode 0x12, 0x32 or 0x3A, which "a model must treat as `refuse`"
  (30_encoding.md R57; 46_system.md R138). Safe: the model stops. -/
  | gteOpcode (word : Word)
  /-- Raised by the host action that supplies a BIOS image of a length other than 524288 bytes, "a configuration
  error, not a runtime fault" (20_memory.md R36). Safe: there is no such machine. -/
  | biosImageLength (length : Nat)
  /-- Raised by the host action that supplies a BIOS image once a step has been taken: the host may "supply the BIOS
  image before the first step" and do nothing else than R7 lists (00_scope.md R7). Safe: the model stops. -/
  | biosImageAfterFirstStep
  deriving DecidableEq, Repr

/-- A timer after reset (10_state.md R29). -/
def Timer.reset : Timer := { counter := 0, target := 0, mode := 0, irqPending := false }

/-- The GPU after its reset (10_state.md R29; 62_gpu.md R217). -/
def Gpu.reset : Gpu :=
  { vram := [], queue := [], xferState := .idle, xferX := 0, xferY := 0, xferW := 0, xferH := 0, cursor := 0,
    areaLeft := 0, areaTop := 0, areaRight := 0, areaBottom := 0, offsetX := 0, offsetY := 0,
    maskBit := false, irqEnable := false, irqFlag := false }

/-- The machine after power-on, both resets applied (10_state.md R29; 70_reset_and_hazards.md R220). The BIOS image
is the default of 20_memory.md R36; the outputs are empty (DESIGN CHOICE, log 4). -/
def State.reset : State :=
  { regs := (Vector.replicate 32 (0 : Word)).set 29 Config.spReset
    hi := 0
    lo := 0
    pc := Config.resetPc
    nextPC := 0
    inDelaySlot := false
    c0 := Vector.replicate 32 (0 : Word)
    ram := []
    bios := []
    timers := Vector.replicate 3 Timer.reset
    gpu := Gpu.reset
    result := .ok
    diag := []
    render := []
    mips1Ext := false
    stepped := false }

end Sys2Proof.Machine
end

