-- ==== Sys2Proof/Machine/Cop0.lean ====
section
/-! DEFINITION. The COP0 bank: slot access, the named registers and their fields (10_state.md R21 to R26), and
`SetIRQ` (60_exceptions.md R160). -/

namespace Sys2Proof.Machine

/-- The slots of the named registers (10_state.md R21). -/
def slotBadVAddr : Slot := 8
def slotStatus : Slot := 12
def slotCause : Slot := 13
def slotEPC : Slot := 14
def slotPRId : Slot := 15

/-- Read a COP0 slot, all 32 bits (10_state.md R21). -/
def State.readC0 (s : State) (n : Slot) : Word := s.c0[n]

/-- Write a COP0 slot, all 32 bits (10_state.md R21). -/
def State.writeC0 (s : State) (n : Slot) (v : Word) : State := { s with c0 := s.c0.set n v }

def State.badVAddr (s : State) : Word := s.readC0 slotBadVAddr
def State.status (s : State) : Word := s.readC0 slotStatus
def State.cause (s : State) : Word := s.readC0 slotCause
def State.epc (s : State) : Word := s.readC0 slotEPC
def State.prid (s : State) : Word := s.readC0 slotPRId

/-- Status.IE, bit 0 (10_state.md R22). -/
def State.ie (s : State) : Bool := s.status.getLsbD 0

/-- Status.EXL, bit 1 (10_state.md R22). -/
def State.exl (s : State) : Bool := s.status.getLsbD 1

/-- A word with bit `i` set to `b`, every other bit kept. -/
def setBit (w : Word) (i : Nat) (b : Bool) : Word :=
  if b then w ||| (1#32 <<< i) else w &&& ~~~(1#32 <<< i)

/-- Set or clear Status.EXL; "the other 31 bits of Status unchanged" (60_exceptions.md R150). -/
def State.setExl (s : State) (b : Bool) : State := s.writeC0 slotStatus (setBit s.status 1 b)

/-- `SetIRQ(line, state)`: `Cause[8 + line] <- state` (60_exceptions.md R160). -/
def State.setIRQ (s : State) (line : Fin 8) (b : Bool) : State :=
  s.writeC0 slotCause (setBit s.cause (8 + line.val) b)

/-- `active`, the enabled pending lines (60_exceptions.md R162). -/
def State.activeLines (s : State) : Word := (s.status >>> 8) &&& (s.cause >>> 8) &&& 0xFF#32

/-- May the poll deliver an interrupt now (60_exceptions.md R162)? -/
def State.interruptReady (s : State) : Bool := s.ie && !s.exl && s.activeLines != 0#32

end Sys2Proof.Machine
end

