-- ==== Sys2Proof/Machine/Gpu.lean ====
section
/-! DEFINITION. The GPU command-packet parser and VRAM write sequencer (62_gpu.md): `WriteCommand`,
`WriteControl` and the commands. -/

namespace Sys2Proof.Machine

/-- Emit a diagnostic event (20_memory.md R39). -/
def State.emit (s : State) (e : Diag) : State := { s with diag := s.diag ++ [e] }

/-- Call the RendererPort (62_gpu.md R214). -/
def State.render1 (s : State) (e : RenderEvent) : State := { s with render := s.render ++ [e] }

/-- `word[31:24]`, a command's opcode byte (62_gpu.md R198). -/
def topByte (w : Word) : Byte := w.extractLsb' 24 8

/-- The low halfword: an X, a width, or the first pixel (62_gpu.md R200, R201, R206). -/
def lowHalf (w : Word) : BitVec 16 := w.extractLsb' 0 16

/-- The high halfword: a Y, a height, or the second pixel (62_gpu.md R200, R201, R206). -/
def highHalf (w : Word) : BitVec 16 := w.extractLsb' 16 16

/-- `PacketLength`, by the top byte of the first queued word (62_gpu.md R198). -/
def packetLength (op : Byte) : Nat :=
  if op = Config.opTriFlat then 4
  else if op = Config.opTriTex then 7
  else if op = Config.opVramCopy ∨ op = Config.opXferSetup then 3
  else if op = Config.opFill then 3
  else 1

/-- Where `vram[y][x]` stands (62_gpu.md R195). -/
def pixelIndex (x y : Nat) : Nat := Config.vramWidth * y + x

/-- Inside VRAM (62_gpu.md R205, R206). -/
def inVram (x y : Nat) : Bool := decide (x < Config.vramWidth) && decide (y < Config.vramHeight)

/-- One pixel of a fill: skipped outside VRAM (62_gpu.md R206). -/
def fillPixel (p : Pixel) (v : Store 16) (x y : Nat) : Store 16 :=
  if inVram x y then Store.write v (pixelIndex x y) p else v

/-- The fill's loops, row by row, left to right (62_gpu.md R206). -/
def fillRect (p : Pixel) (x0 y0 w h : Nat) (v : Store 16) : Store 16 :=
  (List.range h).foldl (fun v j => (List.range w).foldl (fun v i => fillPixel p v (x0 + i) (y0 + j)) v) v

/-- The fill colour: the top five bits of each channel, bit 15 zero (62_gpu.md R206). -/
def fillColour (c : Word) : Pixel :=
  (c.extractLsb' 3 5).setWidth 16 ||| ((c.extractLsb' 11 5).setWidth 16 <<< 5)
    ||| ((c.extractLsb' 19 5).setWidth 16 <<< 10)

/-- One pixel of a VRAM-to-VRAM copy: skipped where the source or the destination is outside (62_gpu.md R205). -/
def copyPixel (v : Store 16) (sx sy dx dy : Nat) : Store 16 :=
  if inVram sx sy && inVram dx dy then Store.write v (pixelIndex dx dy) (Store.read v (pixelIndex sx sy)) else v

/-- The copy's loops, row by row, left to right, on the current contents (62_gpu.md R205). -/
def copyRect (f : CopyFields) (v : Store 16) : Store 16 :=
  (List.range f.h.toNat).foldl (fun v j => (List.range f.w.toNat).foldl
    (fun v i => copyPixel v (f.sx + i) (f.sy + j) (f.dx + i) (f.dy + j)) v) v

/-- A vertex word (62_gpu.md R215). -/
def vertexOf (w : Word) : Vertex := { x := lowHalf w, y := highHalf w }

/-- A command's 24-bit colour (62_gpu.md R215). -/
def colourOf (w : Word) : BitVec 24 := w.extractLsb' 0 24

/-- Word `k` of a packet. -/
def packetWord (q : List Word) (k : Nat) : Word := q.getD k 0#32

/-- The monochrome rectangle fill (62_gpu.md R206). -/
def State.gpuFill (s : State) (q : List Word) : State :=
  { s with gpu := { s.gpu with
      vram := fillRect (fillColour (packetWord q 0)) (lowHalf (packetWord q 1)).toNat (highHalf (packetWord q 1)).toNat
        (lowHalf (packetWord q 2)).toNat (highHalf (packetWord q 2)).toNat s.gpu.vram } }

/-- The flat-shaded triangle (62_gpu.md R215). -/
def State.gpuFlatTriangle (s : State) (q : List Word) : State :=
  s.render1 (.drawFlatTriangle (vertexOf (packetWord q 1)) (vertexOf (packetWord q 2)) (vertexOf (packetWord q 3))
    (colourOf (packetWord q 0)))

/-- The textured triangle: a texture of the current VRAM, then the triangle (62_gpu.md R216, log 9). -/
def State.gpuTexturedTriangle (s : State) (q : List Word) : State :=
  (s.render1 (.createTextureFromVram q s.gpu.vram)).render1
    (.drawTexturedTriangle (vertexOf (packetWord q 1)) (vertexOf (packetWord q 3)) (vertexOf (packetWord q 5))
      (packetWord q 2) (packetWord q 4) (packetWord q 6) (colourOf (packetWord q 0)))

/-- The VRAM-to-VRAM copy, with the fields the open parameter gives (62_gpu.md R205, log 3). -/
def State.gpuCopy (s : State) (q : List Word) : State :=
  { s with gpu := { s.gpu with
      vram := copyRect (Config.vramCopyFields (packetWord q 0) (packetWord q 1) (packetWord q 2)) s.gpu.vram } }

/-- Draw area, top left (62_gpu.md R207). -/
def State.gpuAreaTopLeft (s : State) (w : Word) : State :=
  { s with gpu := { s.gpu with areaLeft := w.extractLsb' 0 10, areaTop := w.extractLsb' 10 10 } }

/-- Draw area, bottom right (62_gpu.md R207). -/
def State.gpuAreaBottomRight (s : State) (w : Word) : State :=
  { s with gpu := { s.gpu with areaRight := w.extractLsb' 0 10, areaBottom := w.extractLsb' 10 10 } }

/-- Draw offset, two signed 11-bit fields (62_gpu.md R208). -/
def State.gpuDrawOffset (s : State) (w : Word) : State :=
  { s with gpu := { s.gpu with offsetX := w.extractLsb' 0 11, offsetY := w.extractLsb' 11 11 } }

/-- Mask bit (62_gpu.md R209). -/
def State.gpuMaskBit (s : State) (w : Word) : State :=
  { s with gpu := { s.gpu with maskBit := w.getLsbD 0 } }

/-- `Dispatch(queue)`, by the top byte of its first word (62_gpu.md R204, R210). -/
def State.gpuDispatch (s : State) (q : List Word) : State :=
  let op := topByte (packetWord q 0)
  if op = Config.opNop then s
  else if op = Config.opFill then s.gpuFill q
  else if op = Config.opTriFlat then s.gpuFlatTriangle q
  else if op = Config.opTriTex then s.gpuTexturedTriangle q
  else if op = Config.opVramCopy then s.gpuCopy q
  else if op = Config.opAreaTL then s.gpuAreaTopLeft (packetWord q 0)
  else if op = Config.opAreaBR then s.gpuAreaBottomRight (packetWord q 0)
  else if op = Config.opOffset then s.gpuDrawOffset (packetWord q 0)
  else if op = Config.opMask then s.gpuMaskBit (packetWord q 0)
  else s.emit (.unknownGpuOpcode (packetWord q 0))

/-- Set the parser's queue. -/
def State.setQueue (s : State) (q : List Word) : State := { s with gpu := { s.gpu with queue := q } }

/-- `CompleteTransfer()` (62_gpu.md R203). -/
def State.completeTransfer (s : State) : State :=
  let s1 := { s with gpu := { s.gpu with xferState := .idle } }
  let s2 := s1.render1 (.updateVramTexture s.gpu.vram)
  if s.gpu.irqEnable then
    ({ s2 with gpu := { s2.gpu with irqFlag := true } }).setIRQ Config.gpuIrqLine true
  else s2

/-- `WriteCommand` in Idle (62_gpu.md R198). -/
def State.gpuIdle (s : State) (w : Word) : State :=
  if topByte w = Config.opXferSetup then
    { s with gpu := { s.gpu with queue := [w], xferState := .awaitingTransferSetup } }
  else
    let q := s.gpu.queue ++ [w]
    if q.length = packetLength (topByte (packetWord q 0)) then (s.gpuDispatch q).setQueue []
    else s.setQueue q

/-- The number of pixels of the transfer, `xferW * xferH` (62_gpu.md R200). -/
def Gpu.xferPixels (g : Gpu) : Nat := g.xferW.toNat * g.xferH.toNat

/-- `ParseTransfer(w1, w2)` with the queue cleared and the transfer begun (62_gpu.md R199, R200). -/
def Gpu.beginTransfer (g : Gpu) (w1 w2 : Word) : Gpu :=
  { g with xferX := lowHalf w1, xferY := highHalf w1, xferW := lowHalf w2, xferH := highHalf w2,
           queue := [], cursor := 0, xferState := .transferringPixels }

/-- `WriteCommand` in AwaitingTransferSetup (62_gpu.md R199). -/
def State.gpuAwaiting (s : State) (w : Word) : State :=
  let q := s.gpu.queue ++ [w]
  if q.length = 3 then
    let s' := { s with gpu := s.gpu.beginTransfer (packetWord q 1) (packetWord q 2) }
    if s'.gpu.xferPixels = 0 then s'.completeTransfer else s'
  else s.setQueue q

/-- The pixel a transfer coordinate lands on: saturated at the edges of VRAM (62_gpu.md R201). -/
def clampedIndex (x y : Nat) : Nat := pixelIndex (min x (Config.vramWidth - 1)) (min y (Config.vramHeight - 1))

/-- One data word of a transfer: two pixels, then the cursor (62_gpu.md R201). -/
def Gpu.transferWord (g : Gpu) (w : Word) : Gpu :=
  let px := g.xferX.toNat + g.cursor.toNat % g.xferW.toNat
  let py := g.xferY.toNat + g.cursor.toNat / g.xferW.toNat
  { g with vram := Store.write (Store.write g.vram (clampedIndex px py) (lowHalf w)) (clampedIndex (px + 1) py) (highHalf w)
           cursor := g.cursor + 2#32 }

/-- `WriteCommand` in TransferringPixels (62_gpu.md R201). -/
def State.gpuTransferring (s : State) (w : Word) : State :=
  let s' := { s with gpu := s.gpu.transferWord w }
  if s'.gpu.xferPixels ≤ s'.gpu.cursor.toNat then s'.completeTransfer else s'

/-- `WriteCommand(word)` (62_gpu.md R196). -/
def State.gpuWriteCommand (s : State) (w : Word) : State :=
  match s.gpu.xferState with
  | .idle => s.gpuIdle w
  | .awaitingTransferSetup => s.gpuAwaiting w
  | .transferringPixels => s.gpuTransferring w

/-- `WriteControl(word)` (62_gpu.md R211, R212). -/
def State.gpuWriteControl (s : State) (w : Word) : State :=
  if topByte w = Config.gp1IrqAck then
    ({ s with gpu := { s.gpu with irqFlag := false } }).setIRQ Config.gpuIrqLine false
  else if topByte w = Config.gp1IrqEnable then
    { s with gpu := { s.gpu with irqEnable := true } }
  else s

end Sys2Proof.Machine
end

