-- ==== Sys2Proof/Machine/Operands.lean ====
section
/-! DEFINITION. How operands are assembled: immediates, addresses, targets, shift amounts (30_encoding.md R52),
the bytes of an access (20_memory.md R40), and the merges of the unaligned instructions (44_loadstore.md R109). -/

namespace Sys2Proof.Machine

/-- `sext_16(imm)` (00_scope.md R12). -/
def sext16 (imm : BitVec 16) : Word := imm.signExtend 32

/-- `zext_16(imm)` (00_scope.md R12). -/
def zext16 (imm : BitVec 16) : Word := imm.setWidth 32

/-- `sext_8` of a loaded value (44_loadstore.md R101). -/
def sextByte (v : Word) : Word := (v.setWidth 8).signExtend 32

/-- `sext_16` of a loaded value (44_loadstore.md R103). -/
def sextHalf (v : Word) : Word := (v.setWidth 16).signExtend 32

/-- `ea`, base plus displacement modulo 2^32 (44_loadstore.md R100). -/
def effectiveAddress (base : Word) (offset : BitVec 16) : Word := base + sext16 offset

/-- The target of J and JAL (45_control.md R120). -/
def jumpTarget (cia : Word) (target : BitVec 26) : Word :=
  (cia &&& 0xF0000000#32) ||| (target.setWidth 32 <<< 2)

/-- The target of a taken branch, from the branch's own address (45_control.md R122). -/
def branchTarget (cia : Word) (imm : BitVec 16) : Word := cia + (sext16 imm <<< 2)

/-- The link value, the address past the delay slot (45_control.md R121). -/
def linkAddress (cia : Word) : Word := cia + 8#32

/-- The variable shift amount `x[rs][4:0]` (42_shift.md R85). -/
def shiftAmount (v : Word) : Nat := v.toNat % 32

/-- The bytes an access moves (20_memory.md R42). -/
def Width.bytes : Width → Nat
  | .byte => 1
  | .half => 2
  | .word => 4

/-- The alignment check, on the address as computed (20_memory.md R41). -/
def aligned (n : Width) (addr : Word) : Bool := decide (addr.toNat % n.bytes = 0)

/-- The low `8n` bits of a stored value (20_memory.md R32). -/
def lowBits (n : Width) (v : Word) : Word :=
  match n with
  | .byte => (v.setWidth 8).setWidth 32
  | .half => (v.setWidth 16).setWidth 32
  | .word => v

/-- The bytes a store writes, the one at the lowest address first (20_memory.md R40). -/
def storedBytes (n : Width) (v : Word) : List Byte :=
  match n with
  | .byte => [v.extractLsb' 0 8]
  | .half => [v.extractLsb' 8 8, v.extractLsb' 0 8]
  | .word => bytesOfWord v

/-- The `n` bytes of a memory from offset `o`, big-endian, zero-extended (20_memory.md R31, R40). -/
def Memory.readBE (m : Memory) (o : Nat) (n : Width) : Word :=
  match n with
  | .byte => (Store.read m o).setWidth 32
  | .half => (Store.read m o ++ Store.read m (o + 1)).setWidth 32
  | .word => wordOfBytes (Store.read m o) (Store.read m (o + 1)) (Store.read m (o + 2)) (Store.read m (o + 3))

/-- `wa`, the aligned word that contains `ea` (44_loadstore.md R109). -/
def alignedWord (ea : Word) : Word := ea &&& 0xFFFFFFFC#32

/-- `b = ea[1:0]`, the byte position inside the word, 0 the most significant (44_loadstore.md R109). -/
def byteInWord (ea : Word) : Nat := ea.toNat % 4

/-- What LWL writes: memory word `m`, old register value `g`, byte position `b` (44_loadstore.md R110). -/
def mergeLwl (m g : Word) (b : Nat) : Word := (m <<< (8 * b)) ||| (g &&& ((1#32 <<< (8 * b)) - 1#32))

/-- What LWR writes (44_loadstore.md R111). -/
def mergeLwr (m g : Word) (b : Nat) : Word :=
  (m >>> (8 * (3 - b))) ||| (g &&& ~~~(0xFFFFFFFF#32 >>> (8 * (3 - b))))

/-- What SWL stores (44_loadstore.md R112). -/
def mergeSwl (m g : Word) (b : Nat) : Word := (m &&& ~~~(0xFFFFFFFF#32 >>> (8 * b))) ||| (g >>> (8 * b))

/-- What SWR stores (44_loadstore.md R113). -/
def mergeSwr (m g : Word) (b : Nat) : Word :=
  (g <<< (8 * (3 - b))) ||| (m &&& ((1#32 <<< (8 * (3 - b))) - 1#32))

end Sys2Proof.Machine
end

