-- ==== Sys2Proof/Machine/Timers.lean ====
section
/-! DEFINITION. The TimerBank: register access (61_timers.md R182), the tick (R185) and the step from
`IRQPending` to the interrupt line (R186). -/

namespace Sys2Proof.Machine

/-- `ResetOnTarget`, Mode bit 4 (61_timers.md R183). -/
def Timer.resetOnTarget (t : Timer) : Bool := t.mode.getLsbD 4

/-- `IRQEnabled`, Mode bit 10 (61_timers.md R183). -/
def Timer.irqEnabled (t : Timer) : Bool := t.mode.getLsbD 10

/-- A read of width `n` at field offset `f`; `none` where it behaves as unmapped (61_timers.md R182). -/
def Timer.readField (t : Timer) (f : Nat) (n : Width) : Option Word :=
  match n with
  | .byte => none
  | .half | .word =>
    if f = 0x0 then some (t.counter.setWidth 32)
    else if f = 0x4 then some (t.mode.setWidth 32)
    else if f = 0x8 then some (t.target.setWidth 32)
    else none

/-- A write of width `n` at field offset `f`; `none` where it behaves as unmapped (61_timers.md R182). -/
def Timer.writeField (t : Timer) (f : Nat) (n : Width) (v : Word) : Option Timer :=
  match n with
  | .byte => none
  | .half | .word =>
    if f = 0x0 then some { t with counter := v.setWidth 16 }
    else if f = 0x4 then some { t with mode := v.setWidth 14 }
    else if f = 0x8 then some { t with target := v.setWidth 16 }
    else none

/-- `Tick(i)`: increment, then compare (61_timers.md R185). -/
def Timer.tick (t : Timer) : Timer :=
  let c := t.counter + 1#16
  if c = t.target then
    { t with counter := if t.resetOnTarget then 0#16 else c
             irqPending := t.irqPending || t.irqEnabled }
  else { t with counter := c }

/-- Stage 5 for timer `i`: the tick, and the pending edge turned into line `i + 3` (61_timers.md R185, R186). -/
def State.tickTimer (s : State) (i : Fin 3) : State :=
  let t := s.timers[i].tick
  let s' := { s with timers := s.timers.set i { t with irqPending := false } }
  if t.irqPending then s'.setIRQ ⟨i.val + 3, by omega⟩ true else s'

/-- Stage 5 of a step: timers 0, 1, 2 in this order (40_step_sequencer.md R60). -/
def State.tickTimers (s : State) : State := ((s.tickTimer 0).tickTimer 1).tickTimer 2

end Sys2Proof.Machine
end

