-- ==== Sys2Proof/Machine/Ops.lean ====
section
/-! DEFINITION. The named operations the meanings are written over: the register file, the bus decoder with
its reads and writes (20_memory.md R30 to R37), the sequencer (40_step_sequencer.md R64, R66), exception entry
(60_exceptions.md R150) and return (46_system.md R135), and stages 4 and 6 of a step. -/

namespace Sys2Proof.Machine

/-! ## General registers -/

/-- `x[r]`; `x[0]` reads 0 (10_state.md R16). -/
def State.readReg (s : State) (r : Reg) : Word := if r = 0 then 0#32 else s.regs[r]

/-- `x[r] <- v`; a write to `x[0]` has no effect (10_state.md R16). -/
def State.writeReg (s : State) (r : Reg) (v : Word) : State :=
  if r = 0 then s else { s with regs := s.regs.set r v }

/-- `HI <- h; LO <- l`. -/
def State.writeHiLo (s : State) (h l : Word) : State := { s with hi := h, lo := l }

/-! ## The bus -/

/-- The address decoder, its cases tested in this order (20_memory.md R30). -/
def region (addr : Word) : Region :=
  if (addr &&& Config.ramMask).toNat < Config.ramSize then .ram (addr &&& Config.ramMask).toNat
  else if Config.biosBase.toNat ≤ addr.toNat ∧ addr.toNat < Config.biosBase.toNat + Config.biosSize then
    .bios (addr.toNat - Config.biosBase.toNat)
  else if h : Config.timerBase.toNat ≤ addr.toNat ∧ addr.toNat < Config.timerBase.toNat + 3 * Config.timerStride then
    .timer ⟨(addr.toNat - Config.timerBase.toNat) / Config.timerStride,
      by simp only [Config.timerStride] at h ⊢; omega⟩
      ((addr.toNat - Config.timerBase.toNat) % Config.timerStride)
  else if addr = Config.gp0Addr then .gp0
  else if addr = Config.gp1Addr then .gp1
  else .unmapped

/-- What a read returns; `none` where the access behaves as unmapped (20_memory.md R31; 61_timers.md R182). -/
def State.busRead (s : State) (addr : Word) (n : Width) : Option Word :=
  match region addr with
  | .ram o => some (Memory.readBE s.ram o n)
  | .bios o => some (Memory.readBE s.bios o n)
  | .timer i f => s.timers[i].readField f n
  | .gp0 | .gp1 | .unmapped => none

/-- `MemRead(addr, n)`: an unmapped read returns 0 (20_memory.md R31). -/
def State.memRead (s : State) (addr : Word) (n : Width) : Word := (s.busRead addr n).getD 0#32

/-- The one effect of a read: the diagnostic event of an unmapped one (20_memory.md R31). -/
def State.noteRead (s : State) (addr : Word) (n : Width) : State :=
  match s.busRead addr n with
  | some _ => s
  | none => s.emit (.unmappedRead addr n.bytes)

/-- `MemWrite(addr, n, v)` (20_memory.md R32, R37; 61_timers.md R182). -/
def State.memWrite (s : State) (addr : Word) (n : Width) (v : Word) : State :=
  match region addr with
  | .ram o => { s with ram := Store.writeList s.ram o (storedBytes n v) }
  | .bios _ => s.emit (.biosWriteRejected addr n.bytes (lowBits n v))
  | .timer i f =>
    match s.timers[i].writeField f n v with
    | some t => { s with timers := s.timers.set i t }
    | none => s.emit (.unmappedWrite addr n.bytes (lowBits n v))
  | .gp0 => if n = .word then s.gpuWriteCommand v else s.emit (.unmappedWrite addr n.bytes (lowBits n v))
  | .gp1 => if n = .word then s.gpuWriteControl v else s.emit (.unmappedWrite addr n.bytes (lowBits n v))
  | .unmapped => s.emit (.unmappedWrite addr n.bytes (lowBits n v))

/-! ## The sequencer: stage 3 of a step, from the latches as they stood when the step began
(40_step_sequencer.md R63, R66) -/

/-- Where the next step fetches: the latched target after a delay slot, else the next word (R66). -/
def State.followingPc (s : State) : Word := if s.inDelaySlot then s.nextPC else s.pc + 4#32

/-- An instruction that neither branched nor raised ends (R66). -/
def State.advance (s : State) : State :=
  { s with pc := s.followingPc, inDelaySlot := false, result := .ok }

/-- `branch(t)`: the target waits in `nextPC` while the delay slot executes (R64, R66). -/
def State.branch (s : State) (t : Word) : State :=
  { s with pc := s.followingPc, nextPC := t, inDelaySlot := true, result := .ok }

/-- A conditional branch: `branch(t)` where the condition holds, else an ordinary instruction (R64). -/
def State.branchIf (s : State) (c : Bool) (t : Word) : State := if c then s.branch t else s.advance

/-! ## Exceptions -/

/-- The exception codes (60_exceptions.md R156). -/
def Exc.code : Exc → Nat
  | .interrupt => 0
  | .addressErrorLoad => 4
  | .addressErrorStore => 5
  | .syscall => 8
  | .brk => 9
  | .reservedInstruction => 10
  | .integerOverflow => 12

/-- Does entry write BadVAddr (60_exceptions.md R154)? -/
def Exc.isAddressError : Exc → Bool
  | .addressErrorLoad | .addressErrorStore => true
  | .interrupt | .syscall | .brk | .reservedInstruction | .integerOverflow => false

/-- `Enter(code, epc, bad)`, the one exception entry (60_exceptions.md R150). -/
def State.enter (s : State) (e : Exc) (epc bad : Word) : State :=
  let s1 := ((s.writeC0 slotEPC epc).writeC0 slotCause (BitVec.ofNat 32 e.code <<< 2)).setExl true
  let s2 := if e.isAddressError then s1.writeC0 slotBadVAddr bad else s1
  { s2 with pc := Config.excVector, inDelaySlot := false, result := .exception e }

/-- `raise` of an exception without a bad address; EPC is the instruction's own address (60_exceptions.md R151). -/
def State.raise (s : State) (e : Exc) : State := s.enter e s.pc 0#32

/-- `raise` of an address error, with the bad address (60_exceptions.md R151, R154). -/
def State.raiseAddress (s : State) (e : Exc) (bad : Word) : State := s.enter e s.pc bad

/-- The return from an exception: EXL cleared, `pc <- EPC`, no delay slot (46_system.md R135; 40_step_sequencer.md R66). -/
def State.exceptionReturn (s : State) : State :=
  { s.setExl false with pc := s.epc, inDelaySlot := false, result := .ok }

/-! ## Fetch, and stages 4 and 6 of a step -/

/-- The word at the program counter, read through the bus (40_step_sequencer.md R61). -/
def State.fetchWord (s : State) : Word := s.memRead s.pc .word

/-- The state once the word is fetched: a fetch from an unmapped address leaves its event (20_memory.md R38). -/
def State.fetched (s : State) : State := s.noteRead s.pc .word

/-- The word stored where the next step fetches, in RAM or in the BIOS image; where the program counter is
misaligned or resolves to neither, it is first set to `RESET_PC` (log 17). -/
def State.placeWord (s : State) (w : Word) : State :=
  match if aligned .word s.pc then region s.pc else .unmapped with
  | .ram o => { s with ram := Store.writeList s.ram o (bytesOfWord w) }
  | .bios o => { s with bios := Store.writeList s.bios o (bytesOfWord w) }
  | .timer _ _ | .gp0 | .gp1 | .unmapped =>
    { s with pc := Config.resetPc, bios := Store.writeList s.bios 0 (bytesOfWord w) }

/-- Stage 4: register 0 is forced to zero (40_step_sequencer.md R60). -/
def State.forceZero (s : State) : State := { s with regs := s.regs.set 0 0#32 }

/-- The machine has taken a step, after which the host no longer supplies a BIOS image (00_scope.md R7; log 8). -/
def State.markStepped (s : State) : State := { s with stepped := true }

/-- Stage 6, the interrupt poll, in the step of the instruction at `cia` (60_exceptions.md R162, R164). -/
def State.pollInterrupts (s : State) (cia : Word) : State :=
  if s.interruptReady then s.enter .interrupt (if s.inDelaySlot then cia else s.pc) 0#32 else s

/-- Stages 4, 5 and 6, in every step (40_step_sequencer.md R60); the step is now taken. -/
def State.finishStep (s : State) (cia : Word) : State := s.markStepped.forceZero.tickTimers.pollInterrupts cia

end Sys2Proof.Machine
end

