-- ==== Sys2Proof/Machine/Results.lean ====
section
/-! DEFINITION. The shapes several instructions share: a result written to a register, an overflow-checked one, a
load and a store with the alignment check (41_alu.md R70; 44_loadstore.md R100). -/

namespace Sys2Proof.Machine

/-- What a meaning answers. -/
abbrev Result := Host.Outcome State Fault Refusal

/-- Write a result and go on (41_alu.md R70). -/
def writeResult (s : State) (rd : Reg) (v : Word) : Result := .next (s.writeReg rd v).advance

/-- Write a result unless it overflowed; on overflow raise and leave the destination (41_alu.md R71). -/
def writeUnlessOverflow (s : State) (rd : Reg) (v : Word) (overflow : Bool) : Result :=
  if overflow then .next (s.raise .integerOverflow) else writeResult s rd v

/-- Read the bus at `ea` and write what `extend` makes of the value to `rt` (44_loadstore.md R100). -/
def loadValue (s : State) (n : Width) (extend : Word → Word) (rt : Reg) (ea : Word) : Result :=
  .next ((s.noteRead ea n).writeReg rt (extend (s.memRead ea n))).advance

/-- A load that needs alignment: a misaligned `ea` raises before any access (44_loadstore.md R100; 20_memory.md R41). -/
def loadAligned (s : State) (n : Width) (extend : Word → Word) (rt : Reg) (ea : Word) : Result :=
  if aligned n ea then loadValue s n extend rt ea else .next (s.raiseAddress .addressErrorLoad ea)

/-- Write the bus at `ea` (44_loadstore.md R100). -/
def storeValue (s : State) (n : Width) (v : Word) (ea : Word) : Result := .next (s.memWrite ea n v).advance

/-- A store that needs alignment: a misaligned `ea` raises before any access (44_loadstore.md R100; 20_memory.md R41). -/
def storeAligned (s : State) (n : Width) (v : Word) (ea : Word) : Result :=
  if aligned n ea then storeValue s n v ea else .next (s.raiseAddress .addressErrorStore ea)

/-- An unaligned load: the aligned word that contains `ea` merged into the register (44_loadstore.md R109). -/
def loadMerged (s : State) (merge : Word → Word → Nat → Word) (rt : Reg) (ea : Word) : Result :=
  loadValue s .word (fun m => merge m (s.readReg rt) (byteInWord ea)) rt (alignedWord ea)

/-- An unaligned store: the aligned word that contains `ea` read, merged and written back (44_loadstore.md R109). -/
def storeMerged (s : State) (merge : Word → Word → Nat → Word) (rt : Reg) (ea : Word) : Result :=
  storeValue (s.noteRead (alignedWord ea) .word) .word
    (merge (s.memRead (alignedWord ea) .word) (s.readReg rt) (byteInWord ea)) (alignedWord ea)

/-- Divide: HI and LO where the divisor is not zero, else only the diagnostic event (43_muldiv.md R95, R96). -/
def divideResult (s : State) (divisor : Word) (remainder quotient : Word) : Result :=
  if divisor = 0#32 then .next (s.emit (.divideByZero s.pc)).advance
  else .next (s.writeHiLo remainder quotient).advance

/-- The `ea` of a load or store of `s` (44_loadstore.md R100). -/
def State.ea (s : State) (base : Reg) (offset : BitVec 16) : Word := effectiveAddress (s.readReg base) offset

end Sys2Proof.Machine
end

