-- ==== Sys2Proof/Machine/Alu.lean ====
section
/-! DEFINITION. Arithmetic, logic and compare instructions (41_alu.md). -/

namespace Sys2Proof.Machine

/-- ADD (41_alu.md R72). -/
def execAdd (rd rs rt : Reg) (s : State) : Result :=
  writeUnlessOverflow s rd (s.readReg rs + s.readReg rt)
    (overflowAdd (s.readReg rs) (s.readReg rt) (s.readReg rs + s.readReg rt))

/-- ADDU (41_alu.md R73). -/
def execAddu (rd rs rt : Reg) (s : State) : Result := writeResult s rd (s.readReg rs + s.readReg rt)

/-- SUB (41_alu.md R74). -/
def execSub (rd rs rt : Reg) (s : State) : Result :=
  writeUnlessOverflow s rd (s.readReg rs - s.readReg rt)
    (overflowSub (s.readReg rs) (s.readReg rt) (s.readReg rs - s.readReg rt))

/-- SUBU (41_alu.md R75). -/
def execSubu (rd rs rt : Reg) (s : State) : Result := writeResult s rd (s.readReg rs - s.readReg rt)

/-- ADDI (41_alu.md R76). -/
def execAddi (rt rs : Reg) (imm : BitVec 16) (s : State) : Result :=
  writeUnlessOverflow s rt (s.readReg rs + sext16 imm)
    (overflowAdd (s.readReg rs) (sext16 imm) (s.readReg rs + sext16 imm))

/-- AND (41_alu.md R77). -/
def execAnd (rd rs rt : Reg) (s : State) : Result := writeResult s rd (s.readReg rs &&& s.readReg rt)

/-- OR (41_alu.md R78). -/
def execOr (rd rs rt : Reg) (s : State) : Result := writeResult s rd (s.readReg rs ||| s.readReg rt)

/-- XOR (41_alu.md R79). -/
def execXor (rd rs rt : Reg) (s : State) : Result := writeResult s rd (s.readReg rs ^^^ s.readReg rt)

/-- NOR (41_alu.md R80). -/
def execNor (rd rs rt : Reg) (s : State) : Result := writeResult s rd (~~~(s.readReg rs ||| s.readReg rt))

/-- SLT (41_alu.md R81). -/
def execSlt (rd rs rt : Reg) (s : State) : Result :=
  writeResult s rd (flagWord (lessSigned (s.readReg rs) (s.readReg rt)))

/-- SLTI (41_alu.md R82). -/
def execSlti (rt rs : Reg) (imm : BitVec 16) (s : State) : Result :=
  writeResult s rt (flagWord (lessSigned (s.readReg rs) (sext16 imm)))

end Sys2Proof.Machine
end

