-- ==== Sys2Proof/Machine/Control.lean ====
section
/-! DEFINITION. Jumps and branches (45_control.md); `cia` is the instruction's own address, `s.pc`. -/

namespace Sys2Proof.Machine

/-- J (45_control.md R120). -/
def execJ (target : BitVec 26) (s : State) : Result := .next (s.branch (jumpTarget s.pc target))

/-- JAL (45_control.md R121). -/
def execJal (target : BitVec 26) (s : State) : Result :=
  .next ((s.writeReg 31 (linkAddress s.pc)).branch (jumpTarget s.pc target))

/-- BEQ (45_control.md R123). -/
def execBeq (rs rt : Reg) (imm : BitVec 16) (s : State) : Result :=
  .next (s.branchIf (decide (s.readReg rs = s.readReg rt)) (branchTarget s.pc imm))

/-- BNE (45_control.md R124). -/
def execBne (rs rt : Reg) (imm : BitVec 16) (s : State) : Result :=
  .next (s.branchIf (decide (s.readReg rs ≠ s.readReg rt)) (branchTarget s.pc imm))

end Sys2Proof.Machine
end

