-- ==== Sys2Proof/Machine/MulDiv.lean ====
section
/-! DEFINITION. Multiply and divide (43_muldiv.md). -/

namespace Sys2Proof.Machine

/-- A 64-bit product split into HI and LO, and the instruction done (43_muldiv.md R94). -/
def productResult (s : State) (q : BitVec 64) : Result :=
  .next (s.writeHiLo (q.extractLsb' 32 32) (q.extractLsb' 0 32)).advance

/-- MULT (43_muldiv.md R94). -/
def execMult (rs rt : Reg) (s : State) : Result :=
  productResult s (BitVec.ofInt 64 ((s.readReg rs).toInt * (s.readReg rt).toInt))

/-- DIV: quotient toward zero to LO, remainder to HI (43_muldiv.md R95 to R97). -/
def execDiv (rs rt : Reg) (s : State) : Result :=
  let n := (s.readReg rs).toInt
  let d := (s.readReg rt).toInt
  let q := n.tdiv d
  divideResult s (s.readReg rt) (BitVec.ofInt 32 (n - q * d)) (BitVec.ofInt 32 q)

end Sys2Proof.Machine
end

