-- ==== Sys2Proof/Machine/Extension.lean ====
section
/-! DEFINITION. The MIPS I integer instructions behind `MIPS1_EXT` (48_mips1_extension.md). The gate is the
decoder's (R240); here each has the meaning it has where the gate is open. -/

namespace Sys2Proof.Machine

/-- ADDIU (48_mips1_extension.md R241). -/
def execAddiu (rt rs : Reg) (imm : BitVec 16) (s : State) : Result := writeResult s rt (s.readReg rs + sext16 imm)

/-- SLTIU (48_mips1_extension.md R242). -/
def execSltiu (rt rs : Reg) (imm : BitVec 16) (s : State) : Result :=
  writeResult s rt (flagWord (lessUnsigned (s.readReg rs) (sext16 imm)))

/-- ANDI (48_mips1_extension.md R243). -/
def execAndi (rt rs : Reg) (imm : BitVec 16) (s : State) : Result := writeResult s rt (s.readReg rs &&& zext16 imm)

/-- ORI (48_mips1_extension.md R244). -/
def execOri (rt rs : Reg) (imm : BitVec 16) (s : State) : Result := writeResult s rt (s.readReg rs ||| zext16 imm)

/-- XORI (48_mips1_extension.md R245). -/
def execXori (rt rs : Reg) (imm : BitVec 16) (s : State) : Result := writeResult s rt (s.readReg rs ^^^ zext16 imm)

/-- LUI (48_mips1_extension.md R246). -/
def execLui (rt : Reg) (imm : BitVec 16) (s : State) : Result := writeResult s rt (zext16 imm <<< 16)

/-- SLTU (48_mips1_extension.md R247). -/
def execSltu (rd rs rt : Reg) (s : State) : Result :=
  writeResult s rd (flagWord (lessUnsigned (s.readReg rs) (s.readReg rt)))

/-- MULTU (48_mips1_extension.md R248). -/
def execMultu (rs rt : Reg) (s : State) : Result :=
  productResult s (BitVec.ofNat 64 ((s.readReg rs).toNat * (s.readReg rt).toNat))

/-- DIVU (48_mips1_extension.md R249, R250). -/
def execDivu (rs rt : Reg) (s : State) : Result :=
  divideResult s (s.readReg rt) (BitVec.ofNat 32 ((s.readReg rs).toNat % (s.readReg rt).toNat))
    (BitVec.ofNat 32 ((s.readReg rs).toNat / (s.readReg rt).toNat))

/-- MFHI (48_mips1_extension.md R252). -/
def execMfhi (rd : Reg) (s : State) : Result := writeResult s rd s.hi

/-- MTHI (48_mips1_extension.md R253). -/
def execMthi (rs : Reg) (s : State) : Result := .next (s.writeHiLo (s.readReg rs) s.lo).advance

/-- MFLO (48_mips1_extension.md R254). -/
def execMflo (rd : Reg) (s : State) : Result := writeResult s rd s.lo

/-- MTLO (48_mips1_extension.md R255). -/
def execMtlo (rs : Reg) (s : State) : Result := .next (s.writeHiLo s.hi (s.readReg rs)).advance

/-- JR (48_mips1_extension.md R256). -/
def execJr (rs : Reg) (s : State) : Result := .next (s.branch (s.readReg rs))

/-- JALR: the target is read before the link is written (48_mips1_extension.md R257). -/
def execJalr (rd rs : Reg) (s : State) : Result :=
  .next ((s.writeReg rd (linkAddress s.pc)).branch (s.readReg rs))

/-- BLEZ (48_mips1_extension.md R258). -/
def execBlez (rs : Reg) (imm : BitVec 16) (s : State) : Result :=
  .next (s.branchIf (decide ((s.readReg rs).toInt ≤ 0)) (branchTarget s.pc imm))

/-- BGTZ (48_mips1_extension.md R259). -/
def execBgtz (rs : Reg) (imm : BitVec 16) (s : State) : Result :=
  .next (s.branchIf (decide (0 < (s.readReg rs).toInt)) (branchTarget s.pc imm))

/-- BLTZ (48_mips1_extension.md R260). -/
def execBltz (rs : Reg) (imm : BitVec 16) (s : State) : Result :=
  .next (s.branchIf (decide ((s.readReg rs).toInt < 0)) (branchTarget s.pc imm))

/-- BGEZ (48_mips1_extension.md R261). -/
def execBgez (rs : Reg) (imm : BitVec 16) (s : State) : Result :=
  .next (s.branchIf (decide (0 ≤ (s.readReg rs).toInt)) (branchTarget s.pc imm))

/-- BLTZAL: the condition is read first, the link is written either way (48_mips1_extension.md R262). -/
def execBltzal (rs : Reg) (imm : BitVec 16) (s : State) : Result :=
  .next ((s.writeReg 31 (linkAddress s.pc)).branchIf (decide ((s.readReg rs).toInt < 0)) (branchTarget s.pc imm))

/-- BGEZAL (48_mips1_extension.md R263). -/
def execBgezal (rs : Reg) (imm : BitVec 16) (s : State) : Result :=
  .next ((s.writeReg 31 (linkAddress s.pc)).branchIf (decide (0 ≤ (s.readReg rs).toInt)) (branchTarget s.pc imm))

end Sys2Proof.Machine
end

