-- ==== Sys2Proof/Machine/LoadStore.lean ====
section
/-! DEFINITION. Loads and stores (44_loadstore.md). -/

namespace Sys2Proof.Machine

/-- LB (44_loadstore.md R101). -/
def execLb (rt base : Reg) (offset : BitVec 16) (s : State) : Result :=
  loadValue s .byte sextByte rt (s.ea base offset)

/-- LBU (44_loadstore.md R102). -/
def execLbu (rt base : Reg) (offset : BitVec 16) (s : State) : Result :=
  loadValue s .byte (lowBits .byte) rt (s.ea base offset)

/-- LH (44_loadstore.md R103). -/
def execLh (rt base : Reg) (offset : BitVec 16) (s : State) : Result :=
  loadAligned s .half sextHalf rt (s.ea base offset)

/-- LHU (44_loadstore.md R104). -/
def execLhu (rt base : Reg) (offset : BitVec 16) (s : State) : Result :=
  loadAligned s .half (lowBits .half) rt (s.ea base offset)

/-- LW (44_loadstore.md R105). -/
def execLw (rt base : Reg) (offset : BitVec 16) (s : State) : Result :=
  loadAligned s .word (lowBits .word) rt (s.ea base offset)

/-- SB (44_loadstore.md R106). -/
def execSb (rt base : Reg) (offset : BitVec 16) (s : State) : Result :=
  storeValue s .byte (s.readReg rt) (s.ea base offset)

/-- SH (44_loadstore.md R107). -/
def execSh (rt base : Reg) (offset : BitVec 16) (s : State) : Result :=
  storeAligned s .half (s.readReg rt) (s.ea base offset)

/-- SW (44_loadstore.md R108). -/
def execSw (rt base : Reg) (offset : BitVec 16) (s : State) : Result :=
  storeAligned s .word (s.readReg rt) (s.ea base offset)

/-- LWL (44_loadstore.md R110). -/
def execLwl (rt base : Reg) (offset : BitVec 16) (s : State) : Result :=
  loadMerged s mergeLwl rt (s.ea base offset)

/-- LWR (44_loadstore.md R111). -/
def execLwr (rt base : Reg) (offset : BitVec 16) (s : State) : Result :=
  loadMerged s mergeLwr rt (s.ea base offset)

/-- SWL (44_loadstore.md R112). -/
def execSwl (rt base : Reg) (offset : BitVec 16) (s : State) : Result :=
  storeMerged s mergeSwl rt (s.ea base offset)

/-- SWR (44_loadstore.md R113). -/
def execSwr (rt base : Reg) (offset : BitVec 16) (s : State) : Result :=
  storeMerged s mergeSwr rt (s.ea base offset)

end Sys2Proof.Machine
end

