-- ==== Sys2Proof/Machine/Shift.lean ====
section
/-! DEFINITION. Shift instructions (42_shift.md). -/

namespace Sys2Proof.Machine

/-- SLL (42_shift.md R86). -/
def execSll (rd rt : Reg) (sa : Fin 32) (s : State) : Result := writeResult s rd (s.readReg rt <<< sa.val)

/-- SRL (42_shift.md R87). -/
def execSrl (rd rt : Reg) (sa : Fin 32) (s : State) : Result := writeResult s rd (s.readReg rt >>> sa.val)

/-- SRA (42_shift.md R88). -/
def execSra (rd rt : Reg) (sa : Fin 32) (s : State) : Result := writeResult s rd ((s.readReg rt).sshiftRight sa.val)

/-- SLLV (42_shift.md R89). -/
def execSllv (rd rt rs : Reg) (s : State) : Result :=
  writeResult s rd (s.readReg rt <<< shiftAmount (s.readReg rs))

/-- SRLV (42_shift.md R90). -/
def execSrlv (rd rt rs : Reg) (s : State) : Result :=
  writeResult s rd (s.readReg rt >>> shiftAmount (s.readReg rs))

/-- SRAV (42_shift.md R91). -/
def execSrav (rd rt rs : Reg) (s : State) : Result :=
  writeResult s rd ((s.readReg rt).sshiftRight (shiftAmount (s.readReg rs)))

end Sys2Proof.Machine
end

