-- ==== Sys2Proof/Machine/System.lean ====
section
/-! DEFINITION. System instructions (46_system.md). None is privileged (R130). -/

namespace Sys2Proof.Machine

/-- SYSCALL (46_system.md R131). -/
def execSyscall (s : State) : Result := .next (s.raise .syscall)

/-- BREAK (46_system.md R132). -/
def execBreak (s : State) : Result := .next (s.raise .brk)

/-- MFC0 (46_system.md R133). -/
def execMfc0 (rt : Reg) (rd : Slot) (s : State) : Result := writeResult s rt (s.readC0 rd)

/-- MTC0 (46_system.md R134). -/
def execMtc0 (rt : Reg) (rd : Slot) (s : State) : Result := .next (s.writeC0 rd (s.readReg rt)).advance

/-- ERET (46_system.md R135). -/
def execEret (s : State) : Result := .next s.exceptionReturn

/-- What a step does with a reserved instruction (46_system.md R136). -/
def execReserved (s : State) : Result := .next (s.raise .reservedInstruction)

/-- What a step does with a fetch from a misaligned PC: nothing is fetched (40_step_sequencer.md R61). -/
def execMisalignedFetch (s : State) : Result := .next (s.raiseAddress .addressErrorLoad s.pc)

/-- What a step does with a word of the GTE (46_system.md R138). -/
def execGte (s : State) : Result := .refused (.gteOpcode s.fetchWord)

end Sys2Proof.Machine
end

