-- ==== Sys2Proof/Machine/Step.lean ====
section
/-! DEFINITION. The one transition of the machine (40_step_sequencer.md R60 to R68), and the host's way to put a
word where the next step fetches. -/

namespace Sys2Proof.Machine

/-- Stages 1 to 3: fetch, decode, execute, and the PC update (40_step_sequencer.md R61, R62, R66). -/
def execFetched (s : State) : Host.Outcome State Fault Refusal :=
  if aligned .word s.pc then
    match decode s.mips1Ext s.fetchWord with
    | .instr i => exec i s.fetched
    | .reserved => execReserved s.fetched
    | .gte => execGte s
  else execMisalignedFetch s

/-- One call of `Step` (40_step_sequencer.md R60). -/
def step (s : State) : Host.Outcome State Fault Refusal :=
  match execFetched s with
  | .next t => .next (t.finishStep s.pc)
  | .fault r => .fault r
  | .refused r => .refused r

/-- The word `w` of `nbits` bits stored where `step` fetches next. A word of the extension also needs
`MIPS1_EXT` = true to be fetched as an instruction (log 1); a program counter that points at neither RAM nor
BIOS is set to `RESET_PC` (log 17). -/
def State.withFetchWord (s : State) (nbits w : Nat) : State :=
  ({ s with mips1Ext := s.mips1Ext || needsExt (BitVec.ofNat 32 (w % 2 ^ nbits)) }).placeWord
    (BitVec.ofNat 32 (w % 2 ^ nbits))

end Sys2Proof.Machine
end

