-- ==== Sys2Proof/Machine/HostPort.lean ====
section
/-! DEFINITION. What the host may do to the machine between two steps, beside calling Step (00_scope.md R7, R8;
92_eei_decisions.md D36; log 8). -/

namespace Sys2Proof.Machine

/-- An action of the host between two steps. The type of `line` keeps to the eight lines there are (60_exceptions.md R160). -/
inductive HostAction where
  | cpuReset
  | gpuReset
  | setIRQ (line : Fin 8) (state : Bool)
  | loadBios (image : List Byte)
  | writeCommand (word : Word)
  | writeControl (word : Word)
  deriving DecidableEq, Repr

/-- The CPU's Reset: the CPU, RAM and timer rows of 10_state.md R29; the GPU, the BIOS image and the configuration
stay (70_reset_and_hazards.md R220, R221). The output streams stay, and the steps taken stay taken (log 13). -/
def State.cpuReset (s : State) : State :=
  { State.reset with
      bios := s.bios, gpu := s.gpu, diag := s.diag, render := s.render, mips1Ext := s.mips1Ext, stepped := s.stepped }

/-- The GPU's Reset: the GPU rows only; Cause is not touched (62_gpu.md R217). -/
def State.gpuReset (s : State) : State := { s with gpu := Gpu.reset }

/-- A byte buffer as a memory from offset `k` on, in canonical form. -/
def imageFrom (k : Nat) : List Byte → Memory
  | [] => []
  | b :: bs => if b = 0 then imageFrom (k + 1) bs else (k, b) :: imageFrom (k + 1) bs

/-- "Byte `k` of the buffer is the byte at address `BIOS_BASE + k`" (20_memory.md R36). -/
def imageMemory (image : List Byte) : Memory := imageFrom 0 image

/-- The BIOS image, supplied "before the first step" (00_scope.md R7). An image of a wrong length is "a configuration
error" (20_memory.md R36). -/
def State.loadBios (s : State) (image : List Byte) : Result :=
  if image.length ≠ Config.biosSize then .refused (.biosImageLength image.length)
  else if s.stepped then .refused .biosImageAfterFirstStep
  else .next { s with bios := imageMemory image }

/-- One host action (00_scope.md R7). -/
def hostAct (a : HostAction) (s : State) : Result :=
  match a with
  | .cpuReset => .next s.cpuReset
  | .gpuReset => .next s.gpuReset
  | .setIRQ line b => .next (s.setIRQ line b)
  | .loadBios image => s.loadBios image
  | .writeCommand w => .next (s.gpuWriteCommand w)
  | .writeControl w => .next (s.gpuWriteControl w)

end Sys2Proof.Machine
end

