-- ==== Sys2Proof/Safety.lean ====
section
/-! DEFINITION. The terms claims use: the invariant of the machine, what an instruction leaves unchanged, and how a
step can end. -/

namespace Sys2Proof.Machine

/-! ## Reading one byte -/

/-- The byte a program reads at an address (44_loadstore.md R102). -/
def State.readByte (s : State) (a : Word) : Byte := (s.memRead a .byte).setWidth 8

/-- Byte `j` of a word, 0 the most significant, the one at the lowest address (20_memory.md R40). -/
def byteLane (w : Word) (j : Nat) : Byte := w.extractLsb' (8 * (3 - j)) 8

/-- Does the address resolve to RAM or to the BIOS, whose bytes are storage (20_memory.md R30)? -/
def isStorage (a : Word) : Prop := (∃ o, region a = .ram o) ∨ (∃ o, region a = .bios o)

/-! ## The invariant -/

/-- What the parser's state means: Idle holds a packet not yet complete, with no setup word in it;
AwaitingTransferSetup holds the setup word and perhaps one descriptor word; TransferringPixels holds no word and
a transfer not yet complete (62_gpu.md R197 to R203). -/
def Gpu.ParserOk (g : Gpu) : Prop :=
  match g.xferState with
  | .idle => g.queue.length < packetLength (topByte (packetWord g.queue 0)) ∧ ∀ w ∈ g.queue, topByte w ≠ Config.opXferSetup
  | .awaitingTransferSetup =>
    (g.queue.length = 1 ∨ g.queue.length = 2) ∧ topByte (packetWord g.queue 0) = Config.opXferSetup
  | .transferringPixels => g.queue = [] ∧ g.cursor.toNat < g.xferPixels ∧ g.cursor.toNat % 2 = 0

/-- The machine between two steps. -/
structure State.Inv (s : State) : Prop where
  /-- Register 0 holds zero (10_state.md R16). -/
  zero    : s.regs[0] = 0#32
  /-- RAM is canonical and inside its 2 MiB (20_memory.md R33). -/
  ram     : Memory.wf Config.ramSize s.ram = true
  /-- The BIOS image is canonical and inside its 512 KiB (20_memory.md R36). -/
  bios    : Memory.wf Config.biosSize s.bios = true
  /-- VRAM is canonical and inside its 1024 x 512 pixels (62_gpu.md R195). -/
  vram    : Store.wf (Config.vramWidth * Config.vramHeight) s.gpu.vram = true
  /-- "`IRQPending` is 0 whenever a step is not in progress" (61_timers.md R186). -/
  pending : ∀ i : Fin 3, s.timers[i].irqPending = false
  /-- The GPU's parser is in a state its rules can reach (62_gpu.md R197). -/
  parser  : s.gpu.ParserOk

/-! ## Frames -/

/-- Every general register but those listed reads as before. -/
def SameRegs (except : List Reg) (s t : State) : Prop := ∀ r, r ∉ except → t.readReg r = s.readReg r

def SameHiLo (s t : State) : Prop := t.hi = s.hi ∧ t.lo = s.lo

/-- Every COP0 slot but those listed reads as before. -/
def SameCop0 (except : List Slot) (s t : State) : Prop := ∀ n, n ∉ except → t.readC0 n = s.readC0 n

/-- Every byte of memory reads as before. -/
def SameMemory (s t : State) : Prop := t.ram = s.ram ∧ t.bios = s.bios ∧ ∀ a, t.readByte a = s.readByte a

/-- The timers and the GPU are as before. -/
def SameDevices (s t : State) : Prop := t.timers = s.timers ∧ t.gpu = s.gpu

/-- No event was emitted. -/
def SameOutputs (s t : State) : Prop := t.diag = s.diag ∧ t.render = s.render

/-- The configuration, and whether a first step has been taken, are as before. -/
def SameConfig (s t : State) : Prop := t.mips1Ext = s.mips1Ext ∧ t.stepped = s.stepped

/-- Nothing but the listed general registers and the sequencer changed. -/
def WritesOnly (rs : List Reg) (s t : State) : Prop :=
  SameRegs rs s t ∧ SameHiLo s t ∧ SameCop0 [] s t ∧ SameMemory s t ∧ SameDevices s t ∧ SameOutputs s t ∧ SameConfig s t

/-- Nothing but HI, LO and the sequencer changed. -/
def WritesHiLoOnly (s t : State) : Prop :=
  SameRegs [] s t ∧ SameCop0 [] s t ∧ SameMemory s t ∧ SameDevices s t ∧ SameOutputs s t ∧ SameConfig s t

/-! ## How an instruction ends -/

/-- It neither branched nor raised: the next word, or the latched target after a delay slot (40_step_sequencer.md R66). -/
def GoesOn (s t : State) : Prop :=
  t.pc = (if s.inDelaySlot then s.nextPC else s.pc + 4#32) ∧ t.nextPC = s.nextPC ∧ t.inDelaySlot = false ∧ t.result = .ok

/-- It branched: the target waits for the delay slot (40_step_sequencer.md R64, R66). -/
def BranchesTo (target : Word) (s t : State) : Prop :=
  t.pc = (if s.inDelaySlot then s.nextPC else s.pc + 4#32) ∧ t.nextPC = target ∧ t.inDelaySlot = true ∧ t.result = .ok

/-- It took the exception `e` of the given code with the given EPC, and changed nothing but the exception registers
and the sequencer; `bad` says which slots beside Status, Cause and EPC may change (60_exceptions.md R150 to R154). -/
def Enters (e : Exc) (code : Nat) (epc : Word) (bad : List Slot) (s t : State) : Prop :=
  t.epc = epc ∧ t.cause = BitVec.ofNat 32 (4 * code) ∧
  (∀ j, j < 32 → t.status.getLsbD j = (decide (j = 1) || s.status.getLsbD j)) ∧
  t.pc = 0x80000080#32 ∧ t.inDelaySlot = false ∧ t.result = .exception e ∧
  SameRegs [] s t ∧ SameHiLo s t ∧ SameCop0 (12 :: 13 :: 14 :: bad) s t ∧ SameMemory s t ∧ SameDevices s t ∧
  SameOutputs s t ∧ SameConfig s t

/-- The instruction answers a next state in which register `rd` holds `v` (nothing, if it is register 0), nothing
else changed, and execution goes on. -/
def WritesTo (i : Instr) (s : State) (rd : Reg) (v : Word) : Prop :=
  ∃ t, exec i s = .next t ∧ t.readReg rd = (if rd = 0 then 0#32 else v) ∧ WritesOnly [rd] s t ∧ GoesOn s t

/-- The instruction answers a next state in which HI and LO hold `h` and `l`, nothing else changed, and execution goes on. -/
def SetsHiLo (i : Instr) (s : State) (h l : Word) : Prop :=
  ∃ t, exec i s = .next t ∧ t.hi = h ∧ t.lo = l ∧ WritesHiLoOnly s t ∧ GoesOn s t

/-- The instruction takes the exception `e` at its own address and leaves BadVAddr. -/
def Raises (i : Instr) (s : State) (e : Exc) (code : Nat) : Prop :=
  ∃ t, exec i s = .next t ∧ Enters e code s.pc [] s t

/-- The instruction takes the address error `e` at its own address, with `ea` in BadVAddr. -/
def RaisesAddress (i : Instr) (s : State) (e : Exc) (code : Nat) (ea : Word) : Prop :=
  ∃ t, exec i s = .next t ∧ t.badVAddr = ea ∧ Enters e code s.pc [8] s t

/-- The diagnostic event of a load, if its address behaves as unmapped (20_memory.md R31). -/
def readEvents (s : State) (a : Word) (n : Width) : List Diag :=
  if s.busRead a n = none then [.unmappedRead a n.bytes] else []

/-- The load answers a next state in which `rt` holds `v`, nothing else changed but for the event of an unmapped
read at `a`, and execution goes on. -/
def LoadsTo (i : Instr) (s : State) (rt : Reg) (v : Word) (a : Word) (n : Width) : Prop :=
  ∃ t, exec i s = .next t ∧ t.readReg rt = (if rt = 0 then 0#32 else v) ∧ SameRegs [rt] s t ∧ SameHiLo s t ∧
    SameCop0 [] s t ∧ SameMemory s t ∧ SameDevices s t ∧ t.diag = s.diag ++ readEvents s a n ∧ t.render = s.render ∧
    SameConfig s t ∧ GoesOn s t

/-- The store answers a next state in which the `n` bytes of RAM from `a` on are `byte 0, byte 1, …`, every other
byte of memory and everything else is as before, and execution goes on. -/
def StoresTo (i : Instr) (s : State) (a : Word) (n : Nat) (byte : Nat → Byte) : Prop :=
  ∃ t, exec i s = .next t ∧ (∀ k, k < n → t.readByte (a + BitVec.ofNat 32 k) = byte k) ∧
    (∀ b, (∀ k, k < n → region b ≠ region (a + BitVec.ofNat 32 k)) → t.readByte b = s.readByte b) ∧
    SameRegs [] s t ∧ SameHiLo s t ∧ SameCop0 [] s t ∧ t.bios = s.bios ∧ SameDevices s t ∧ SameOutputs s t ∧
    SameConfig s t ∧ GoesOn s t

/-- The control transfer answers a next state in which nothing but the registers of `link` changed, each now holding
the address past the delay slot, and the sequencer branches to `target` exactly when `c` holds. -/
def Transfers (i : Instr) (s : State) (link : List Reg) (c : Prop) (target : Word) : Prop :=
  ∃ t, exec i s = .next t ∧ WritesOnly link s t ∧ (∀ r ∈ link, t.readReg r = (if r = 0 then 0#32 else s.pc + 8#32)) ∧
    (c → BranchesTo target s t) ∧ (¬c → GoesOn s t)

/-- The COP0 write or return answers a next state in which slot `n` holds `v` and nothing else but the sequencer changed. -/
def SetsCop0 (i : Instr) (s : State) (n : Slot) (v : Word) (ends : State → State → Prop) : Prop :=
  ∃ t, exec i s = .next t ∧ t.readC0 n = v ∧ SameCop0 [n] s t ∧ SameRegs [] s t ∧ SameHiLo s t ∧ SameMemory s t ∧
    SameDevices s t ∧ SameOutputs s t ∧ SameConfig s t ∧ ends s t

/-- The instruction is a jump or branch, the callers of `branch` (40_step_sequencer.md R64). -/
def IsControl : Instr → Prop
  | .j _ | .jal _ | .beq _ _ _ | .bne _ _ _ | .jr _ | .jalr _ _ => True
  | .blez _ _ | .bgtz _ _ | .bltz _ _ | .bgez _ _ | .bltzal _ _ | .bgezal _ _ => True
  | .sll _ _ _ | .srl _ _ _ | .sra _ _ _ | .sllv _ _ _ | .srlv _ _ _ | .srav _ _ _ => False
  | .syscall | .brk | .eret | .mfc0 _ _ | .mtc0 _ _ => False
  | .mult _ _ | .div _ _ | .multu _ _ | .divu _ _ | .mfhi _ | .mthi _ | .mflo _ | .mtlo _ => False
  | .add _ _ _ | .addu _ _ _ | .sub _ _ _ | .subu _ _ _ | .and _ _ _ | .or _ _ _ | .xor _ _ _ | .nor _ _ _ => False
  | .slt _ _ _ | .sltu _ _ _ | .addi _ _ _ | .slti _ _ _ | .addiu _ _ _ | .sltiu _ _ _ => False
  | .andi _ _ _ | .ori _ _ _ | .xori _ _ _ | .lui _ _ => False
  | .lb _ _ _ | .lh _ _ _ | .lwl _ _ _ | .lw _ _ _ | .lbu _ _ _ | .lhu _ _ _ | .lwr _ _ _ => False
  | .sb _ _ _ | .sh _ _ _ | .swl _ _ _ | .sw _ _ _ | .swr _ _ _ => False

/-- The address a store presents to the bus, none for an instruction that stores nothing (44_loadstore.md R106 to R113). -/
def storeAddress (s : State) : Instr → Option Word
  | .sb _ base offset | .sh _ base offset | .sw _ base offset => some (s.ea base offset)
  | .swl _ base offset | .swr _ base offset => some (alignedWord (s.ea base offset))
  | .sll _ _ _ | .srl _ _ _ | .sra _ _ _ | .sllv _ _ _ | .srlv _ _ _ | .srav _ _ _ => none
  | .syscall | .brk | .eret | .mfc0 _ _ | .mtc0 _ _ => none
  | .mult _ _ | .div _ _ | .multu _ _ | .divu _ _ | .mfhi _ | .mthi _ | .mflo _ | .mtlo _ => none
  | .add _ _ _ | .addu _ _ _ | .sub _ _ _ | .subu _ _ _ | .and _ _ _ | .or _ _ _ | .xor _ _ _ | .nor _ _ _ => none
  | .slt _ _ _ | .sltu _ _ _ | .addi _ _ _ | .slti _ _ _ | .addiu _ _ _ | .sltiu _ _ _ => none
  | .andi _ _ _ | .ori _ _ _ | .xori _ _ _ | .lui _ _ => none
  | .lb _ _ _ | .lh _ _ _ | .lwl _ _ _ | .lw _ _ _ | .lbu _ _ _ | .lhu _ _ _ | .lwr _ _ _ => none
  | .j _ | .jal _ | .beq _ _ _ | .bne _ _ _ | .jr _ | .jalr _ _ => none
  | .blez _ _ | .bgtz _ _ | .bltz _ _ | .bgez _ _ | .bltzal _ _ | .bgezal _ _ => none

/-- The instruction a step of `s` executes, none where it fetches nothing or no instruction (40_step_sequencer.md R61, R62). -/
def State.Executes (s : State) (i : Instr) : Prop :=
  s.pc.toNat % 4 = 0 ∧ decode s.mips1Ext s.fetchWord = .instr i

/-- The signed number lies outside 32 bits. -/
def OutOfRange (z : Int) : Prop := z < -2147483648 ∨ 2147483648 ≤ z

/-- Is there an enabled pending line (60_exceptions.md R162)? -/
def LinePending (s : State) : Prop := ∃ n, n < 8 ∧ s.status.getLsbD (8 + n) = true ∧ s.cause.getLsbD (8 + n) = true

/-- Between the two states only the GPU, the RendererPort and Diag streams, and Cause bit 8 may differ. -/
def GpuOnly (s t : State) : Prop :=
  t.regs = s.regs ∧ SameHiLo s t ∧ t.pc = s.pc ∧ t.nextPC = s.nextPC ∧ t.inDelaySlot = s.inDelaySlot ∧
  SameCop0 [13] s t ∧ (∀ j, j < 32 → j ≠ 8 → t.cause.getLsbD j = s.cause.getLsbD j) ∧ SameMemory s t ∧
  t.timers = s.timers ∧ t.result = s.result ∧ SameConfig s t

/-- Run a list of command words through the command port (62_gpu.md R196). -/
def State.gpuWriteCommands (s : State) (ws : List Word) : State := ws.foldl State.gpuWriteCommand s

/-- `vram[y][x]` (62_gpu.md R195). -/
def Gpu.pixel (g : Gpu) (x y : Nat) : Pixel := Store.read g.vram (pixelIndex x y)

end Sys2Proof.Machine
end

