-- ==== Sys2Proof/Certificates/Slice0/Obligations.lean ====
section
/-! DEFINITION. The statements for the provers, each from the numbered rules of spec/. Where a docstring names a
decision D<n> or general knowledge, that clause is the spec's own choice and not a rule of its source (log 15). -/

open Sys2Proof Sys2Proof.Machine

/-! ## Encoding -/

/-- Decoding the bytes of an encoded instruction gives the instruction and leaves the bytes that follow, for every
instruction the machine recognises and every operand (30_encoding.md R50 to R56). The numbers are the spec's D39. -/
def Obligations.EncodeThenDecode : Prop :=
  ∀ (ext : Bool) (i : Instr) (rest : List Byte), i.wf ext = true →
    decodeBytes ext (bytesOfWord (encode i) ++ rest) = some (.instr i, rest)

/-- A word decodes to an instruction exactly when its used bits are those of the instruction's word and the machine
recognises the instruction: every other bit is ignored, and no two instructions share a word (30_encoding.md R55, R56). -/
def Obligations.DecodeReadsUsedBitsOnly : Prop :=
  ∀ (ext : Bool) (w : Word) (i : Instr), decode ext w = .instr i ↔ w &&& usedBits i = encode i ∧ i.wf ext = true

/-- With `MIPS1_EXT` false exactly the words of the extension's instructions become reserved; every other word decodes
alike on both machines (48_mips1_extension.md R240; the gate is the spec's D18). -/
def Obligations.ExtensionGate : Prop :=
  ∀ w : Word,
    (∀ i, decode true w = .instr i → i.isExt = true → decode false w = .reserved) ∧
    (∀ i, decode true w = .instr i → i.isExt = false → decode false w = .instr i) ∧
    (decode true w = .reserved → decode false w = .reserved) ∧
    (decode true w = .gte → decode false w = .gte)

/-- Example words of the spec, one or more of each family, decode to the instruction they stand for
(41_alu.md R72, R76; 42_shift.md R86, R91; 43_muldiv.md R95; 44_loadstore.md R105, R112; 45_control.md R120, R124;
46_system.md R131, R134, R135, R136; 48_mips1_extension.md R246, R257, R263). -/
def Obligations.WordsOfTheSpec : Prop :=
  (decode false 0x00221820#32 = .instr (.add 3 1 2) ∧ decode false 0x2022FFFF#32 = .instr (.addi 2 1 0xFFFF#16)) ∧
  (decode false 0x00021900#32 = .instr (.sll 3 2 4) ∧ decode false 0x00221807#32 = .instr (.srav 3 2 1)) ∧
  decode false 0x0022001A#32 = .instr (.div 1 2) ∧
  (decode false 0x8C220100#32 = .instr (.lw 2 1 0x0100#16) ∧ decode false 0xA8220001#32 = .instr (.swl 2 1 0x0001#16)) ∧
  (decode false 0x08000400#32 = .instr (.j 0x400#26) ∧ decode false 0x1422FFFE#32 = .instr (.bne 1 2 0xFFFE#16)) ∧
  (decode false 0x0000000C#32 = .instr .syscall ∧ decode false 0x40826000#32 = .instr (.mtc0 2 12) ∧
    decode false 0x42000018#32 = .instr .eret ∧ decode false 0x42000010#32 = .reserved ∧
    decode false 0x3C080013#32 = .reserved) ∧
  (decode true 0x3C021234#32 = .instr (.lui 2 0x1234#16) ∧ decode true 0x0020F809#32 = .instr (.jalr 31 1) ∧
    decode true 0x04310003#32 = .instr (.bgezal 1 0x0003#16))

/-! ## The step -/

/-- Where the word at an aligned program counter decodes to an instruction, the step is that instruction's meaning and
then stages 4 to 6; the fetched word is the four bytes in big-endian order and the fetch changes nothing, but for the
diagnostic event of a fetch that behaves as unmapped (40_step_sequencer.md R60 to R62; 20_memory.md R31, R40). -/
def Obligations.StepRunsDecodedInstruction : Prop :=
  ∀ (s : State) (i : Instr), s.Executes i →
    (∃ t, exec i s.fetched = .next t ∧ step s = .next (t.finishStep s.pc)) ∧
    s.fetched = { s with diag := s.diag ++ readEvents s s.pc .word } ∧
    (isStorage s.pc → s.fetched = s ∧
      s.fetchWord = wordOfBytes (s.readByte s.pc) (s.readByte (s.pc + 1#32)) (s.readByte (s.pc + 2#32)) (s.readByte (s.pc + 3#32)))

/-- A word that stands for no instruction raises ReservedInstruction, code 10, with EPC its own address, and changes
nothing else before stages 4 to 6 (46_system.md R136). The vector is the spec's D7, the dropped latch its D5 (log 15). -/
def Obligations.ReservedWordRaises : Prop :=
  ∀ s : State, s.pc.toNat % 4 = 0 → decode s.mips1Ext s.fetchWord = .reserved →
    ∃ t, step s = .next (t.finishStep s.pc) ∧ Enters .reservedInstruction 10 s.pc [] s.fetched t

/-- Every step completes, but for a word of the GTE, which is refused (70_reset_and_hazards.md R237; 30_encoding.md R57,
46_system.md R138, the spec's D19): the machine never faults, and every decoded instruction answers a next state. -/
def Obligations.EveryStepCompletesExceptGte : Prop :=
  (∀ (i : Instr) (s : State), ∃ t, exec i s = .next t) ∧
  ∀ s : State,
    ((s.pc.toNat % 4 = 0 ∧ (fieldOp s.fetchWord = 0x12#6 ∨ fieldOp s.fetchWord = 0x32#6 ∨ fieldOp s.fetchWord = 0x3A#6)) →
      step s = .refused (.gteOpcode s.fetchWord)) ∧
    (¬(s.pc.toNat % 4 = 0 ∧ (fieldOp s.fetchWord = 0x12#6 ∨ fieldOp s.fetchWord = 0x32#6 ∨ fieldOp s.fetchWord = 0x3A#6)) →
      ∃ t, step s = .next t)

/-- The PC update: the vector after an exception, EPC after ERET, the latched target after a delay slot, else the next
word; and only a jump or branch arms the latch (40_step_sequencer.md R64, R66; the ERET row is the spec's D22). -/
def Obligations.PcUpdate : Prop :=
  ∀ (i : Instr) (s t : State), exec i s = .next t →
    (t.result ≠ .ok → t.pc = 0x80000080#32 ∧ t.inDelaySlot = false ∧ t.nextPC = s.nextPC) ∧
    (t.result = .ok → i = .eret → t.pc = s.epc ∧ t.inDelaySlot = false ∧ t.nextPC = s.nextPC) ∧
    (t.result = .ok → i ≠ .eret → t.pc = (if s.inDelaySlot then s.nextPC else s.pc + 4#32)) ∧
    (t.inDelaySlot = false → t.nextPC = s.nextPC) ∧
    (t.inDelaySlot = true → IsControl i)

/-- The interrupt poll ends every step: with IE set, EXL clear and an enabled pending line, as they stand after the
instruction and the timers, it enters Interrupt, code 0; otherwise it does nothing (60_exceptions.md R162). -/
def Obligations.InterruptPoll : Prop :=
  ∀ s m : State, execFetched s = .next m →
    ∃ u v, u = m.markStepped.forceZero.tickTimers ∧ step s = .next v ∧
      (u.status.getLsbD 0 = true ∧ u.status.getLsbD 1 = false ∧ LinePending u →
        ∃ epc, Enters .interrupt 0 epc [] u v) ∧
      (¬(u.status.getLsbD 0 = true ∧ u.status.getLsbD 1 = false ∧ LinePending u) → v = u)

/-- Which exception a step reports. An interrupt's EPC is the branch itself where the instruction just executed was a
taken one, else the next instruction to fetch (60_exceptions.md R164; the spec's D5). A synchronous exception wins: it
leaves EXL set, so the poll of its step delivers nothing, and a timer that matches in that step leaves its bit in Cause,
which entry had cleared (60_exceptions.md R157; 40_step_sequencer.md R67, the spec's D6). -/
def Obligations.OneExceptionPerStep : Prop :=
  ∀ s m v : State, execFetched s = .next m → step s = .next v →
    (m.result = .ok → v.result = .ok ∨ v.result = .exception .interrupt) ∧
    (m.result = .ok → v.result = .exception .interrupt →
      v.epc = (if m.inDelaySlot then s.pc else m.pc) ∧ v.pc = 0x80000080#32 ∧ v.inDelaySlot = false) ∧
    (∀ e, m.result = .exception e → v.result = .exception e ∧ v.pc = 0x80000080#32 ∧ v.status.getLsbD 1 = true ∧
      v.epc = s.pc ∧ ∀ i : Fin 3, v.cause.getLsbD (11 + i.val) = m.timers[i].tick.irqPending)

/-! ## Invariants and rules of the whole machine -/

/-- The invariant holds of the reset state (10_state.md R16, R29; 62_gpu.md R217). -/
def Obligations.ResetHasInvariant : Prop := State.Inv State.reset

/-- Every step keeps the invariant: register 0 zero, RAM, BIOS and VRAM in canonical form and range, no timer's
IRQPending left over, the GPU's parser in a state of its own (10_state.md R16; 61_timers.md R186; 62_gpu.md R197 to R203). -/
def Obligations.StepKeepsInvariant : Prop := ∀ s t : State, s.Inv → step s = .next t → t.Inv

/-- So does every host action between steps (00_scope.md R7). -/
def Obligations.HostActionsKeepInvariant : Prop :=
  ∀ (a : HostAction) (s t : State), s.Inv → hostAct a s = .next t → t.Inv

/-- Register 0 is zero after every step, from any state, and reads as zero in any state, regardless of writes
(10_state.md R16). -/
def Obligations.RegisterZero : Prop :=
  (∀ s t : State, step s = .next t → t.regs[0] = 0#32 ∧ t.readReg 0 = 0#32) ∧
  (∀ (s : State) (v : Word), s.readReg 0 = 0#32 ∧ (s.writeReg 0 v) = s) ∧
  (∀ (i : Instr) (s t : State), exec i s = .next t → t.readReg 0 = 0#32)

/-- No step changes the BIOS image or the configuration, every step is marked as taken, so that no image is supplied
after it, and the output streams only grow (00_scope.md R7, R10; 20_memory.md R34, R36, R39; 62_gpu.md R214;
48_mips1_extension.md R240). The fields for MIPS1_EXT, the mark and the streams are the model's own (logs 1, 8 and 4). -/
def Obligations.BiosAndConfigNeverChange : Prop :=
  ∀ s t : State, step s = .next t →
    t.bios = s.bios ∧ t.mips1Ext = s.mips1Ext ∧ t.stepped = true ∧ (∃ ds, t.diag = s.diag ++ ds) ∧ (∃ es, t.render = s.render ++ es)

/-- Only a store whose address resolves to RAM changes RAM, and only a word store to a port changes the GPU
(20_memory.md R37, R45; 62_gpu.md R196, R211). -/
def Obligations.StorageChangesOnlyByStores : Prop :=
  ∀ s t : State, step s = .next t →
    (t.ram ≠ s.ram → ∃ i a o, s.Executes i ∧ storeAddress s i = some a ∧ region a = .ram o) ∧
    (t.gpu ≠ s.gpu → ∃ i a, s.Executes i ∧ storeAddress s i = some a ∧ (a = 0x1F801810#32 ∨ a = 0x1F801814#32) ∧
      ∃ rt base offset, i = .sw rt base offset ∨ i = .swl rt base offset ∨ i = .swr rt base offset)

/-- EXL is cleared by ERET or by an MTC0 to Status and by nothing else: until then no interrupt is delivered
(10_state.md R22; 60_exceptions.md R166, R170). -/
def Obligations.ExlClearedOnlyByEretOrMtc0 : Prop :=
  ∀ s t : State, s.status.getLsbD 1 = true → step s = .next t →
    (t.status.getLsbD 1 = false → s.Executes .eret ∨
      ∃ rt, s.Executes (.mtc0 rt 12) ∧ (s.readReg rt).getLsbD 1 = false) ∧
    (¬s.Executes .eret → (∀ rt, ¬s.Executes (.mtc0 rt 12)) → t.result ≠ .exception .interrupt)

/-- The program counter and a pending target stay word-aligned, but for ERET, JR and JALR, whose targets are taken as
they are (45_control.md R125; 48_mips1_extension.md R256). -/
def Obligations.PcStaysAligned : Prop :=
  ∀ s t : State, s.pc.toNat % 4 = 0 → (s.inDelaySlot = true → s.nextPC.toNat % 4 = 0) → step s = .next t →
    ¬s.Executes .eret → (∀ rs, ¬s.Executes (.jr rs)) → (∀ rd rs, ¬s.Executes (.jalr rd rs)) →
      t.pc.toNat % 4 = 0 ∧ (t.inDelaySlot = true → t.nextPC.toNat % 4 = 0)

/-! ## Arithmetic, logic, compare -/

/-- The overflow rule of ADD, ADDI and SUB, by the signs, and that it holds exactly when the true sum or difference lies
outside the signed range; on overflow IntegerOverflow, code 12, and the destination not written (41_alu.md R71). The
vector is the spec's D7, the dropped latch its D5 (log 15). -/
def Obligations.OverflowRule : Prop :=
  ∀ (s : State) (rd rs rt : Reg) (imm : BitVec 16),
    let a := s.readReg rs
    let b := s.readReg rt
    let c := BitVec.ofInt 32 imm.toInt
    (a.getLsbD 31 = b.getLsbD 31 → (a + b).getLsbD 31 ≠ a.getLsbD 31 → Raises (.add rd rs rt) s .integerOverflow 12) ∧
    (a.getLsbD 31 = c.getLsbD 31 → (a + c).getLsbD 31 ≠ a.getLsbD 31 → Raises (.addi rd rs imm) s .integerOverflow 12) ∧
    (a.getLsbD 31 ≠ b.getLsbD 31 → (a - b).getLsbD 31 ≠ a.getLsbD 31 → Raises (.sub rd rs rt) s .integerOverflow 12) ∧
    (OutOfRange (a.toInt + b.toInt) ↔ a.getLsbD 31 = b.getLsbD 31 ∧ (a + b).getLsbD 31 ≠ a.getLsbD 31) ∧
    (OutOfRange (a.toInt + c.toInt) ↔ a.getLsbD 31 = c.getLsbD 31 ∧ (a + c).getLsbD 31 ≠ a.getLsbD 31) ∧
    (OutOfRange (a.toInt - b.toInt) ↔ a.getLsbD 31 ≠ b.getLsbD 31 ∧ (a - b).getLsbD 31 ≠ a.getLsbD 31)

/-- Where the true result is in range, ADD, ADDI and SUB write it and change nothing else (41_alu.md R70, R72, R74, R76). -/
def Obligations.AddSubResults : Prop :=
  ∀ (s : State) (rd rs rt : Reg) (imm : BitVec 16),
    (¬OutOfRange ((s.readReg rs).toInt + (s.readReg rt).toInt) →
      ∃ v, v.toInt = (s.readReg rs).toInt + (s.readReg rt).toInt ∧ WritesTo (.add rd rs rt) s rd v) ∧
    (¬OutOfRange ((s.readReg rs).toInt + imm.toInt) →
      ∃ v, v.toInt = (s.readReg rs).toInt + imm.toInt ∧ WritesTo (.addi rd rs imm) s rd v) ∧
    (¬OutOfRange ((s.readReg rs).toInt - (s.readReg rt).toInt) →
      ∃ v, v.toInt = (s.readReg rs).toInt - (s.readReg rt).toInt ∧ WritesTo (.sub rd rs rt) s rd v)

/-- ADDU, SUBU and ADDIU write the sum or difference modulo 2^32 and never raise (41_alu.md R73, R75;
48_mips1_extension.md R241; the meanings are general knowledge G9, G10). -/
def Obligations.ModularArithmetic : Prop :=
  ∀ (s : State) (rd rs rt : Reg) (imm : BitVec 16),
    (∃ v, v.toNat = ((s.readReg rs).toNat + (s.readReg rt).toNat) % 2 ^ 32 ∧ WritesTo (.addu rd rs rt) s rd v) ∧
    (∃ v, (v.toNat : Int) = ((s.readReg rs).toNat - (s.readReg rt).toNat : Int) % 2 ^ 32 ∧ WritesTo (.subu rd rs rt) s rd v) ∧
    (∃ v, (v.toNat : Int) = ((s.readReg rs).toNat + imm.toInt : Int) % 2 ^ 32 ∧ WritesTo (.addiu rd rs imm) s rd v)

/-- The logical instructions, bit by bit, the immediate zero-extended, LUI's shifted left by 16 (41_alu.md R77 to R80;
48_mips1_extension.md R243 to R246; the meanings are general knowledge G9, G10). -/
def Obligations.BitwiseLogic : Prop :=
  ∀ (s : State) (rd rs rt : Reg) (imm : BitVec 16),
    let a := s.readReg rs
    let b := s.readReg rt
    (∃ v, (∀ j, j < 32 → v.getLsbD j = (a.getLsbD j && b.getLsbD j)) ∧ WritesTo (.and rd rs rt) s rd v) ∧
    (∃ v, (∀ j, j < 32 → v.getLsbD j = (a.getLsbD j || b.getLsbD j)) ∧ WritesTo (.or rd rs rt) s rd v) ∧
    (∃ v, (∀ j, j < 32 → v.getLsbD j = (a.getLsbD j != b.getLsbD j)) ∧ WritesTo (.xor rd rs rt) s rd v) ∧
    (∃ v, (∀ j, j < 32 → v.getLsbD j = !(a.getLsbD j || b.getLsbD j)) ∧ WritesTo (.nor rd rs rt) s rd v) ∧
    (∃ v, (∀ j, j < 32 → v.getLsbD j = (a.getLsbD j && decide (j < 16) && imm.getLsbD j)) ∧ WritesTo (.andi rd rs imm) s rd v) ∧
    (∃ v, (∀ j, j < 32 → v.getLsbD j = (a.getLsbD j || decide (j < 16) && imm.getLsbD j)) ∧ WritesTo (.ori rd rs imm) s rd v) ∧
    (∃ v, (∀ j, j < 32 → v.getLsbD j = (a.getLsbD j != (decide (j < 16) && imm.getLsbD j))) ∧ WritesTo (.xori rd rs imm) s rd v) ∧
    (∃ v, (∀ j, j < 32 → v.getLsbD j = (decide (16 ≤ j) && imm.getLsbD (j - 16))) ∧ WritesTo (.lui rd imm) s rd v)

/-- The comparisons write 1 or 0: SLT and SLTI of the signed values, SLTU and SLTIU of the unsigned ones, the immediate
sign-extended first (41_alu.md R81, R82; 48_mips1_extension.md R242, R247; general knowledge G3, G10). -/
def Obligations.Comparisons : Prop :=
  ∀ (s : State) (rd rs rt : Reg) (imm : BitVec 16),
    WritesTo (.slt rd rs rt) s rd (if (s.readReg rs).toInt < (s.readReg rt).toInt then 1#32 else 0#32) ∧
    WritesTo (.slti rd rs imm) s rd (if (s.readReg rs).toInt < imm.toInt then 1#32 else 0#32) ∧
    WritesTo (.sltu rd rs rt) s rd (if (s.readReg rs).toNat < (s.readReg rt).toNat then 1#32 else 0#32) ∧
    WritesTo (.sltiu rd rs imm) s rd
      (if ((s.readReg rs).toNat : Int) < (if imm.toInt < 0 then imm.toInt + 2 ^ 32 else imm.toInt) then 1#32 else 0#32)

/-! ## Shifts -/

/-- The six shifts, bit by bit, by the field or by the low five bits of `rs` (42_shift.md R85 to R91; general
knowledge G4). -/
def Obligations.Shifts : Prop :=
  ∀ (s : State) (rd rs rt : Reg) (sa : Fin 32),
    let a := s.readReg rt
    let n := (s.readReg rs).toNat % 32
    let left := fun (k : Nat) (v : Word) => ∀ j, j < 32 → v.getLsbD j = (decide (k ≤ j) && a.getLsbD (j - k))
    let right := fun (k : Nat) (v : Word) => ∀ j, j < 32 → v.getLsbD j = (decide (j + k < 32) && a.getLsbD (j + k))
    let arith := fun (k : Nat) (v : Word) => ∀ j, j < 32 → v.getLsbD j = a.getLsbD (min (j + k) 31)
    (∃ v, left sa.val v ∧ WritesTo (.sll rd rt sa) s rd v) ∧
    (∃ v, right sa.val v ∧ WritesTo (.srl rd rt sa) s rd v) ∧
    (∃ v, arith sa.val v ∧ v.toInt = a.toInt / 2 ^ sa.val ∧ WritesTo (.sra rd rt sa) s rd v) ∧
    (∃ v, left n v ∧ WritesTo (.sllv rd rt rs) s rd v) ∧
    (∃ v, right n v ∧ WritesTo (.srlv rd rt rs) s rd v) ∧
    (∃ v, arith n v ∧ v.toInt = a.toInt / 2 ^ n ∧ WritesTo (.srav rd rt rs) s rd v)

/-! ## Multiply and divide -/

/-- MULT and MULTU: HI and LO together hold the exact product, signed and unsigned (43_muldiv.md R94;
48_mips1_extension.md R248; the high word to HI is general knowledge G6). -/
def Obligations.MultiplyResults : Prop :=
  ∀ (s : State) (rs rt : Reg),
    (∃ h l : Word, (h ++ l : BitVec 64).toInt = (s.readReg rs).toInt * (s.readReg rt).toInt ∧ SetsHiLo (.mult rs rt) s h l) ∧
    (∃ h l : Word, (h ++ l : BitVec 64).toNat = (s.readReg rs).toNat * (s.readReg rt).toNat ∧ SetsHiLo (.multu rs rt) s h l)

/-- DIV with a divisor other than zero: quotient toward zero to LO, remainder with the dividend's sign to HI, and the one
quotient that does not fit (43_muldiv.md R95, R97; rounding and corner are the spec's D16). -/
def Obligations.DivideSigned : Prop :=
  ∀ (s : State) (rs rt : Reg), s.readReg rt ≠ 0#32 →
    (¬(s.readReg rs = 0x80000000#32 ∧ s.readReg rt = 0xFFFFFFFF#32) →
      ∃ h l : Word, SetsHiLo (.div rs rt) s h l ∧
        (s.readReg rs).toInt = l.toInt * (s.readReg rt).toInt + h.toInt ∧
        |h.toInt| < |(s.readReg rt).toInt| ∧
        (h.toInt = 0 ∨ (h.toInt < 0 ↔ (s.readReg rs).toInt < 0))) ∧
    (s.readReg rs = 0x80000000#32 → s.readReg rt = 0xFFFFFFFF#32 → SetsHiLo (.div rs rt) s 0#32 0x80000000#32)

/-- DIV by zero leaves HI and LO, raises nothing, emits `DivideByZero` with its address, and goes on (43_muldiv.md R96). -/
def Obligations.DivideByZero : Prop :=
  ∀ (s : State) (rs rt : Reg), s.readReg rt = 0#32 →
    ∃ t, exec (.div rs rt) s = .next t ∧ SameHiLo s t ∧ t.diag = s.diag ++ [.divideByZero s.pc] ∧
      t.render = s.render ∧ SameRegs [] s t ∧ SameCop0 [] s t ∧ SameMemory s t ∧ SameDevices s t ∧ SameConfig s t ∧ GoesOn s t

/-- DIVU: floor quotient to LO and remainder to HI; by zero as DIV (48_mips1_extension.md R249, R250; general
knowledge G10, the spec's D18). -/
def Obligations.DivideUnsigned : Prop :=
  ∀ (s : State) (rs rt : Reg),
    (s.readReg rt ≠ 0#32 → ∃ h l : Word, SetsHiLo (.divu rs rt) s h l ∧
      (s.readReg rs).toNat = l.toNat * (s.readReg rt).toNat + h.toNat ∧ h.toNat < (s.readReg rt).toNat) ∧
    (s.readReg rt = 0#32 → ∃ t, exec (.divu rs rt) s = .next t ∧ SameHiLo s t ∧
      t.diag = s.diag ++ [.divideByZero s.pc] ∧ t.render = s.render ∧ SameRegs [] s t ∧ SameCop0 [] s t ∧
      SameMemory s t ∧ SameDevices s t ∧ SameConfig s t ∧ GoesOn s t)

/-- The four moves between a general register and HI or LO (48_mips1_extension.md R251 to R255; general knowledge G10). -/
def Obligations.HiLoMoves : Prop :=
  ∀ (s : State) (r : Reg),
    WritesTo (.mfhi r) s r s.hi ∧ WritesTo (.mflo r) s r s.lo ∧
    SetsHiLo (.mthi r) s (s.readReg r) s.lo ∧ SetsHiLo (.mtlo r) s s.hi (s.readReg r)

/-! ## Memory -/

/-- The address decoder: which addresses are RAM, BIOS, timer registers and ports, and that all others are unmapped
(20_memory.md R30, R33 to R35, R43; the constants are the spec's D8, D9, D11). -/
def Obligations.AddressMap : Prop :=
  ∀ a : Word,
    (∀ o, region a = .ram o ↔ a.toNat % 0x20000000 = o ∧ o < 0x200000) ∧
    (∀ o, region a = .bios o ↔ a.toNat = 0xBFC00000 + o ∧ o < 0x80000) ∧
    (∀ (i : Fin 3) f, region a = .timer i f ↔ a.toNat = 0x1F801100 + 0x30 * i.val + f ∧ f < 0x30) ∧
    (region a = .gp0 ↔ a = 0x1F801810#32) ∧ (region a = .gp1 ↔ a = 0x1F801814#32) ∧
    (region a = .unmapped ↔ 0x200000 ≤ a.toNat % 0x20000000 ∧ ¬(0xBFC00000 ≤ a.toNat ∧ a.toNat < 0xBFC80000) ∧
      ¬(0x1F801100 ≤ a.toNat ∧ a.toNat < 0x1F801190) ∧ a ≠ 0x1F801810#32 ∧ a ≠ 0x1F801814#32)

/-- Big-endian reads and writes: a word or halfword read is its bytes, the most significant at the lowest address, in RAM
and BIOS, and a fetch is such a read; a write to RAM stores them in that order and leaves every other byte
(20_memory.md R40). -/
def Obligations.BigEndian : Prop :=
  ∀ (s : State) (a v : Word),
    s.fetchWord = s.memRead s.pc .word ∧
    (isStorage a → a.toNat % 4 = 0 → s.memRead a .word =
      wordOfBytes (s.readByte a) (s.readByte (a + 1#32)) (s.readByte (a + 2#32)) (s.readByte (a + 3#32))) ∧
    (isStorage a → a.toNat % 2 = 0 → s.memRead a .half = (s.readByte a ++ s.readByte (a + 1#32)).setWidth 32) ∧
    (s.memRead a .byte = (s.readByte a).setWidth 32) ∧
    (∀ o, region a = .ram o → Memory.wf Config.ramSize s.ram = true →
      (a.toNat % 4 = 0 → ∀ b, (s.memWrite a .word v).readByte b =
        if region b = .ram o then v.extractLsb' 24 8 else if region b = .ram (o + 1) then v.extractLsb' 16 8
        else if region b = .ram (o + 2) then v.extractLsb' 8 8 else if region b = .ram (o + 3) then v.extractLsb' 0 8
        else s.readByte b) ∧
      (a.toNat % 2 = 0 → ∀ b, (s.memWrite a .half v).readByte b =
        if region b = .ram o then v.extractLsb' 8 8 else if region b = .ram (o + 1) then v.extractLsb' 0 8
        else s.readByte b) ∧
      (∀ b, (s.memWrite a .byte v).readByte b = if region b = .ram o then v.extractLsb' 0 8 else s.readByte b))

/-- The aligned loads, in every region: the value the bus reads, extended as the mnemonic says, and for RAM and BIOS
that value byte by byte (44_loadstore.md R101 to R105; 20_memory.md R31; the address is general knowledge G2). -/
def Obligations.LoadResults : Prop :=
  ∀ (s : State) (rt base : Reg) (offset : BitVec 16),
    let a := s.readReg base + BitVec.ofInt 32 offset.toInt
    LoadsTo (.lb rt base offset) s rt ((s.readByte a).signExtend 32) a .byte ∧
    LoadsTo (.lbu rt base offset) s rt ((s.readByte a).setWidth 32) a .byte ∧
    (a.toNat % 2 = 0 → LoadsTo (.lh rt base offset) s rt (((s.memRead a .half).setWidth 16).signExtend 32) a .half ∧
      LoadsTo (.lhu rt base offset) s rt (s.memRead a .half) a .half) ∧
    (a.toNat % 4 = 0 → LoadsTo (.lw rt base offset) s rt (s.memRead a .word) a .word) ∧
    (isStorage a → a.toNat % 2 = 0 →
      LoadsTo (.lh rt base offset) s rt ((s.readByte a ++ s.readByte (a + 1#32)).signExtend 32) a .half)

/-- A misaligned LH, LHU, LW, SH or SW performs no access and raises AddressErrorLoad or AddressErrorStore with the
address in BadVAddr; so does a misaligned program counter at fetch, with EPC the program counter, and stages 4 to 6
follow (20_memory.md R41; 40_step_sequencer.md R60, R61, R67). The vector is the spec's D7, the dropped latch its D5,
the stages after a raise D6, BadVAddr D14, the fetch D15, the address general knowledge G2 (log 15). -/
def Obligations.MisalignedAccessRaises : Prop :=
  ∀ (s : State) (rt base : Reg) (offset : BitVec 16),
    let a := s.readReg base + BitVec.ofInt 32 offset.toInt
    (a.toNat % 2 ≠ 0 → RaisesAddress (.lh rt base offset) s .addressErrorLoad 4 a ∧
      RaisesAddress (.lhu rt base offset) s .addressErrorLoad 4 a ∧
      RaisesAddress (.sh rt base offset) s .addressErrorStore 5 a) ∧
    (a.toNat % 4 ≠ 0 → RaisesAddress (.lw rt base offset) s .addressErrorLoad 4 a ∧
      RaisesAddress (.sw rt base offset) s .addressErrorStore 5 a) ∧
    (s.pc.toNat % 4 ≠ 0 → ∃ t, step s = .next (t.finishStep s.pc) ∧ t.badVAddr = s.pc ∧
      Enters .addressErrorLoad 4 s.pc [8] s t)

/-- LWL and LWR, byte lane by byte lane, lane 0 the most significant: LWL takes the bytes from the address to the end of
its word, LWR those from the start of the word to the address; the register keeps the rest (44_loadstore.md R109 to R111;
the tables are the spec's D17). -/
def Obligations.UnalignedLoads : Prop :=
  ∀ (s : State) (rt base : Reg) (offset : BitVec 16),
    let a := s.readReg base + BitVec.ofInt 32 offset.toInt
    let b := a.toNat % 4
    let wa := a - BitVec.ofNat 32 b
    let m := s.memRead wa .word
    let g := s.readReg rt
    (∃ v, (∀ j, j < 4 → byteLane v j = if j + b < 4 then byteLane m (j + b) else byteLane g j) ∧
      LoadsTo (.lwl rt base offset) s rt v wa .word) ∧
    (∃ v, (∀ j, j < 4 → byteLane v j = if 3 ≤ j + b then byteLane m (j + b - 3) else byteLane g j) ∧
      LoadsTo (.lwr rt base offset) s rt v wa .word)

/-- The pairs at `A` and `A + 3`, aligned or not, in either order: LWL with LWR loads the big-endian word at `A`, and
SWL with SWR stores the register there as a big-endian word and leaves every other byte (44_loadstore.md R114; the
tables are the spec's D17, the address is general knowledge G2). -/
def Obligations.UnalignedPairs : Prop :=
  ∀ (s t : State) (rt base base' : Reg) (offset offset' : BitVec 16),
    let a := s.ea base offset
    let w := wordOfBytes (s.readByte a) (s.readByte (a + 1#32)) (s.readByte (a + 2#32)) (s.readByte (a + 3#32))
    let stored := fun u : State => (∀ k, k < 4 → u.readByte (a + BitVec.ofNat 32 k) = byteLane (s.readReg rt) k) ∧
      ∀ b, (∀ k, k < 4 → region b ≠ region (a + BitVec.ofNat 32 k)) → u.readByte b = s.readByte b
    (rt ≠ 0 → (∀ k, k < 4 → isStorage (a + BitVec.ofNat 32 k)) →
      (exec (.lwl rt base offset) s = .next t → t.ea base' offset' = a + 3#32 →
        ∃ u, exec (.lwr rt base' offset') t = .next u ∧ u.readReg rt = w) ∧
      (exec (.lwr rt base' offset') s = .next t → s.ea base' offset' = a + 3#32 → t.ea base offset = a →
        ∃ u, exec (.lwl rt base offset) t = .next u ∧ u.readReg rt = w)) ∧
    (Memory.wf Config.ramSize s.ram = true → (∀ k, k < 4 → ∃ o, region (a + BitVec.ofNat 32 k) = .ram o) →
      s.ea base' offset' = a + 3#32 →
      (exec (.swl rt base offset) s = .next t → ∃ u, exec (.swr rt base' offset') t = .next u ∧ stored u) ∧
      (exec (.swr rt base' offset') s = .next t → ∃ u, exec (.swl rt base offset) t = .next u ∧ stored u))

/-- SB, SH and SW to RAM store the low bytes of the register, most significant first, and change nothing else
(44_loadstore.md R106 to R108; 20_memory.md R32, R40; the address is general knowledge G2). -/
def Obligations.RamStores : Prop :=
  ∀ (s : State) (rt base : Reg) (offset : BitVec 16) (o : Nat), Memory.wf Config.ramSize s.ram = true →
    let a := s.readReg base + BitVec.ofInt 32 offset.toInt
    region a = .ram o →
    StoresTo (.sb rt base offset) s a 1 (fun _ => byteLane (s.readReg rt) 3) ∧
    (a.toNat % 2 = 0 → StoresTo (.sh rt base offset) s a 2 (fun k => byteLane (s.readReg rt) (2 + k))) ∧
    (a.toNat % 4 = 0 → StoresTo (.sw rt base offset) s a 4 (fun k => byteLane (s.readReg rt) k))

/-- SWL and SWR to RAM: SWL stores the register's most significant bytes from the address to the end of its word, SWR
its least significant bytes from the start of the word to the address; every other byte stays (44_loadstore.md R109,
R112, R113; the tables are the spec's D17). -/
def Obligations.UnalignedStores : Prop :=
  ∀ (s : State) (rt base : Reg) (offset : BitVec 16) (o : Nat), Memory.wf Config.ramSize s.ram = true →
    let a := s.readReg base + BitVec.ofInt 32 offset.toInt
    let b := a.toNat % 4
    region a = .ram o →
    StoresTo (.swl rt base offset) s a (4 - b) (fun k => byteLane (s.readReg rt) k) ∧
    StoresTo (.swr rt base offset) s (a - BitVec.ofNat 32 b) (b + 1) (fun k => byteLane (s.readReg rt) (3 - b + k))

/-- Each store is one write of the bus at its address, after the read of the merging ones, so what it does to a timer
register or a port is what the bus write does (44_loadstore.md R106 to R109, R112, R113; 20_memory.md R37;
61_timers.md R182). The merge tables are the spec's D17, from general knowledge G7, the address is G2 (log 15). -/
def Obligations.StoresGoThroughTheBus : Prop :=
  ∀ (s : State) (rt base : Reg) (offset : BitVec 16),
    let a := s.ea base offset
    exec (.sb rt base offset) s = .next (s.memWrite a .byte (s.readReg rt)).advance ∧
    (a.toNat % 2 = 0 → exec (.sh rt base offset) s = .next (s.memWrite a .half (s.readReg rt)).advance) ∧
    (a.toNat % 4 = 0 → exec (.sw rt base offset) s = .next (s.memWrite a .word (s.readReg rt)).advance) ∧
    (∃ x, exec (.swl rt base offset) s = .next ((s.noteRead (alignedWord a) .word).memWrite (alignedWord a) .word x).advance ∧
      ∀ j, j < 4 → byteLane x j = if j < a.toNat % 4 then byteLane (s.memRead (alignedWord a) .word) j
        else byteLane (s.readReg rt) (j - a.toNat % 4)) ∧
    (∃ x, exec (.swr rt base offset) s = .next ((s.noteRead (alignedWord a) .word).memWrite (alignedWord a) .word x).advance ∧
      ∀ j, j < 4 → byteLane x j = if j ≤ a.toNat % 4 then byteLane (s.readReg rt) (j + 3 - a.toNat % 4)
        else byteLane (s.memRead (alignedWord a) .word) j)

/-- The timer registers on the bus, and that every other access to their window behaves as unmapped (61_timers.md R182;
the spec's D10, D9). -/
def Obligations.TimerRegisters : Prop :=
  ∀ (s : State) (a v : Word) (i : Fin 3) (f : Nat) (n : Width), region a = .timer i f →
    (f = 0 → n ≠ .byte → s.memRead a n = (s.timers[i].counter).setWidth 32 ∧ s.noteRead a n = s ∧
      s.memWrite a n v = { s with timers := s.timers.set i { s.timers[i] with counter := v.setWidth 16 } }) ∧
    (f = 4 → n ≠ .byte → s.memRead a n = (s.timers[i].mode).setWidth 32 ∧ s.noteRead a n = s ∧
      s.memWrite a n v = { s with timers := s.timers.set i { s.timers[i] with mode := v.setWidth 14 } }) ∧
    (f = 8 → n ≠ .byte → s.memRead a n = (s.timers[i].target).setWidth 32 ∧ s.noteRead a n = s ∧
      s.memWrite a n v = { s with timers := s.timers.set i { s.timers[i] with target := v.setWidth 16 } }) ∧
    ((f ≠ 0 ∧ f ≠ 4 ∧ f ≠ 8) ∨ n = .byte → s.memRead a n = 0#32 ∧
      s.noteRead a n = { s with diag := s.diag ++ [.unmappedRead a n.bytes] } ∧
      ∃ x, s.memWrite a n v = { s with diag := s.diag ++ [.unmappedWrite a n.bytes x] })

/-- The bus outside RAM and the timer registers: a port or an unmapped address reads 0 with an event; a word written to a
port drives the GPU; a write to the BIOS, an unmapped address or, narrower than a word, a port changes nothing but the
event stream, and raises nothing (20_memory.md R31, R32, R34, R37 to R39; the ports are the spec's D11, the policy its
D21; that the event carries the low `8n` bits of the value is log 11). -/
def Obligations.BusOutsideRam : Prop :=
  ∀ (s : State) (a v : Word) (n : Width),
    (region a = .gp0 ∨ region a = .gp1 ∨ region a = .unmapped → s.memRead a n = 0#32 ∧
      s.noteRead a n = { s with diag := s.diag ++ [.unmappedRead a n.bytes] }) ∧
    (region a = .gp0 → s.memWrite a .word v = s.gpuWriteCommand v) ∧
    (region a = .gp1 → s.memWrite a .word v = s.gpuWriteControl v) ∧
    (region a = .unmapped ∨ (region a = .gp0 ∨ region a = .gp1) ∧ n ≠ .word →
      ∃ x, (∀ j, j < 32 → x.getLsbD j = (decide (j < 8 * n.bytes) && v.getLsbD j)) ∧
        s.memWrite a n v = { s with diag := s.diag ++ [.unmappedWrite a n.bytes x] }) ∧
    (∀ o, region a = .bios o → s.noteRead a n = s ∧
      ∃ x, (∀ j, j < 32 → x.getLsbD j = (decide (j < 8 * n.bytes) && v.getLsbD j)) ∧
        s.memWrite a n v = { s with diag := s.diag ++ [.biosWriteRejected a n.bytes x] })

/-- A word stored through one RAM alias is loaded through every other, the next step included (20_memory.md R33, R48). -/
def Obligations.StoreThenLoadThroughAlias : Prop :=
  ∀ (s t : State) (rt base rt' base' : Reg) (offset offset' : BitVec 16) (o : Nat),
    Memory.wf Config.ramSize s.ram = true → region (s.ea base offset) = .ram o → o % 4 = 0 →
    exec (.sw rt base offset) s = .next t →
      (t.ea base' offset' |>.toNat) % 0x20000000 = o →
        LoadsTo (.lw rt' base' offset') t rt' (s.readReg rt) (t.ea base' offset') .word

/-! ## Control transfers -/

/-- J, JAL, JR and JALR: the target waits for the delay slot; JAL links through register 31, JALR through `rd`, past the
delay slot (45_control.md R120, R121; 48_mips1_extension.md R256, R257; the region is the spec's D3). -/
def Obligations.Jumps : Prop :=
  ∀ (s : State) (target : BitVec 26) (rd rs : Reg),
    let t := BitVec.ofNat 32 (s.pc.toNat / 2 ^ 28 * 2 ^ 28 + target.toNat * 4)
    Transfers (.j target) s [] True t ∧ Transfers (.jal target) s [31] True t ∧
    Transfers (.jr rs) s [] True (s.readReg rs) ∧ Transfers (.jalr rd rs) s [rd] True (s.readReg rs)

/-- BEQ and BNE, and the six compare-with-zero branches; the target is counted from the branch's own address
(45_control.md R122 to R124; 48_mips1_extension.md R258 to R263). The base is the spec's D2, and the six branches of the
extension are general knowledge G10 (log 15). -/
def Obligations.Branches : Prop :=
  ∀ (s : State) (rs rt : Reg) (imm : BitVec 16),
    let t := s.pc + BitVec.ofInt 32 (4 * imm.toInt)
    let v := (s.readReg rs).toInt
    Transfers (.beq rs rt imm) s [] (s.readReg rs = s.readReg rt) t ∧
    Transfers (.bne rs rt imm) s [] (s.readReg rs ≠ s.readReg rt) t ∧
    Transfers (.blez rs imm) s [] (v ≤ 0) t ∧ Transfers (.bgtz rs imm) s [] (0 < v) t ∧
    Transfers (.bltz rs imm) s [] (v < 0) t ∧ Transfers (.bgez rs imm) s [] (0 ≤ v) t ∧
    Transfers (.bltzal rs imm) s [31] (v < 0) t ∧ Transfers (.bgezal rs imm) s [31] (0 ≤ v) t

/-! ## System instructions and exceptions -/

/-- SYSCALL takes exception 8 and BREAK exception 9, with EPC their own address, and change nothing else
(46_system.md R131, R132; 60_exceptions.md R151). -/
def Obligations.SyscallAndBreak : Prop :=
  ∀ s : State, Raises .syscall s .syscall 8 ∧ Raises .brk s .brk 9

/-- MFC0 reads and MTC0 writes any COP0 slot whole, whatever Status holds (46_system.md R130, R133, R134; 10_state.md R21;
the access rights are the spec's D13). -/
def Obligations.Cop0Moves : Prop :=
  ∀ (s : State) (rt : Reg) (n : Slot),
    WritesTo (.mfc0 rt n) s rt (s.readC0 n) ∧ SetsCop0 (.mtc0 rt n) s n (s.readReg rt) GoesOn

/-- ERET clears EXL, goes to EPC without a delay slot, drops a pending target and changes nothing else
(46_system.md R135; 60_exceptions.md R166; 40_step_sequencer.md R66, the spec's D22). -/
def Obligations.EretReturns : Prop :=
  ∀ s : State, ∃ v, (∀ j, j < 32 → v.getLsbD j = (decide (j ≠ 1) && s.status.getLsbD j)) ∧
    SetsCop0 .eret s 12 v (fun s t => t.pc = s.epc ∧ t.nextPC = s.nextPC ∧ t.inDelaySlot = false ∧ t.result = .ok)

/-- Exception entry for every exception of the taxonomy: EPC, Cause, EXL, BadVAddr for the address errors only, the
vector, the latch dropped, the result; nothing else, and the same whether or not EXL was set (60_exceptions.md R150 to
R156, R167; the vector is the spec's D7, the latch D5, BadVAddr D14). -/
def Obligations.ExceptionEntry : Prop :=
  ∀ (s : State) (epc bad : Word),
    Enters .interrupt 0 epc [] s (s.enter .interrupt epc bad) ∧
    Enters .addressErrorLoad 4 epc [8] s (s.enter .addressErrorLoad epc bad) ∧
    (s.enter .addressErrorLoad epc bad).badVAddr = bad ∧
    Enters .addressErrorStore 5 epc [8] s (s.enter .addressErrorStore epc bad) ∧
    (s.enter .addressErrorStore epc bad).badVAddr = bad ∧
    Enters .syscall 8 epc [] s (s.enter .syscall epc bad) ∧
    Enters .brk 9 epc [] s (s.enter .brk epc bad) ∧
    Enters .reservedInstruction 10 epc [] s (s.enter .reservedInstruction epc bad) ∧
    Enters .integerOverflow 12 epc [] s (s.enter .integerOverflow epc bad)

/-- `SetIRQ` writes one bit of Cause and nothing else (60_exceptions.md R160). -/
def Obligations.SetIrqWritesOneBit : Prop :=
  ∀ (s : State) (line : Fin 8) (b : Bool), ∃ t, hostAct (.setIRQ line b) s = .next t ∧
    (∀ j, j < 32 → t.cause.getLsbD j = if j = 8 + line.val then b else s.cause.getLsbD j) ∧
    t = { s with c0 := t.c0 } ∧ SameCop0 [13] s t

/-! ## Timers -/

/-- Every step ticks every timer once, whatever it executed: the counter goes up by one modulo 2^16; where it reaches the
target, ResetOnTarget makes it 0 and IRQEnabled sets IRQPending; in the same stage a pending flag becomes line `i + 3` and
is cleared; no other bit of Cause, and nothing else, is touched (61_timers.md R185, R186). -/
def Obligations.TimersTickAndAssert : Prop :=
  (∀ s m v : State, execFetched s = .next m → step s = .next v → v.timers = m.tickTimers.timers) ∧
  ∀ s : State,
    (∀ i : Fin 3,
      let c := s.timers[i].counter + 1#16
      let t := s.tickTimers.timers[i]
      t.target = s.timers[i].target ∧ t.mode = s.timers[i].mode ∧ t.irqPending = false ∧
      (c ≠ s.timers[i].target → t.counter = c ∧
        s.tickTimers.cause.getLsbD (11 + i.val) = (s.cause.getLsbD (11 + i.val) || s.timers[i].irqPending)) ∧
      (c = s.timers[i].target → t.counter = (if s.timers[i].mode.getLsbD 4 then 0#16 else c) ∧
        s.tickTimers.cause.getLsbD (11 + i.val) =
          (s.cause.getLsbD (11 + i.val) || s.timers[i].irqPending || s.timers[i].mode.getLsbD 10))) ∧
    (∀ j, j < 32 → j < 11 ∨ 14 ≤ j → s.tickTimers.cause.getLsbD j = s.cause.getLsbD j) ∧
    SameCop0 [13] s s.tickTimers ∧
    s.tickTimers = { s with timers := s.tickTimers.timers, c0 := s.tickTimers.c0 }

/-- With ResetOnTarget and a target T of at least 1, a counter below T runs through 0 to T - 1 for ever and matches
once every T ticks (61_timers.md R187, item 1). -/
def Obligations.TimerPeriod : Prop :=
  ∀ (t : Timer) (n : Nat), t.mode.getLsbD 4 = true → t.mode.getLsbD 10 = true → t.irqPending = false →
    t.counter.toNat < t.target.toNat →
    let next := fun (t : Timer) => { t.tick with irqPending := false }
    (next^[n] t).counter.toNat = (t.counter.toNat + n) % t.target.toNat ∧
    ((next^[n] t).tick.irqPending = true ↔ (t.counter.toNat + n + 1) % t.target.toNat = 0)

/-! ## The GPU -/

/-- A word to either port touches nothing outside the GPU but Cause bit 8 and the output streams. A control word leaves
the queue, the parser's state, the transfer and VRAM: acknowledge clears the flag and Cause bit 8, enable sets the
enable bit, any other word does nothing (62_gpu.md R196, R211, R212; 20_memory.md R37; the encodings are the spec's D28). -/
def Obligations.PortWordsTouchOnlyTheGpu : Prop :=
  ∀ (s : State) (w : Word),
    let t := s.gpuWriteControl w
    GpuOnly s (s.gpuWriteCommand w) ∧
    (w.extractLsb' 24 8 = 0x02#8 → GpuOnly s t ∧ t.diag = s.diag ∧ t.render = s.render ∧
      t.gpu = { s.gpu with irqFlag := false } ∧ t.cause.getLsbD 8 = false) ∧
    (w.extractLsb' 24 8 = 0x0A#8 → t = { s with gpu := { s.gpu with irqEnable := true } }) ∧
    (w.extractLsb' 24 8 ≠ 0x02#8 → w.extractLsb' 24 8 ≠ 0x0A#8 → t = s)

/-- A whole transfer of an even width inside VRAM: setup word, two descriptor words, `W * H / 2` data words. Until the
last word the parser is not Idle; after it, it is Idle with an empty queue, the rectangle holds the pixels in order and
every other pixel is as before, the texture update has been called once with that VRAM, and the interrupt line is
asserted exactly if IRQ is enabled (62_gpu.md R198 to R203, R218; the setup opcode is the spec's D25, layout and order
its D26 and D27, the interrupt line its D28). -/
def Obligations.TransferFillsItsRectangle : Prop :=
  ∀ (s : State) (setup w1 w2 : Word) (data : List Word),
    let X := (w1.extractLsb' 0 16).toNat
    let Y := (w1.extractLsb' 16 16).toNat
    let W := (w2.extractLsb' 0 16).toNat
    let H := (w2.extractLsb' 16 16).toNat
    let t := s.gpuWriteCommands (setup :: w1 :: w2 :: data)
    s.gpu.xferState = .idle → setup.extractLsb' 24 8 = 0xA0#8 → W % 2 = 0 → 0 < W * H → X + W ≤ 1024 → Y + H ≤ 512 →
    Store.wf (1024 * 512) s.gpu.vram = true → 2 * data.length = W * H →
      t.gpu.xferState = .idle ∧ t.gpu.queue = [] ∧
      (∀ n, n < data.length → (s.gpuWriteCommands (setup :: w1 :: w2 :: data.take n)).gpu.xferState = .transferringPixels) ∧
      (∀ k, k < data.length →
        t.gpu.pixel (X + 2 * k % W) (Y + 2 * k / W) = (data.getD k 0#32).extractLsb' 0 16 ∧
        t.gpu.pixel (X + 2 * k % W + 1) (Y + 2 * k / W) = (data.getD k 0#32).extractLsb' 16 16) ∧
      (∀ x y, x < 1024 → y < 512 → ¬(X ≤ x ∧ x < X + W ∧ Y ≤ y ∧ y < Y + H) → t.gpu.pixel x y = s.gpu.pixel x y) ∧
      t.render = s.render ++ [.updateVramTexture t.gpu.vram] ∧ t.diag = s.diag ∧
      t.cause.getLsbD 8 = (s.gpu.irqEnable || s.cause.getLsbD 8) ∧ t.gpu.irqFlag = (s.gpu.irqEnable || s.gpu.irqFlag)

/-- A transfer of any size, odd widths and places outside VRAM included, takes exactly `ceil(W * H / 2)` data words; an
empty one none (62_gpu.md R199, R201, R202; the spec's D27). -/
def Obligations.TransferLength : Prop :=
  ∀ (s : State) (setup w1 w2 : Word) (data : List Word),
    let N := (w2.extractLsb' 0 16).toNat * (w2.extractLsb' 16 16).toNat
    s.gpu.xferState = .idle → setup.extractLsb' 24 8 = 0xA0#8 →
    (data.length < (N + 1) / 2 → (s.gpuWriteCommands (setup :: w1 :: w2 :: data)).gpu.xferState = .transferringPixels) ∧
    (data.length = (N + 1) / 2 → (s.gpuWriteCommands (setup :: w1 :: w2 :: data)).gpu.xferState = .idle)

/-- One data word of a transfer: two pixels, the second in the following column of the same row, both saturated at the
edges of VRAM, the second winning where they meet; every other pixel and the parser's other state stay; the cursor moves
by two (62_gpu.md R201; the spec's D27). -/
def Obligations.TransferWordWritesTwoPixels : Prop :=
  ∀ (s : State) (w : Word),
    let g := s.gpu
    let px := g.xferX.toNat + g.cursor.toNat % g.xferW.toNat
    let py := min (g.xferY.toNat + g.cursor.toNat / g.xferW.toNat) 511
    let t := s.gpuWriteCommand w
    g.xferState = .transferringPixels → Store.wf (1024 * 512) g.vram = true →
      (∀ x y, x < 1024 → y < 512 → t.gpu.pixel x y =
        if x = min (px + 1) 1023 ∧ y = py then w.extractLsb' 16 16
        else if x = min px 1023 ∧ y = py then w.extractLsb' 0 16 else g.pixel x y) ∧
      t.gpu.cursor = g.cursor + 2#32 ∧ t.gpu.queue = g.queue ∧
      (t.gpu.xferState = .idle ↔ g.xferW.toNat * g.xferH.toNat ≤ (g.cursor + 2#32).toNat)

/-- The fill, pixel by pixel: inside the rectangle and VRAM the truncated colour, elsewhere as before; afterwards the queue
is empty, and there is no event and no interrupt. The parameter words must not look like a setup word, which would
restart the parser (62_gpu.md R198, R206; layout and truncation are the spec's D26). -/
def Obligations.FillWritesItsRectangle : Prop :=
  ∀ (s : State) (w0 w1 w2 : Word),
    let X := (w1.extractLsb' 0 16).toNat
    let Y := (w1.extractLsb' 16 16).toNat
    let W := (w2.extractLsb' 0 16).toNat
    let H := (w2.extractLsb' 16 16).toNat
    let p := (0#1 ++ w0.extractLsb' 19 5 ++ w0.extractLsb' 11 5 ++ w0.extractLsb' 3 5 : BitVec 16)
    let t := s.gpuWriteCommands [w0, w1, w2]
    s.gpu.xferState = .idle → s.gpu.queue = [] → w0.extractLsb' 24 8 = 0x02#8 →
    w1.extractLsb' 24 8 ≠ 0xA0#8 → w2.extractLsb' 24 8 ≠ 0xA0#8 → Store.wf (1024 * 512) s.gpu.vram = true →
      (∀ x y, x < 1024 → y < 512 → t.gpu.pixel x y =
        if X ≤ x ∧ x < X + W ∧ Y ≤ y ∧ y < Y + H then p else s.gpu.pixel x y) ∧
      t = { s with gpu := { s.gpu with vram := t.gpu.vram } }

/-- The VRAM-to-VRAM copy: the command changes VRAM alone, by the copy with the fields of the open parameter, and empties
the queue. For every choice of the fields the copy is `w * h` pixel steps, row by row, left to right, each on the contents
the steps before it left, and bounds-checked, so that overlapping rectangles see earlier writes; and between rectangles
that do not overlap each destination pixel inside VRAM whose source is inside VRAM becomes the source, and every other
pixel stays (62_gpu.md R205; the opcode is the spec's D25, the open layout log 3). -/
def Obligations.CopyMovesPixels : Prop :=
  (∀ (s : State) (w0 w1 w2 : Word), s.gpu.xferState = .idle → s.gpu.queue = [] → w0.extractLsb' 24 8 = 0x80#8 →
    w1.extractLsb' 24 8 ≠ 0xA0#8 → w2.extractLsb' 24 8 ≠ 0xA0#8 → s.gpuWriteCommands [w0, w1, w2] =
      { s with gpu := { s.gpu with vram := copyRect (Config.vramCopyFields w0 w1 w2) s.gpu.vram } }) ∧
  ∀ (g : Gpu) (f : CopyFields), Store.wf (1024 * 512) g.vram = true →
    (∃ v : Nat → Store 16, v 0 = g.vram ∧ v (f.w.toNat * f.h.toNat) = copyRect f g.vram ∧
      ∀ n, n < f.w.toNat * f.h.toNat →
        let i := n % f.w.toNat
        let j := n / f.w.toNat
        ∀ x y, x < 1024 → y < 512 → ({ g with vram := v (n + 1) } : Gpu).pixel x y =
          if x = f.dx + i ∧ y = f.dy + j ∧ f.sx + i < 1024 ∧ f.sy + j < 512
            then ({ g with vram := v n } : Gpu).pixel (f.sx + i) (f.sy + j)
            else ({ g with vram := v n } : Gpu).pixel x y) ∧
    ((f.sx + f.w.toNat ≤ f.dx ∨ f.dx + f.w.toNat ≤ f.sx ∨ f.sy + f.h.toNat ≤ f.dy ∨ f.dy + f.h.toNat ≤ f.sy) →
      ∀ x y, x < 1024 → y < 512 → ({ g with vram := copyRect f g.vram } : Gpu).pixel x y =
        if f.dx ≤ x ∧ x < f.dx + f.w.toNat ∧ f.dy ≤ y ∧ y < f.dy + f.h.toNat ∧
            f.sx + (x - f.dx) < 1024 ∧ f.sy + (y - f.dy) < 512
          then g.pixel (f.sx + (x - f.dx)) (f.sy + (y - f.dy)) else g.pixel x y)

/-- The commands that write no VRAM: draw area, draw offset, mask bit, no-op, an unknown opcode, which is logged and
dropped, the flat triangle and the textured one, which takes a texture of the current VRAM first. Each changes what it
names and nothing else (62_gpu.md R207 to R210, R214 to R216; fields and opcodes are the spec's D25, D26, the shape of
the textured events log 9). -/
def Obligations.CommandsWithoutVram : Prop :=
  ∀ (s : State) (w w1 w2 w3 w4 w5 w6 : Word), s.gpu.xferState = .idle → s.gpu.queue = [] →
    let op := w.extractLsb' 24 8
    let t := s.gpuWriteCommand w
    let v := fun (w : Word) => ({ x := w.extractLsb' 0 16, y := w.extractLsb' 16 16 } : Vertex)
    (op = 0xE3#8 → t = { s with gpu := { s.gpu with areaLeft := w.extractLsb' 0 10, areaTop := w.extractLsb' 10 10 } }) ∧
    (op = 0xE4#8 → t = { s with gpu := { s.gpu with areaRight := w.extractLsb' 0 10, areaBottom := w.extractLsb' 10 10 } }) ∧
    (op = 0xE5#8 → t = { s with gpu := { s.gpu with offsetX := w.extractLsb' 0 11, offsetY := w.extractLsb' 11 11 } }) ∧
    (op = 0xE6#8 → t = { s with gpu := { s.gpu with maskBit := w.getLsbD 0 } }) ∧
    (op = 0x00#8 → t = s) ∧
    (op ∉ [0x00#8, 0x02#8, 0x20#8, 0x24#8, 0x80#8, 0xA0#8, 0xE3#8, 0xE4#8, 0xE5#8, 0xE6#8] →
      t = { s with diag := s.diag ++ [.unknownGpuOpcode w] }) ∧
    (op = 0x20#8 → (∀ u ∈ [w1, w2, w3], u.extractLsb' 24 8 ≠ 0xA0#8) → s.gpuWriteCommands [w, w1, w2, w3] =
      { s with render := s.render ++ [.drawFlatTriangle (v w1) (v w2) (v w3) (w.extractLsb' 0 24)] }) ∧
    (op = 0x24#8 → (∀ u ∈ [w1, w2, w3, w4, w5, w6], u.extractLsb' 24 8 ≠ 0xA0#8) →
      s.gpuWriteCommands [w, w1, w2, w3, w4, w5, w6] =
        { s with render := s.render ++ [.createTextureFromVram [w, w1, w2, w3, w4, w5, w6] s.gpu.vram,
            .drawTexturedTriangle (v w1) (v w3) (v w5) w2 w4 w6 (w.extractLsb' 0 24)] })

/-- A word with top byte 0xA0 always starts a transfer setup while the parser is Idle, whatever was queued; any other word
in Idle is queued until the packet is complete (62_gpu.md R198, R219; the opcodes are the spec's D25). -/
def Obligations.SetupWordRestartsParser : Prop :=
  ∀ (s : State) (w : Word), s.gpu.xferState = .idle →
    (w.extractLsb' 24 8 = 0xA0#8 → s.gpuWriteCommand w =
      { s with gpu := { s.gpu with queue := [w], xferState := .awaitingTransferSetup } }) ∧
    (w.extractLsb' 24 8 ≠ 0xA0#8 → (s.gpu.queue ++ [w]).length ≠ packetLength (topByte (packetWord (s.gpu.queue ++ [w]) 0)) →
      s.gpuWriteCommand w = { s with gpu := { s.gpu with queue := s.gpu.queue ++ [w] } }) ∧
    (w.extractLsb' 24 8 ≠ 0xA0#8 → (s.gpu.queue ++ [w]).length = packetLength (topByte (packetWord (s.gpu.queue ++ [w]) 0)) →
      (s.gpuWriteCommand w).gpu.queue = [] ∧ (s.gpuWriteCommand w).gpu.xferState = .idle)

/-! ## Reset and the host -/

/-- What reset leaves (10_state.md R29; 70_reset_and_hazards.md R220, R224, R225; 62_gpu.md R217). The addresses are the
spec's D8 and D12, the cleared latch its D5, the zeros of RAM, timers and GPU its D38, the BIOS of zeros its D31 (log 2),
MIPS1_EXT false its D18 (log 1); that no step is taken yet is the model's mark (log 8). -/
def Obligations.ResetState : Prop :=
  let s := State.reset
  s.pc = 0xBFC00000#32 ∧ s.inDelaySlot = false ∧ s.nextPC = 0#32 ∧ s.hi = 0#32 ∧ s.lo = 0#32 ∧
  (∀ r : Reg, s.readReg r = if r = 29 then 0x801FFFF0#32 else 0#32) ∧ (∀ n : Slot, s.readC0 n = 0#32) ∧
  (∀ a, region a ≠ .unmapped → s.readByte a = 0#8) ∧
  (∀ i : Fin 3, s.timers[i].counter = 0#16 ∧ s.timers[i].mode = 0#14 ∧ s.timers[i].target = 0#16 ∧ s.timers[i].irqPending = false) ∧
  (∀ x y, s.gpu.pixel x y = 0#16) ∧ s.gpu.queue = [] ∧ s.gpu.xferState = .idle ∧ s.gpu.cursor = 0#32 ∧
  s.gpu.irqEnable = false ∧ s.gpu.irqFlag = false ∧
  s.gpu.xferX = 0#16 ∧ s.gpu.xferY = 0#16 ∧ s.gpu.xferW = 0#16 ∧ s.gpu.xferH = 0#16 ∧
  s.gpu.areaLeft = 0#10 ∧ s.gpu.areaTop = 0#10 ∧ s.gpu.areaRight = 0#10 ∧ s.gpu.areaBottom = 0#10 ∧
  s.gpu.offsetX = 0#11 ∧ s.gpu.offsetY = 0#11 ∧ s.gpu.maskBit = false ∧ s.mips1Ext = false ∧ s.stepped = false

/-- The host's actions between steps that no other statement covers. The CPU's Reset gives the power-on values whatever
the machine was doing and leaves the GPU and the BIOS image; the GPU's Reset leaves everything else, Cause included. Before
the first step byte `k` of a BIOS image of exactly 524288 bytes becomes the byte at `BIOS_BASE + k`; later an image is
refused, and a buffer of another length always (00_scope.md R7; 70_reset_and_hazards.md R220, R221; 62_gpu.md R217;
20_memory.md R36; the spec's D5, D8, D38). The mark of the first step and the refusal are the model's (log 8), the
CPU Reset's effect on the result, the streams and the mark is log 13. -/
def Obligations.HostResetsAndBiosImage : Prop :=
  ∀ (s : State) (image : List Byte),
    (∃ t, hostAct .cpuReset s = .next t ∧ t.regs = State.reset.regs ∧ t.pc = 0xBFC00000#32 ∧ t.inDelaySlot = false ∧
      t.nextPC = 0#32 ∧ t.hi = 0#32 ∧ t.lo = 0#32 ∧ (∀ n, t.readC0 n = 0#32) ∧ t.ram = [] ∧ t.timers = State.reset.timers ∧
      t.gpu = s.gpu ∧ t.bios = s.bios ∧ t.mips1Ext = s.mips1Ext ∧ t.stepped = s.stepped ∧ t.result = .ok ∧
      t.diag = s.diag ∧ t.render = s.render) ∧
    hostAct .gpuReset s = .next { s with gpu := State.reset.gpu } ∧
    (image.length = 524288 → s.stepped = false → ∃ t, hostAct (.loadBios image) s = .next t ∧ t = { s with bios := t.bios } ∧
      ∀ k, k < 524288 → t.readByte (0xBFC00000#32 + BitVec.ofNat 32 k) = image.getD k 0#8) ∧
    (image.length = 524288 → s.stepped = true → hostAct (.loadBios image) s = .refused .biosImageAfterFirstStep) ∧
    (image.length ≠ 524288 → hostAct (.loadBios image) s = .refused (.biosImageLength image.length))
end

