-- ==== Sys2Proof/Laws/Arith.lean ====
section
/-! SUPPORT. The arithmetic behind the meanings: overflow as a range, sign extension as a value, jump and branch
targets as numbers. -/

namespace Sys2Proof.Machine

/-- The overflow rule of ADD and ADDI is exactly that the sum does not fit (41_alu.md R71). -/
theorem overflowAdd_iff (a b : Word) : overflowAdd a b (a + b) = true ↔ OutOfRange (a.toInt + b.toInt) := by
  have ha := a.isLt; have hb := b.isLt
  simp only [overflowAdd, OutOfRange, Bool.and_eq_true, beq_iff_eq, bne_iff_ne, ne_eq, BitVec.getLsbD,
    Nat.testBit_eq_decide_div_mod_eq, BitVec.toInt_eq_toNat_cond, BitVec.toNat_add, decide_eq_decide]
  split <;> split <;> omega

/-- The overflow rule of SUB is exactly that the difference does not fit (41_alu.md R71). -/
theorem overflowSub_iff (a b : Word) : overflowSub a b (a - b) = true ↔ OutOfRange (a.toInt - b.toInt) := by
  have ha := a.isLt; have hb := b.isLt
  simp only [overflowSub, OutOfRange, Bool.and_eq_true, bne_iff_ne, ne_eq, BitVec.getLsbD,
    Nat.testBit_eq_decide_div_mod_eq, BitVec.toInt_eq_toNat_cond, BitVec.toNat_sub, decide_eq_decide]
  split <;> split <;> omega

theorem sext16_toInt (imm : BitVec 16) : (sext16 imm).toInt = imm.toInt := by
  simp [sext16, BitVec.toInt_signExtend_of_le]

theorem add_toInt_of {a b : Word} (h : ¬OutOfRange (a.toInt + b.toInt)) : (a + b).toInt = a.toInt + b.toInt := by
  unfold OutOfRange at h
  rw [BitVec.toInt_add, Int.bmod_eq_of_le] <;> omega

theorem sub_toInt_of {a b : Word} (h : ¬OutOfRange (a.toInt - b.toInt)) : (a - b).toInt = a.toInt - b.toInt := by
  unfold OutOfRange at h
  rw [BitVec.toInt_sub, Int.bmod_eq_of_le] <;> omega

/-- The target of J and JAL, as a number (45_control.md R120). -/
theorem jumpTarget_eq (pc : Word) (target : BitVec 26) :
    jumpTarget pc target = BitVec.ofNat 32 (pc.toNat / 2 ^ 28 * 2 ^ 28 + target.toNat * 4) := by
  have h1 := pc.isLt; have h2 := target.isLt
  have e0 : pc &&& 0xF0000000#32 = (pc >>> 28) <<< 28 := by
    ext i hi
    simp only [BitVec.getElem_and, BitVec.getElem_shiftLeft]
    have : (0xF0000000#32 : Word)[i] = decide (28 ≤ i) := by
      revert i; decide
    rw [this]
    by_cases h : i < 28
    · simp [h]
    · simp [h, show 28 ≤ i by omega, BitVec.getLsbD_eq_getElem hi]
  unfold jumpTarget
  rw [e0]
  have hd : (pc >>> 28) <<< 28 &&& (target.setWidth 32 <<< 2) = 0#32 := by
    ext i hi
    simp only [BitVec.getElem_and, BitVec.getElem_shiftLeft]
    by_cases h : i < 28
    · simp [h]
    · simp [h]; intro _ _; exact BitVec.getLsbD_of_ge target (i-2) (by omega)
  rw [← BitVec.add_eq_or_of_and_eq_zero _ _ hd]
  apply BitVec.eq_of_toNat_eq
  simp only [BitVec.toNat_add, BitVec.toNat_shiftLeft, BitVec.toNat_ushiftRight, BitVec.toNat_setWidth, BitVec.toNat_ofNat, Nat.shiftLeft_eq, Nat.shiftRight_eq_div_pow]
  omega

/-- The target of a branch, as a signed offset (45_control.md R122). -/
theorem branchTarget_eq (pc : Word) (imm : BitVec 16) : branchTarget pc imm = pc + BitVec.ofInt 32 (4 * imm.toInt) := by
  unfold branchTarget
  congr 1
  have : sext16 imm = BitVec.ofInt 32 imm.toInt := rfl
  rw [this]
  apply BitVec.eq_of_toInt_eq
  have h1 : imm.toInt < 2^15 := by have := @BitVec.toInt_lt 16 imm; simpa using this
  have h2 : -2^15 ≤ imm.toInt := by have := @BitVec.le_toInt 16 imm; simpa using this
  rw [BitVec.shiftLeft_eq_mul_twoPow]
  rw [show BitVec.twoPow 32 2 = BitVec.ofInt 32 4 by decide, ← BitVec.ofInt_mul, Int.mul_comm]

end Sys2Proof.Machine
end

