-- ==== Sys2Proof/Laws/Store.lean ====
section
/-! SUPPORT. Laws of sparse storage: read after write, and that writes keep the canonical form. -/

namespace Sys2Proof.Machine

variable {w : Nat}

@[simp] theorem Store.read_nil (k : Nat) : Store.read ([] : Store w) k = 0#w := rfl

theorem Store.read_cons (a : Nat) (v : BitVec w) (m : Store w) (k : Nat) :
    Store.read ((a, v) :: m) k = if a = k then v else Store.read m k := rfl

/-- Below the first listed index a canonical store reads 0. -/
theorem Store.read_below {hi lo : Nat} {m : Store w} (h : Store.wfFrom hi lo m = true) {k : Nat} (hk : k < lo) :
    Store.read m k = 0#w := by
  induction m generalizing lo with
  | nil => rfl
  | cons p m ih =>
    obtain ⟨a, v⟩ := p
    simp only [Store.wfFrom, Bool.and_eq_true, decide_eq_true_eq] at h
    rw [Store.read_cons, if_neg (by omega)]
    exact ih h.2 (by omega)

/-- Outside its size a canonical store reads 0. -/
theorem Store.read_outside {hi lo : Nat} {m : Store w} (h : Store.wfFrom hi lo m = true) {k : Nat} (hk : hi ≤ k) :
    Store.read m k = 0#w := by
  induction m generalizing lo with
  | nil => rfl
  | cons p m ih =>
    obtain ⟨a, v⟩ := p
    simp only [Store.wfFrom, Bool.and_eq_true, decide_eq_true_eq] at h
    rw [Store.read_cons, if_neg (by omega)]
    exact ih h.2

theorem Store.wfFrom_weaken {hi lo lo' : Nat} {m : Store w} (h : Store.wfFrom hi lo m = true) (hl : lo' ≤ lo) :
    Store.wfFrom hi lo' m = true := by
  cases m with
  | nil => rfl
  | cons p m =>
    obtain ⟨a, v⟩ := p
    simp only [Store.wfFrom, Bool.and_eq_true, decide_eq_true_eq] at h ⊢
    exact ⟨⟨⟨by omega, h.1.1.2⟩, h.1.2⟩, h.2⟩

/-- A write keeps the canonical form. -/
theorem Store.wfFrom_write {hi lo k : Nat} {m : Store w} (v : BitVec w) (h : Store.wfFrom hi lo m = true)
    (hlo : lo ≤ k) (hk : k < hi) : Store.wfFrom hi lo (Store.write m k v) = true := by
  induction m generalizing lo with
  | nil =>
    by_cases hv : v = 0#w <;> simp [Store.write, Store.wfFrom, hv, hlo, hk]
  | cons p m ih =>
    obtain ⟨a, x⟩ := p
    have h' := h
    simp only [Store.wfFrom, Bool.and_eq_true, decide_eq_true_eq] at h
    simp only [Store.write]
    split
    · split
      · exact h'
      · rename_i hka hv
        simp only [Store.wfFrom, Bool.and_eq_true, decide_eq_true_eq]
        exact ⟨⟨⟨hlo, hk⟩, hv⟩, ⟨⟨by omega, h.1.1.2⟩, h.1.2⟩, h.2⟩
    · split
      · split
        · exact Store.wfFrom_weaken h.2 (by omega)
        · rename_i hka heq hv
          subst heq
          simp only [Store.wfFrom, Bool.and_eq_true, decide_eq_true_eq]
          exact ⟨⟨⟨hlo, hk⟩, hv⟩, h.2⟩
      · simp only [Store.wfFrom, Bool.and_eq_true, decide_eq_true_eq]
        exact ⟨⟨⟨h.1.1.1, h.1.1.2⟩, h.1.2⟩, ih h.2 (by omega)⟩

/-- Reading after a write, on a canonical store. -/
theorem Store.read_write {hi lo : Nat} {m : Store w} (h : Store.wfFrom hi lo m = true) (k j : Nat) (v : BitVec w) :
    Store.read (Store.write m k v) j = if j = k then v else Store.read m j := by
  induction m generalizing lo with
  | nil =>
    by_cases hv : v = 0#w <;> by_cases hj : j = k <;> simp [Store.write, Store.read, hv, hj, eq_comm (a := k) (b := j)]
  | cons p m ih =>
    obtain ⟨a, x⟩ := p
    have h0 := h
    simp only [Store.wfFrom, Bool.and_eq_true, decide_eq_true_eq] at h
    simp only [Store.write]
    split
    · rename_i hka
      have hz : Store.read ((a, x) :: m) k = 0#w :=
        Store.read_below (lo := a) (by simp only [Store.wfFrom, Bool.and_eq_true, decide_eq_true_eq]; exact ⟨⟨⟨le_refl a, h.1.1.2⟩, h.1.2⟩, h.2⟩) hka
      split
      · rename_i hv
        by_cases hj : j = k
        · subst hj; rw [hz, if_pos rfl, hv]
        · rw [if_neg hj]
      · rw [Store.read_cons]
        by_cases hj : j = k
        · subst hj; simp
        · rw [if_neg (fun e => hj e.symm), if_neg hj]
    · split
      · rename_i hka heq
        subst heq
        split
        · rename_i hv
          by_cases hj : j = k
          · subst hj; rw [if_pos rfl, hv]; exact Store.read_below h.2 (by omega)
          · rw [if_neg hj, Store.read_cons, if_neg (fun e => hj e.symm)]
        · rw [Store.read_cons, Store.read_cons]
          by_cases hj : j = k
          · subst hj; simp
          · rw [if_neg (fun e => hj e.symm), if_neg hj, if_neg (fun e => hj e.symm)]
      · rename_i hka hne
        rw [Store.read_cons, Store.read_cons, ih h.2]
        by_cases hj : j = k
        · subst hj; rw [if_neg (fun e => hne e.symm), if_pos rfl, if_pos rfl]
        · simp [hj]

/-- Writing to another index leaves an index alone; this needs no canonical form. -/
theorem Store.read_write_ne (m : Store w) {k j : Nat} (v : BitVec w) (hj : j ≠ k) :
    Store.read (Store.write m k v) j = Store.read m j := by
  induction m with
  | nil => by_cases hv : v = 0#w <;> simp [Store.write, hv, Store.read_cons, hj.symm]
  | cons p m ih =>
    obtain ⟨a, x⟩ := p
    simp only [Store.write]
    split
    · split
      · rfl
      · rw [Store.read_cons, if_neg hj.symm]
    · split
      · rename_i heq; subst heq
        split
        · rw [Store.read_cons, if_neg hj.symm]
        · rw [Store.read_cons, Store.read_cons, if_neg hj.symm, if_neg hj.symm]
      · rw [Store.read_cons, Store.read_cons, ih]

theorem Store.wf_write {size k : Nat} {m : Store w} (v : BitVec w) (h : Store.wf size m = true) (hk : k < size) :
    Store.wf size (Store.write m k v) = true := Store.wfFrom_write v h (Nat.zero_le k) hk

/-- A list of writes keeps the canonical form. -/
theorem Store.wf_writeList {size k : Nat} {m : Store w} (vs : List (BitVec w)) (h : Store.wf size m = true)
    (hk : k + vs.length ≤ size) : Store.wf size (Store.writeList m k vs) = true := by
  induction vs generalizing m k with
  | nil => exact h
  | cons v vs ih =>
    simp only [List.length_cons] at hk
    exact ih (Store.wf_write v h (by omega)) (by omega)

/-- Reading after a list of writes, outside the list. -/
theorem Store.read_writeList_outside (m : Store w) (vs : List (BitVec w)) {k j : Nat}
    (hj : j < k ∨ k + vs.length ≤ j) : Store.read (Store.writeList m k vs) j = Store.read m j := by
  induction vs generalizing m k with
  | nil => rfl
  | cons v vs ih =>
    simp only [List.length_cons] at hj
    rw [Store.writeList, ih _ (by omega), Store.read_write_ne _ _ (by omega)]

/-- Reading after a list of writes, inside the list. -/
theorem Store.read_writeList_inside {hi : Nat} {m : Store w} (vs : List (BitVec w)) {k i : Nat}
    (h : Store.wf hi m = true) (hk : k + vs.length ≤ hi) (hi' : i < vs.length) :
    Store.read (Store.writeList m k vs) (k + i) = vs[i] := by
  induction vs generalizing m k i with
  | nil => exact absurd hi' (by simp)
  | cons v vs ih =>
    simp only [List.length_cons] at hk hi'
    cases i with
    | zero =>
      rw [Store.writeList, Store.read_writeList_outside _ _ (by omega), Nat.add_zero]
      exact (Store.read_write h k k v).trans (if_pos rfl)
    | succ i =>
      have := ih (m := Store.write m k v) (k := k + 1) (i := i) (Store.wf_write v h (by omega)) (by omega) (by omega)
      rw [Store.writeList, show k + (i + 1) = k + 1 + i by omega, this]
      rfl

/-- Two canonical stores that read alike are equal: the form is canonical. -/
theorem Store.ext_of_wfFrom {hi lo : Nat} {m m' : Store w} (h : Store.wfFrom hi lo m = true)
    (h' : Store.wfFrom hi lo m' = true) (e : ∀ k, Store.read m k = Store.read m' k) : m = m' := by
  induction m generalizing lo m' with
  | nil =>
    cases m' with
    | nil => rfl
    | cons p m' =>
      obtain ⟨a, v⟩ := p
      simp only [Store.wfFrom, Bool.and_eq_true, decide_eq_true_eq] at h'
      exact absurd (by simpa [Store.read_cons] using (e a).symm) h'.1.2
  | cons p m ih =>
    obtain ⟨a, v⟩ := p
    have h0 := h
    simp only [Store.wfFrom, Bool.and_eq_true, decide_eq_true_eq] at h
    cases m' with
    | nil => exact absurd (by simpa [Store.read_cons] using e a) h.1.2
    | cons q m' =>
      obtain ⟨b, x⟩ := q
      have h0' := h'
      simp only [Store.wfFrom, Bool.and_eq_true, decide_eq_true_eq] at h'
      have hab : a = b := by
        rcases Nat.lt_trichotomy a b with hlt | heq | hlt
        · exfalso
          have hz : Store.read ((b, x) :: m') a = 0#w := by
            rw [Store.read_cons, if_neg (by omega)]; exact Store.read_below h'.2 (by omega)
          exact h.1.2 (by simpa [Store.read_cons, hz] using (e a))
        · exact heq
        · exfalso
          have hz : Store.read ((a, v) :: m) b = 0#w := by
            rw [Store.read_cons, if_neg (by omega)]; exact Store.read_below h.2 (by omega)
          exact h'.1.2 (by simpa [Store.read_cons, hz] using (e b).symm)
      subst hab
      have hvx : v = x := by simpa [Store.read_cons] using e a
      subst hvx
      have hm : m = m' := by
        refine ih h.2 h'.2 (fun k => ?_)
        by_cases hk : a = k
        · subst hk; rw [Store.read_below h.2 (by omega), Store.read_below h'.2 (by omega)]
        · simpa [Store.read_cons, hk] using e k
      rw [hm]

end Sys2Proof.Machine
end

