-- ==== Sys2Proof/Laws/State.lean ====
section
/-! SUPPORT. One lemma per field per update of the state, and what the register, COP0 and bus reads see after each
update, so that no proof unfolds a record update. -/

namespace Sys2Proof.Machine

/-! ## writeReg -/

@[simp] theorem State.writeReg_hi (s : State) (r : Reg) (v : Word) : (s.writeReg r v).hi = s.hi := by unfold State.writeReg; split <;> rfl
@[simp] theorem State.writeReg_lo (s : State) (r : Reg) (v : Word) : (s.writeReg r v).lo = s.lo := by unfold State.writeReg; split <;> rfl
@[simp] theorem State.writeReg_pc (s : State) (r : Reg) (v : Word) : (s.writeReg r v).pc = s.pc := by unfold State.writeReg; split <;> rfl
@[simp] theorem State.writeReg_nextPC (s : State) (r : Reg) (v : Word) : (s.writeReg r v).nextPC = s.nextPC := by unfold State.writeReg; split <;> rfl
@[simp] theorem State.writeReg_inDelaySlot (s : State) (r : Reg) (v : Word) : (s.writeReg r v).inDelaySlot = s.inDelaySlot := by unfold State.writeReg; split <;> rfl
@[simp] theorem State.writeReg_c0 (s : State) (r : Reg) (v : Word) : (s.writeReg r v).c0 = s.c0 := by unfold State.writeReg; split <;> rfl
@[simp] theorem State.writeReg_ram (s : State) (r : Reg) (v : Word) : (s.writeReg r v).ram = s.ram := by unfold State.writeReg; split <;> rfl
@[simp] theorem State.writeReg_bios (s : State) (r : Reg) (v : Word) : (s.writeReg r v).bios = s.bios := by unfold State.writeReg; split <;> rfl
@[simp] theorem State.writeReg_timers (s : State) (r : Reg) (v : Word) : (s.writeReg r v).timers = s.timers := by unfold State.writeReg; split <;> rfl
@[simp] theorem State.writeReg_gpu (s : State) (r : Reg) (v : Word) : (s.writeReg r v).gpu = s.gpu := by unfold State.writeReg; split <;> rfl
@[simp] theorem State.writeReg_result (s : State) (r : Reg) (v : Word) : (s.writeReg r v).result = s.result := by unfold State.writeReg; split <;> rfl
@[simp] theorem State.writeReg_diag (s : State) (r : Reg) (v : Word) : (s.writeReg r v).diag = s.diag := by unfold State.writeReg; split <;> rfl
@[simp] theorem State.writeReg_render (s : State) (r : Reg) (v : Word) : (s.writeReg r v).render = s.render := by unfold State.writeReg; split <;> rfl
@[simp] theorem State.writeReg_mips1Ext (s : State) (r : Reg) (v : Word) : (s.writeReg r v).mips1Ext = s.mips1Ext := by unfold State.writeReg; split <;> rfl
@[simp] theorem State.writeReg_stepped (s : State) (r : Reg) (v : Word) : (s.writeReg r v).stepped = s.stepped := by unfold State.writeReg; split <;> rfl
@[simp] theorem State.writeReg_readC0 (s : State) (r : Reg) (v : Word) (m : Slot) : (s.writeReg r v).readC0 m = s.readC0 m := by
  simp only [State.readC0, State.writeReg_c0]
@[simp] theorem State.writeReg_status (s : State) (r : Reg) (v : Word) : (s.writeReg r v).status = s.status := State.writeReg_readC0 s r v _
@[simp] theorem State.writeReg_cause (s : State) (r : Reg) (v : Word) : (s.writeReg r v).cause = s.cause := State.writeReg_readC0 s r v _
@[simp] theorem State.writeReg_epc (s : State) (r : Reg) (v : Word) : (s.writeReg r v).epc = s.epc := State.writeReg_readC0 s r v _
@[simp] theorem State.writeReg_badVAddr (s : State) (r : Reg) (v : Word) : (s.writeReg r v).badVAddr = s.badVAddr := State.writeReg_readC0 s r v _
@[simp] theorem State.writeReg_busRead (s : State) (r : Reg) (v : Word) (addr : Word) (wd : Width) : (s.writeReg r v).busRead addr wd = s.busRead addr wd := by
  simp only [State.busRead, State.writeReg_ram, State.writeReg_bios, State.writeReg_timers]
@[simp] theorem State.writeReg_memRead (s : State) (r : Reg) (v : Word) (addr : Word) (wd : Width) : (s.writeReg r v).memRead addr wd = s.memRead addr wd := by
  simp only [State.memRead, State.writeReg_busRead]

/-! ## writeHiLo -/

@[simp] theorem State.writeHiLo_regs (s : State) (h l : Word) : (s.writeHiLo h l).regs = s.regs := rfl
@[simp] theorem State.writeHiLo_hi (s : State) (h l : Word) : (s.writeHiLo h l).hi = h := rfl
@[simp] theorem State.writeHiLo_lo (s : State) (h l : Word) : (s.writeHiLo h l).lo = l := rfl
@[simp] theorem State.writeHiLo_pc (s : State) (h l : Word) : (s.writeHiLo h l).pc = s.pc := rfl
@[simp] theorem State.writeHiLo_nextPC (s : State) (h l : Word) : (s.writeHiLo h l).nextPC = s.nextPC := rfl
@[simp] theorem State.writeHiLo_inDelaySlot (s : State) (h l : Word) : (s.writeHiLo h l).inDelaySlot = s.inDelaySlot := rfl
@[simp] theorem State.writeHiLo_c0 (s : State) (h l : Word) : (s.writeHiLo h l).c0 = s.c0 := rfl
@[simp] theorem State.writeHiLo_ram (s : State) (h l : Word) : (s.writeHiLo h l).ram = s.ram := rfl
@[simp] theorem State.writeHiLo_bios (s : State) (h l : Word) : (s.writeHiLo h l).bios = s.bios := rfl
@[simp] theorem State.writeHiLo_timers (s : State) (h l : Word) : (s.writeHiLo h l).timers = s.timers := rfl
@[simp] theorem State.writeHiLo_gpu (s : State) (h l : Word) : (s.writeHiLo h l).gpu = s.gpu := rfl
@[simp] theorem State.writeHiLo_result (s : State) (h l : Word) : (s.writeHiLo h l).result = s.result := rfl
@[simp] theorem State.writeHiLo_diag (s : State) (h l : Word) : (s.writeHiLo h l).diag = s.diag := rfl
@[simp] theorem State.writeHiLo_render (s : State) (h l : Word) : (s.writeHiLo h l).render = s.render := rfl
@[simp] theorem State.writeHiLo_mips1Ext (s : State) (h l : Word) : (s.writeHiLo h l).mips1Ext = s.mips1Ext := rfl
@[simp] theorem State.writeHiLo_stepped (s : State) (h l : Word) : (s.writeHiLo h l).stepped = s.stepped := rfl
@[simp] theorem State.writeHiLo_readReg (s : State) (h l : Word) (q : Reg) : (s.writeHiLo h l).readReg q = s.readReg q := by
  simp only [State.readReg, State.writeHiLo_regs]
@[simp] theorem State.writeHiLo_readC0 (s : State) (h l : Word) (m : Slot) : (s.writeHiLo h l).readC0 m = s.readC0 m := by
  simp only [State.readC0, State.writeHiLo_c0]
@[simp] theorem State.writeHiLo_status (s : State) (h l : Word) : (s.writeHiLo h l).status = s.status := State.writeHiLo_readC0 s h l _
@[simp] theorem State.writeHiLo_cause (s : State) (h l : Word) : (s.writeHiLo h l).cause = s.cause := State.writeHiLo_readC0 s h l _
@[simp] theorem State.writeHiLo_epc (s : State) (h l : Word) : (s.writeHiLo h l).epc = s.epc := State.writeHiLo_readC0 s h l _
@[simp] theorem State.writeHiLo_badVAddr (s : State) (h l : Word) : (s.writeHiLo h l).badVAddr = s.badVAddr := State.writeHiLo_readC0 s h l _
@[simp] theorem State.writeHiLo_busRead (s : State) (h l : Word) (addr : Word) (wd : Width) : (s.writeHiLo h l).busRead addr wd = s.busRead addr wd := by
  simp only [State.busRead, State.writeHiLo_ram, State.writeHiLo_bios, State.writeHiLo_timers]
@[simp] theorem State.writeHiLo_memRead (s : State) (h l : Word) (addr : Word) (wd : Width) : (s.writeHiLo h l).memRead addr wd = s.memRead addr wd := by
  simp only [State.memRead, State.writeHiLo_busRead]

/-! ## writeC0 -/

@[simp] theorem State.writeC0_regs (s : State) (n : Slot) (v : Word) : (s.writeC0 n v).regs = s.regs := rfl
@[simp] theorem State.writeC0_hi (s : State) (n : Slot) (v : Word) : (s.writeC0 n v).hi = s.hi := rfl
@[simp] theorem State.writeC0_lo (s : State) (n : Slot) (v : Word) : (s.writeC0 n v).lo = s.lo := rfl
@[simp] theorem State.writeC0_pc (s : State) (n : Slot) (v : Word) : (s.writeC0 n v).pc = s.pc := rfl
@[simp] theorem State.writeC0_nextPC (s : State) (n : Slot) (v : Word) : (s.writeC0 n v).nextPC = s.nextPC := rfl
@[simp] theorem State.writeC0_inDelaySlot (s : State) (n : Slot) (v : Word) : (s.writeC0 n v).inDelaySlot = s.inDelaySlot := rfl
@[simp] theorem State.writeC0_c0 (s : State) (n : Slot) (v : Word) : (s.writeC0 n v).c0 = s.c0.set n v := rfl
@[simp] theorem State.writeC0_ram (s : State) (n : Slot) (v : Word) : (s.writeC0 n v).ram = s.ram := rfl
@[simp] theorem State.writeC0_bios (s : State) (n : Slot) (v : Word) : (s.writeC0 n v).bios = s.bios := rfl
@[simp] theorem State.writeC0_timers (s : State) (n : Slot) (v : Word) : (s.writeC0 n v).timers = s.timers := rfl
@[simp] theorem State.writeC0_gpu (s : State) (n : Slot) (v : Word) : (s.writeC0 n v).gpu = s.gpu := rfl
@[simp] theorem State.writeC0_result (s : State) (n : Slot) (v : Word) : (s.writeC0 n v).result = s.result := rfl
@[simp] theorem State.writeC0_diag (s : State) (n : Slot) (v : Word) : (s.writeC0 n v).diag = s.diag := rfl
@[simp] theorem State.writeC0_render (s : State) (n : Slot) (v : Word) : (s.writeC0 n v).render = s.render := rfl
@[simp] theorem State.writeC0_mips1Ext (s : State) (n : Slot) (v : Word) : (s.writeC0 n v).mips1Ext = s.mips1Ext := rfl
@[simp] theorem State.writeC0_stepped (s : State) (n : Slot) (v : Word) : (s.writeC0 n v).stepped = s.stepped := rfl
@[simp] theorem State.writeC0_readReg (s : State) (n : Slot) (v : Word) (q : Reg) : (s.writeC0 n v).readReg q = s.readReg q := by
  simp only [State.readReg, State.writeC0_regs]
@[simp] theorem State.writeC0_busRead (s : State) (n : Slot) (v : Word) (addr : Word) (wd : Width) : (s.writeC0 n v).busRead addr wd = s.busRead addr wd := by
  simp only [State.busRead, State.writeC0_ram, State.writeC0_bios, State.writeC0_timers]
@[simp] theorem State.writeC0_memRead (s : State) (n : Slot) (v : Word) (addr : Word) (wd : Width) : (s.writeC0 n v).memRead addr wd = s.memRead addr wd := by
  simp only [State.memRead, State.writeC0_busRead]

/-! ## setIRQ -/

@[simp] theorem State.setIRQ_regs (s : State) (line : Fin 8) (b : Bool) : (s.setIRQ line b).regs = s.regs := rfl
@[simp] theorem State.setIRQ_hi (s : State) (line : Fin 8) (b : Bool) : (s.setIRQ line b).hi = s.hi := rfl
@[simp] theorem State.setIRQ_lo (s : State) (line : Fin 8) (b : Bool) : (s.setIRQ line b).lo = s.lo := rfl
@[simp] theorem State.setIRQ_pc (s : State) (line : Fin 8) (b : Bool) : (s.setIRQ line b).pc = s.pc := rfl
@[simp] theorem State.setIRQ_nextPC (s : State) (line : Fin 8) (b : Bool) : (s.setIRQ line b).nextPC = s.nextPC := rfl
@[simp] theorem State.setIRQ_inDelaySlot (s : State) (line : Fin 8) (b : Bool) : (s.setIRQ line b).inDelaySlot = s.inDelaySlot := rfl
@[simp] theorem State.setIRQ_ram (s : State) (line : Fin 8) (b : Bool) : (s.setIRQ line b).ram = s.ram := rfl
@[simp] theorem State.setIRQ_bios (s : State) (line : Fin 8) (b : Bool) : (s.setIRQ line b).bios = s.bios := rfl
@[simp] theorem State.setIRQ_timers (s : State) (line : Fin 8) (b : Bool) : (s.setIRQ line b).timers = s.timers := rfl
@[simp] theorem State.setIRQ_gpu (s : State) (line : Fin 8) (b : Bool) : (s.setIRQ line b).gpu = s.gpu := rfl
@[simp] theorem State.setIRQ_result (s : State) (line : Fin 8) (b : Bool) : (s.setIRQ line b).result = s.result := rfl
@[simp] theorem State.setIRQ_diag (s : State) (line : Fin 8) (b : Bool) : (s.setIRQ line b).diag = s.diag := rfl
@[simp] theorem State.setIRQ_render (s : State) (line : Fin 8) (b : Bool) : (s.setIRQ line b).render = s.render := rfl
@[simp] theorem State.setIRQ_mips1Ext (s : State) (line : Fin 8) (b : Bool) : (s.setIRQ line b).mips1Ext = s.mips1Ext := rfl
@[simp] theorem State.setIRQ_stepped (s : State) (line : Fin 8) (b : Bool) : (s.setIRQ line b).stepped = s.stepped := rfl
@[simp] theorem State.setIRQ_readReg (s : State) (line : Fin 8) (b : Bool) (q : Reg) : (s.setIRQ line b).readReg q = s.readReg q := by
  simp only [State.readReg, State.setIRQ_regs]
@[simp] theorem State.setIRQ_busRead (s : State) (line : Fin 8) (b : Bool) (addr : Word) (wd : Width) : (s.setIRQ line b).busRead addr wd = s.busRead addr wd := by
  simp only [State.busRead, State.setIRQ_ram, State.setIRQ_bios, State.setIRQ_timers]
@[simp] theorem State.setIRQ_memRead (s : State) (line : Fin 8) (b : Bool) (addr : Word) (wd : Width) : (s.setIRQ line b).memRead addr wd = s.memRead addr wd := by
  simp only [State.memRead, State.setIRQ_busRead]

/-! ## setExl -/

@[simp] theorem State.setExl_regs (s : State) (b : Bool) : (s.setExl b).regs = s.regs := rfl
@[simp] theorem State.setExl_hi (s : State) (b : Bool) : (s.setExl b).hi = s.hi := rfl
@[simp] theorem State.setExl_lo (s : State) (b : Bool) : (s.setExl b).lo = s.lo := rfl
@[simp] theorem State.setExl_pc (s : State) (b : Bool) : (s.setExl b).pc = s.pc := rfl
@[simp] theorem State.setExl_nextPC (s : State) (b : Bool) : (s.setExl b).nextPC = s.nextPC := rfl
@[simp] theorem State.setExl_inDelaySlot (s : State) (b : Bool) : (s.setExl b).inDelaySlot = s.inDelaySlot := rfl
@[simp] theorem State.setExl_ram (s : State) (b : Bool) : (s.setExl b).ram = s.ram := rfl
@[simp] theorem State.setExl_bios (s : State) (b : Bool) : (s.setExl b).bios = s.bios := rfl
@[simp] theorem State.setExl_timers (s : State) (b : Bool) : (s.setExl b).timers = s.timers := rfl
@[simp] theorem State.setExl_gpu (s : State) (b : Bool) : (s.setExl b).gpu = s.gpu := rfl
@[simp] theorem State.setExl_result (s : State) (b : Bool) : (s.setExl b).result = s.result := rfl
@[simp] theorem State.setExl_diag (s : State) (b : Bool) : (s.setExl b).diag = s.diag := rfl
@[simp] theorem State.setExl_render (s : State) (b : Bool) : (s.setExl b).render = s.render := rfl
@[simp] theorem State.setExl_mips1Ext (s : State) (b : Bool) : (s.setExl b).mips1Ext = s.mips1Ext := rfl
@[simp] theorem State.setExl_stepped (s : State) (b : Bool) : (s.setExl b).stepped = s.stepped := rfl
@[simp] theorem State.setExl_readReg (s : State) (b : Bool) (q : Reg) : (s.setExl b).readReg q = s.readReg q := by
  simp only [State.readReg, State.setExl_regs]
@[simp] theorem State.setExl_busRead (s : State) (b : Bool) (addr : Word) (wd : Width) : (s.setExl b).busRead addr wd = s.busRead addr wd := by
  simp only [State.busRead, State.setExl_ram, State.setExl_bios, State.setExl_timers]
@[simp] theorem State.setExl_memRead (s : State) (b : Bool) (addr : Word) (wd : Width) : (s.setExl b).memRead addr wd = s.memRead addr wd := by
  simp only [State.memRead, State.setExl_busRead]

/-! ## emit -/

@[simp] theorem State.emit_regs (s : State) (e : Diag) : (s.emit e).regs = s.regs := rfl
@[simp] theorem State.emit_hi (s : State) (e : Diag) : (s.emit e).hi = s.hi := rfl
@[simp] theorem State.emit_lo (s : State) (e : Diag) : (s.emit e).lo = s.lo := rfl
@[simp] theorem State.emit_pc (s : State) (e : Diag) : (s.emit e).pc = s.pc := rfl
@[simp] theorem State.emit_nextPC (s : State) (e : Diag) : (s.emit e).nextPC = s.nextPC := rfl
@[simp] theorem State.emit_inDelaySlot (s : State) (e : Diag) : (s.emit e).inDelaySlot = s.inDelaySlot := rfl
@[simp] theorem State.emit_c0 (s : State) (e : Diag) : (s.emit e).c0 = s.c0 := rfl
@[simp] theorem State.emit_ram (s : State) (e : Diag) : (s.emit e).ram = s.ram := rfl
@[simp] theorem State.emit_bios (s : State) (e : Diag) : (s.emit e).bios = s.bios := rfl
@[simp] theorem State.emit_timers (s : State) (e : Diag) : (s.emit e).timers = s.timers := rfl
@[simp] theorem State.emit_gpu (s : State) (e : Diag) : (s.emit e).gpu = s.gpu := rfl
@[simp] theorem State.emit_result (s : State) (e : Diag) : (s.emit e).result = s.result := rfl
@[simp] theorem State.emit_diag (s : State) (e : Diag) : (s.emit e).diag = s.diag ++ [e] := rfl
@[simp] theorem State.emit_render (s : State) (e : Diag) : (s.emit e).render = s.render := rfl
@[simp] theorem State.emit_mips1Ext (s : State) (e : Diag) : (s.emit e).mips1Ext = s.mips1Ext := rfl
@[simp] theorem State.emit_stepped (s : State) (e : Diag) : (s.emit e).stepped = s.stepped := rfl
@[simp] theorem State.emit_readReg (s : State) (e : Diag) (q : Reg) : (s.emit e).readReg q = s.readReg q := by
  simp only [State.readReg, State.emit_regs]
@[simp] theorem State.emit_readC0 (s : State) (e : Diag) (m : Slot) : (s.emit e).readC0 m = s.readC0 m := by
  simp only [State.readC0, State.emit_c0]
@[simp] theorem State.emit_status (s : State) (e : Diag) : (s.emit e).status = s.status := State.emit_readC0 s e _
@[simp] theorem State.emit_cause (s : State) (e : Diag) : (s.emit e).cause = s.cause := State.emit_readC0 s e _
@[simp] theorem State.emit_epc (s : State) (e : Diag) : (s.emit e).epc = s.epc := State.emit_readC0 s e _
@[simp] theorem State.emit_badVAddr (s : State) (e : Diag) : (s.emit e).badVAddr = s.badVAddr := State.emit_readC0 s e _
@[simp] theorem State.emit_busRead (s : State) (e : Diag) (addr : Word) (wd : Width) : (s.emit e).busRead addr wd = s.busRead addr wd := by
  simp only [State.busRead, State.emit_ram, State.emit_bios, State.emit_timers]
@[simp] theorem State.emit_memRead (s : State) (e : Diag) (addr : Word) (wd : Width) : (s.emit e).memRead addr wd = s.memRead addr wd := by
  simp only [State.memRead, State.emit_busRead]

/-! ## render1 -/

@[simp] theorem State.render1_regs (s : State) (e : RenderEvent) : (s.render1 e).regs = s.regs := rfl
@[simp] theorem State.render1_hi (s : State) (e : RenderEvent) : (s.render1 e).hi = s.hi := rfl
@[simp] theorem State.render1_lo (s : State) (e : RenderEvent) : (s.render1 e).lo = s.lo := rfl
@[simp] theorem State.render1_pc (s : State) (e : RenderEvent) : (s.render1 e).pc = s.pc := rfl
@[simp] theorem State.render1_nextPC (s : State) (e : RenderEvent) : (s.render1 e).nextPC = s.nextPC := rfl
@[simp] theorem State.render1_inDelaySlot (s : State) (e : RenderEvent) : (s.render1 e).inDelaySlot = s.inDelaySlot := rfl
@[simp] theorem State.render1_c0 (s : State) (e : RenderEvent) : (s.render1 e).c0 = s.c0 := rfl
@[simp] theorem State.render1_ram (s : State) (e : RenderEvent) : (s.render1 e).ram = s.ram := rfl
@[simp] theorem State.render1_bios (s : State) (e : RenderEvent) : (s.render1 e).bios = s.bios := rfl
@[simp] theorem State.render1_timers (s : State) (e : RenderEvent) : (s.render1 e).timers = s.timers := rfl
@[simp] theorem State.render1_gpu (s : State) (e : RenderEvent) : (s.render1 e).gpu = s.gpu := rfl
@[simp] theorem State.render1_result (s : State) (e : RenderEvent) : (s.render1 e).result = s.result := rfl
@[simp] theorem State.render1_diag (s : State) (e : RenderEvent) : (s.render1 e).diag = s.diag := rfl
@[simp] theorem State.render1_render (s : State) (e : RenderEvent) : (s.render1 e).render = s.render ++ [e] := rfl
@[simp] theorem State.render1_mips1Ext (s : State) (e : RenderEvent) : (s.render1 e).mips1Ext = s.mips1Ext := rfl
@[simp] theorem State.render1_stepped (s : State) (e : RenderEvent) : (s.render1 e).stepped = s.stepped := rfl
@[simp] theorem State.render1_readReg (s : State) (e : RenderEvent) (q : Reg) : (s.render1 e).readReg q = s.readReg q := by
  simp only [State.readReg, State.render1_regs]
@[simp] theorem State.render1_readC0 (s : State) (e : RenderEvent) (m : Slot) : (s.render1 e).readC0 m = s.readC0 m := by
  simp only [State.readC0, State.render1_c0]
@[simp] theorem State.render1_status (s : State) (e : RenderEvent) : (s.render1 e).status = s.status := State.render1_readC0 s e _
@[simp] theorem State.render1_cause (s : State) (e : RenderEvent) : (s.render1 e).cause = s.cause := State.render1_readC0 s e _
@[simp] theorem State.render1_epc (s : State) (e : RenderEvent) : (s.render1 e).epc = s.epc := State.render1_readC0 s e _
@[simp] theorem State.render1_badVAddr (s : State) (e : RenderEvent) : (s.render1 e).badVAddr = s.badVAddr := State.render1_readC0 s e _
@[simp] theorem State.render1_busRead (s : State) (e : RenderEvent) (addr : Word) (wd : Width) : (s.render1 e).busRead addr wd = s.busRead addr wd := by
  simp only [State.busRead, State.render1_ram, State.render1_bios, State.render1_timers]
@[simp] theorem State.render1_memRead (s : State) (e : RenderEvent) (addr : Word) (wd : Width) : (s.render1 e).memRead addr wd = s.memRead addr wd := by
  simp only [State.memRead, State.render1_busRead]

/-! ## setQueue -/

@[simp] theorem State.setQueue_regs (s : State) (qs : List Word) : (s.setQueue qs).regs = s.regs := rfl
@[simp] theorem State.setQueue_hi (s : State) (qs : List Word) : (s.setQueue qs).hi = s.hi := rfl
@[simp] theorem State.setQueue_lo (s : State) (qs : List Word) : (s.setQueue qs).lo = s.lo := rfl
@[simp] theorem State.setQueue_pc (s : State) (qs : List Word) : (s.setQueue qs).pc = s.pc := rfl
@[simp] theorem State.setQueue_nextPC (s : State) (qs : List Word) : (s.setQueue qs).nextPC = s.nextPC := rfl
@[simp] theorem State.setQueue_inDelaySlot (s : State) (qs : List Word) : (s.setQueue qs).inDelaySlot = s.inDelaySlot := rfl
@[simp] theorem State.setQueue_c0 (s : State) (qs : List Word) : (s.setQueue qs).c0 = s.c0 := rfl
@[simp] theorem State.setQueue_ram (s : State) (qs : List Word) : (s.setQueue qs).ram = s.ram := rfl
@[simp] theorem State.setQueue_bios (s : State) (qs : List Word) : (s.setQueue qs).bios = s.bios := rfl
@[simp] theorem State.setQueue_timers (s : State) (qs : List Word) : (s.setQueue qs).timers = s.timers := rfl
@[simp] theorem State.setQueue_gpu (s : State) (qs : List Word) : (s.setQueue qs).gpu = { s.gpu with queue := qs } := rfl
@[simp] theorem State.setQueue_result (s : State) (qs : List Word) : (s.setQueue qs).result = s.result := rfl
@[simp] theorem State.setQueue_diag (s : State) (qs : List Word) : (s.setQueue qs).diag = s.diag := rfl
@[simp] theorem State.setQueue_render (s : State) (qs : List Word) : (s.setQueue qs).render = s.render := rfl
@[simp] theorem State.setQueue_mips1Ext (s : State) (qs : List Word) : (s.setQueue qs).mips1Ext = s.mips1Ext := rfl
@[simp] theorem State.setQueue_stepped (s : State) (qs : List Word) : (s.setQueue qs).stepped = s.stepped := rfl
@[simp] theorem State.setQueue_readReg (s : State) (qs : List Word) (q : Reg) : (s.setQueue qs).readReg q = s.readReg q := by
  simp only [State.readReg, State.setQueue_regs]
@[simp] theorem State.setQueue_readC0 (s : State) (qs : List Word) (m : Slot) : (s.setQueue qs).readC0 m = s.readC0 m := by
  simp only [State.readC0, State.setQueue_c0]
@[simp] theorem State.setQueue_status (s : State) (qs : List Word) : (s.setQueue qs).status = s.status := State.setQueue_readC0 s qs _
@[simp] theorem State.setQueue_cause (s : State) (qs : List Word) : (s.setQueue qs).cause = s.cause := State.setQueue_readC0 s qs _
@[simp] theorem State.setQueue_epc (s : State) (qs : List Word) : (s.setQueue qs).epc = s.epc := State.setQueue_readC0 s qs _
@[simp] theorem State.setQueue_badVAddr (s : State) (qs : List Word) : (s.setQueue qs).badVAddr = s.badVAddr := State.setQueue_readC0 s qs _
@[simp] theorem State.setQueue_busRead (s : State) (qs : List Word) (addr : Word) (wd : Width) : (s.setQueue qs).busRead addr wd = s.busRead addr wd := by
  simp only [State.busRead, State.setQueue_ram, State.setQueue_bios, State.setQueue_timers]
@[simp] theorem State.setQueue_memRead (s : State) (qs : List Word) (addr : Word) (wd : Width) : (s.setQueue qs).memRead addr wd = s.memRead addr wd := by
  simp only [State.memRead, State.setQueue_busRead]

/-! ## advance -/

@[simp] theorem State.advance_regs (s : State) : s.advance.regs = s.regs := rfl
@[simp] theorem State.advance_hi (s : State) : s.advance.hi = s.hi := rfl
@[simp] theorem State.advance_lo (s : State) : s.advance.lo = s.lo := rfl
@[simp] theorem State.advance_pc (s : State) : s.advance.pc = s.followingPc := rfl
@[simp] theorem State.advance_nextPC (s : State) : s.advance.nextPC = s.nextPC := rfl
@[simp] theorem State.advance_inDelaySlot (s : State) : s.advance.inDelaySlot = false := rfl
@[simp] theorem State.advance_c0 (s : State) : s.advance.c0 = s.c0 := rfl
@[simp] theorem State.advance_ram (s : State) : s.advance.ram = s.ram := rfl
@[simp] theorem State.advance_bios (s : State) : s.advance.bios = s.bios := rfl
@[simp] theorem State.advance_timers (s : State) : s.advance.timers = s.timers := rfl
@[simp] theorem State.advance_gpu (s : State) : s.advance.gpu = s.gpu := rfl
@[simp] theorem State.advance_result (s : State) : s.advance.result = .ok := rfl
@[simp] theorem State.advance_diag (s : State) : s.advance.diag = s.diag := rfl
@[simp] theorem State.advance_render (s : State) : s.advance.render = s.render := rfl
@[simp] theorem State.advance_mips1Ext (s : State) : s.advance.mips1Ext = s.mips1Ext := rfl
@[simp] theorem State.advance_stepped (s : State) : s.advance.stepped = s.stepped := rfl
@[simp] theorem State.advance_readReg (s : State) (q : Reg) : s.advance.readReg q = s.readReg q := by
  simp only [State.readReg, State.advance_regs]
@[simp] theorem State.advance_readC0 (s : State) (m : Slot) : s.advance.readC0 m = s.readC0 m := by
  simp only [State.readC0, State.advance_c0]
@[simp] theorem State.advance_status (s : State) : s.advance.status = s.status := State.advance_readC0 s _
@[simp] theorem State.advance_cause (s : State) : s.advance.cause = s.cause := State.advance_readC0 s _
@[simp] theorem State.advance_epc (s : State) : s.advance.epc = s.epc := State.advance_readC0 s _
@[simp] theorem State.advance_badVAddr (s : State) : s.advance.badVAddr = s.badVAddr := State.advance_readC0 s _
@[simp] theorem State.advance_busRead (s : State) (addr : Word) (wd : Width) : s.advance.busRead addr wd = s.busRead addr wd := by
  simp only [State.busRead, State.advance_ram, State.advance_bios, State.advance_timers]
@[simp] theorem State.advance_memRead (s : State) (addr : Word) (wd : Width) : s.advance.memRead addr wd = s.memRead addr wd := by
  simp only [State.memRead, State.advance_busRead]

/-! ## branch -/

@[simp] theorem State.branch_regs (s : State) (t : Word) : (s.branch t).regs = s.regs := rfl
@[simp] theorem State.branch_hi (s : State) (t : Word) : (s.branch t).hi = s.hi := rfl
@[simp] theorem State.branch_lo (s : State) (t : Word) : (s.branch t).lo = s.lo := rfl
@[simp] theorem State.branch_pc (s : State) (t : Word) : (s.branch t).pc = s.followingPc := rfl
@[simp] theorem State.branch_nextPC (s : State) (t : Word) : (s.branch t).nextPC = t := rfl
@[simp] theorem State.branch_inDelaySlot (s : State) (t : Word) : (s.branch t).inDelaySlot = true := rfl
@[simp] theorem State.branch_c0 (s : State) (t : Word) : (s.branch t).c0 = s.c0 := rfl
@[simp] theorem State.branch_ram (s : State) (t : Word) : (s.branch t).ram = s.ram := rfl
@[simp] theorem State.branch_bios (s : State) (t : Word) : (s.branch t).bios = s.bios := rfl
@[simp] theorem State.branch_timers (s : State) (t : Word) : (s.branch t).timers = s.timers := rfl
@[simp] theorem State.branch_gpu (s : State) (t : Word) : (s.branch t).gpu = s.gpu := rfl
@[simp] theorem State.branch_result (s : State) (t : Word) : (s.branch t).result = .ok := rfl
@[simp] theorem State.branch_diag (s : State) (t : Word) : (s.branch t).diag = s.diag := rfl
@[simp] theorem State.branch_render (s : State) (t : Word) : (s.branch t).render = s.render := rfl
@[simp] theorem State.branch_mips1Ext (s : State) (t : Word) : (s.branch t).mips1Ext = s.mips1Ext := rfl
@[simp] theorem State.branch_stepped (s : State) (t : Word) : (s.branch t).stepped = s.stepped := rfl
@[simp] theorem State.branch_readReg (s : State) (t : Word) (q : Reg) : (s.branch t).readReg q = s.readReg q := by
  simp only [State.readReg, State.branch_regs]
@[simp] theorem State.branch_readC0 (s : State) (t : Word) (m : Slot) : (s.branch t).readC0 m = s.readC0 m := by
  simp only [State.readC0, State.branch_c0]
@[simp] theorem State.branch_status (s : State) (t : Word) : (s.branch t).status = s.status := State.branch_readC0 s t _
@[simp] theorem State.branch_cause (s : State) (t : Word) : (s.branch t).cause = s.cause := State.branch_readC0 s t _
@[simp] theorem State.branch_epc (s : State) (t : Word) : (s.branch t).epc = s.epc := State.branch_readC0 s t _
@[simp] theorem State.branch_badVAddr (s : State) (t : Word) : (s.branch t).badVAddr = s.badVAddr := State.branch_readC0 s t _
@[simp] theorem State.branch_busRead (s : State) (t : Word) (addr : Word) (wd : Width) : (s.branch t).busRead addr wd = s.busRead addr wd := by
  simp only [State.busRead, State.branch_ram, State.branch_bios, State.branch_timers]
@[simp] theorem State.branch_memRead (s : State) (t : Word) (addr : Word) (wd : Width) : (s.branch t).memRead addr wd = s.memRead addr wd := by
  simp only [State.memRead, State.branch_busRead]

/-! ## branchIf -/

@[simp] theorem State.branchIf_regs (s : State) (c : Bool) (t : Word) : (s.branchIf c t).regs = s.regs := by cases c <;> rfl
@[simp] theorem State.branchIf_hi (s : State) (c : Bool) (t : Word) : (s.branchIf c t).hi = s.hi := by cases c <;> rfl
@[simp] theorem State.branchIf_lo (s : State) (c : Bool) (t : Word) : (s.branchIf c t).lo = s.lo := by cases c <;> rfl
@[simp] theorem State.branchIf_pc (s : State) (c : Bool) (t : Word) : (s.branchIf c t).pc = s.followingPc := by cases c <;> rfl
@[simp] theorem State.branchIf_nextPC (s : State) (c : Bool) (t : Word) : (s.branchIf c t).nextPC = if c then t else s.nextPC := by cases c <;> rfl
@[simp] theorem State.branchIf_inDelaySlot (s : State) (c : Bool) (t : Word) : (s.branchIf c t).inDelaySlot = c := by cases c <;> rfl
@[simp] theorem State.branchIf_c0 (s : State) (c : Bool) (t : Word) : (s.branchIf c t).c0 = s.c0 := by cases c <;> rfl
@[simp] theorem State.branchIf_ram (s : State) (c : Bool) (t : Word) : (s.branchIf c t).ram = s.ram := by cases c <;> rfl
@[simp] theorem State.branchIf_bios (s : State) (c : Bool) (t : Word) : (s.branchIf c t).bios = s.bios := by cases c <;> rfl
@[simp] theorem State.branchIf_timers (s : State) (c : Bool) (t : Word) : (s.branchIf c t).timers = s.timers := by cases c <;> rfl
@[simp] theorem State.branchIf_gpu (s : State) (c : Bool) (t : Word) : (s.branchIf c t).gpu = s.gpu := by cases c <;> rfl
@[simp] theorem State.branchIf_result (s : State) (c : Bool) (t : Word) : (s.branchIf c t).result = .ok := by cases c <;> rfl
@[simp] theorem State.branchIf_diag (s : State) (c : Bool) (t : Word) : (s.branchIf c t).diag = s.diag := by cases c <;> rfl
@[simp] theorem State.branchIf_render (s : State) (c : Bool) (t : Word) : (s.branchIf c t).render = s.render := by cases c <;> rfl
@[simp] theorem State.branchIf_mips1Ext (s : State) (c : Bool) (t : Word) : (s.branchIf c t).mips1Ext = s.mips1Ext := by cases c <;> rfl
@[simp] theorem State.branchIf_stepped (s : State) (c : Bool) (t : Word) : (s.branchIf c t).stepped = s.stepped := by cases c <;> rfl
@[simp] theorem State.branchIf_readReg (s : State) (c : Bool) (t : Word) (q : Reg) : (s.branchIf c t).readReg q = s.readReg q := by
  simp only [State.readReg, State.branchIf_regs]
@[simp] theorem State.branchIf_readC0 (s : State) (c : Bool) (t : Word) (m : Slot) : (s.branchIf c t).readC0 m = s.readC0 m := by
  simp only [State.readC0, State.branchIf_c0]
@[simp] theorem State.branchIf_status (s : State) (c : Bool) (t : Word) : (s.branchIf c t).status = s.status := State.branchIf_readC0 s c t _
@[simp] theorem State.branchIf_cause (s : State) (c : Bool) (t : Word) : (s.branchIf c t).cause = s.cause := State.branchIf_readC0 s c t _
@[simp] theorem State.branchIf_epc (s : State) (c : Bool) (t : Word) : (s.branchIf c t).epc = s.epc := State.branchIf_readC0 s c t _
@[simp] theorem State.branchIf_badVAddr (s : State) (c : Bool) (t : Word) : (s.branchIf c t).badVAddr = s.badVAddr := State.branchIf_readC0 s c t _
@[simp] theorem State.branchIf_busRead (s : State) (c : Bool) (t : Word) (addr : Word) (wd : Width) : (s.branchIf c t).busRead addr wd = s.busRead addr wd := by
  simp only [State.busRead, State.branchIf_ram, State.branchIf_bios, State.branchIf_timers]
@[simp] theorem State.branchIf_memRead (s : State) (c : Bool) (t : Word) (addr : Word) (wd : Width) : (s.branchIf c t).memRead addr wd = s.memRead addr wd := by
  simp only [State.memRead, State.branchIf_busRead]

/-! ## enter -/

@[simp] theorem State.enter_regs (s : State) (e : Exc) (epc bad : Word) : (s.enter e epc bad).regs = s.regs := by cases e <;> rfl
@[simp] theorem State.enter_hi (s : State) (e : Exc) (epc bad : Word) : (s.enter e epc bad).hi = s.hi := by cases e <;> rfl
@[simp] theorem State.enter_lo (s : State) (e : Exc) (epc bad : Word) : (s.enter e epc bad).lo = s.lo := by cases e <;> rfl
@[simp] theorem State.enter_pc (s : State) (e : Exc) (epc bad : Word) : (s.enter e epc bad).pc = Config.excVector := by cases e <;> rfl
@[simp] theorem State.enter_nextPC (s : State) (e : Exc) (epc bad : Word) : (s.enter e epc bad).nextPC = s.nextPC := by cases e <;> rfl
@[simp] theorem State.enter_inDelaySlot (s : State) (e : Exc) (epc bad : Word) : (s.enter e epc bad).inDelaySlot = false := by cases e <;> rfl
@[simp] theorem State.enter_ram (s : State) (e : Exc) (epc bad : Word) : (s.enter e epc bad).ram = s.ram := by cases e <;> rfl
@[simp] theorem State.enter_bios (s : State) (e : Exc) (epc bad : Word) : (s.enter e epc bad).bios = s.bios := by cases e <;> rfl
@[simp] theorem State.enter_timers (s : State) (e : Exc) (epc bad : Word) : (s.enter e epc bad).timers = s.timers := by cases e <;> rfl
@[simp] theorem State.enter_gpu (s : State) (e : Exc) (epc bad : Word) : (s.enter e epc bad).gpu = s.gpu := by cases e <;> rfl
@[simp] theorem State.enter_result (s : State) (e : Exc) (epc bad : Word) : (s.enter e epc bad).result = .exception e := by cases e <;> rfl
@[simp] theorem State.enter_diag (s : State) (e : Exc) (epc bad : Word) : (s.enter e epc bad).diag = s.diag := by cases e <;> rfl
@[simp] theorem State.enter_render (s : State) (e : Exc) (epc bad : Word) : (s.enter e epc bad).render = s.render := by cases e <;> rfl
@[simp] theorem State.enter_mips1Ext (s : State) (e : Exc) (epc bad : Word) : (s.enter e epc bad).mips1Ext = s.mips1Ext := by cases e <;> rfl
@[simp] theorem State.enter_stepped (s : State) (e : Exc) (epc bad : Word) : (s.enter e epc bad).stepped = s.stepped := by cases e <;> rfl
@[simp] theorem State.enter_readReg (s : State) (e : Exc) (epc bad : Word) (q : Reg) : (s.enter e epc bad).readReg q = s.readReg q := by
  simp only [State.readReg, State.enter_regs]
@[simp] theorem State.enter_busRead (s : State) (e : Exc) (epc bad : Word) (addr : Word) (wd : Width) : (s.enter e epc bad).busRead addr wd = s.busRead addr wd := by
  simp only [State.busRead, State.enter_ram, State.enter_bios, State.enter_timers]
@[simp] theorem State.enter_memRead (s : State) (e : Exc) (epc bad : Word) (addr : Word) (wd : Width) : (s.enter e epc bad).memRead addr wd = s.memRead addr wd := by
  simp only [State.memRead, State.enter_busRead]

/-! ## raise -/

@[simp] theorem State.raise_regs (s : State) (e : Exc) : (s.raise e).regs = s.regs := by cases e <;> rfl
@[simp] theorem State.raise_hi (s : State) (e : Exc) : (s.raise e).hi = s.hi := by cases e <;> rfl
@[simp] theorem State.raise_lo (s : State) (e : Exc) : (s.raise e).lo = s.lo := by cases e <;> rfl
@[simp] theorem State.raise_pc (s : State) (e : Exc) : (s.raise e).pc = Config.excVector := by cases e <;> rfl
@[simp] theorem State.raise_nextPC (s : State) (e : Exc) : (s.raise e).nextPC = s.nextPC := by cases e <;> rfl
@[simp] theorem State.raise_inDelaySlot (s : State) (e : Exc) : (s.raise e).inDelaySlot = false := by cases e <;> rfl
@[simp] theorem State.raise_ram (s : State) (e : Exc) : (s.raise e).ram = s.ram := by cases e <;> rfl
@[simp] theorem State.raise_bios (s : State) (e : Exc) : (s.raise e).bios = s.bios := by cases e <;> rfl
@[simp] theorem State.raise_timers (s : State) (e : Exc) : (s.raise e).timers = s.timers := by cases e <;> rfl
@[simp] theorem State.raise_gpu (s : State) (e : Exc) : (s.raise e).gpu = s.gpu := by cases e <;> rfl
@[simp] theorem State.raise_result (s : State) (e : Exc) : (s.raise e).result = .exception e := by cases e <;> rfl
@[simp] theorem State.raise_diag (s : State) (e : Exc) : (s.raise e).diag = s.diag := by cases e <;> rfl
@[simp] theorem State.raise_render (s : State) (e : Exc) : (s.raise e).render = s.render := by cases e <;> rfl
@[simp] theorem State.raise_mips1Ext (s : State) (e : Exc) : (s.raise e).mips1Ext = s.mips1Ext := by cases e <;> rfl
@[simp] theorem State.raise_stepped (s : State) (e : Exc) : (s.raise e).stepped = s.stepped := by cases e <;> rfl
@[simp] theorem State.raise_readReg (s : State) (e : Exc) (q : Reg) : (s.raise e).readReg q = s.readReg q := by
  simp only [State.readReg, State.raise_regs]
@[simp] theorem State.raise_busRead (s : State) (e : Exc) (addr : Word) (wd : Width) : (s.raise e).busRead addr wd = s.busRead addr wd := by
  simp only [State.busRead, State.raise_ram, State.raise_bios, State.raise_timers]
@[simp] theorem State.raise_memRead (s : State) (e : Exc) (addr : Word) (wd : Width) : (s.raise e).memRead addr wd = s.memRead addr wd := by
  simp only [State.memRead, State.raise_busRead]

/-! ## raiseAddress -/

@[simp] theorem State.raiseAddress_regs (s : State) (e : Exc) (bad : Word) : (s.raiseAddress e bad).regs = s.regs := by cases e <;> rfl
@[simp] theorem State.raiseAddress_hi (s : State) (e : Exc) (bad : Word) : (s.raiseAddress e bad).hi = s.hi := by cases e <;> rfl
@[simp] theorem State.raiseAddress_lo (s : State) (e : Exc) (bad : Word) : (s.raiseAddress e bad).lo = s.lo := by cases e <;> rfl
@[simp] theorem State.raiseAddress_pc (s : State) (e : Exc) (bad : Word) : (s.raiseAddress e bad).pc = Config.excVector := by cases e <;> rfl
@[simp] theorem State.raiseAddress_nextPC (s : State) (e : Exc) (bad : Word) : (s.raiseAddress e bad).nextPC = s.nextPC := by cases e <;> rfl
@[simp] theorem State.raiseAddress_inDelaySlot (s : State) (e : Exc) (bad : Word) : (s.raiseAddress e bad).inDelaySlot = false := by cases e <;> rfl
@[simp] theorem State.raiseAddress_ram (s : State) (e : Exc) (bad : Word) : (s.raiseAddress e bad).ram = s.ram := by cases e <;> rfl
@[simp] theorem State.raiseAddress_bios (s : State) (e : Exc) (bad : Word) : (s.raiseAddress e bad).bios = s.bios := by cases e <;> rfl
@[simp] theorem State.raiseAddress_timers (s : State) (e : Exc) (bad : Word) : (s.raiseAddress e bad).timers = s.timers := by cases e <;> rfl
@[simp] theorem State.raiseAddress_gpu (s : State) (e : Exc) (bad : Word) : (s.raiseAddress e bad).gpu = s.gpu := by cases e <;> rfl
@[simp] theorem State.raiseAddress_result (s : State) (e : Exc) (bad : Word) : (s.raiseAddress e bad).result = .exception e := by cases e <;> rfl
@[simp] theorem State.raiseAddress_diag (s : State) (e : Exc) (bad : Word) : (s.raiseAddress e bad).diag = s.diag := by cases e <;> rfl
@[simp] theorem State.raiseAddress_render (s : State) (e : Exc) (bad : Word) : (s.raiseAddress e bad).render = s.render := by cases e <;> rfl
@[simp] theorem State.raiseAddress_mips1Ext (s : State) (e : Exc) (bad : Word) : (s.raiseAddress e bad).mips1Ext = s.mips1Ext := by cases e <;> rfl
@[simp] theorem State.raiseAddress_stepped (s : State) (e : Exc) (bad : Word) : (s.raiseAddress e bad).stepped = s.stepped := by cases e <;> rfl
@[simp] theorem State.raiseAddress_readReg (s : State) (e : Exc) (bad : Word) (q : Reg) : (s.raiseAddress e bad).readReg q = s.readReg q := by
  simp only [State.readReg, State.raiseAddress_regs]
@[simp] theorem State.raiseAddress_busRead (s : State) (e : Exc) (bad : Word) (addr : Word) (wd : Width) : (s.raiseAddress e bad).busRead addr wd = s.busRead addr wd := by
  simp only [State.busRead, State.raiseAddress_ram, State.raiseAddress_bios, State.raiseAddress_timers]
@[simp] theorem State.raiseAddress_memRead (s : State) (e : Exc) (bad : Word) (addr : Word) (wd : Width) : (s.raiseAddress e bad).memRead addr wd = s.memRead addr wd := by
  simp only [State.memRead, State.raiseAddress_busRead]

/-! ## exceptionReturn -/

@[simp] theorem State.exceptionReturn_regs (s : State) : s.exceptionReturn.regs = s.regs := rfl
@[simp] theorem State.exceptionReturn_hi (s : State) : s.exceptionReturn.hi = s.hi := rfl
@[simp] theorem State.exceptionReturn_lo (s : State) : s.exceptionReturn.lo = s.lo := rfl
@[simp] theorem State.exceptionReturn_pc (s : State) : s.exceptionReturn.pc = s.epc := rfl
@[simp] theorem State.exceptionReturn_nextPC (s : State) : s.exceptionReturn.nextPC = s.nextPC := rfl
@[simp] theorem State.exceptionReturn_inDelaySlot (s : State) : s.exceptionReturn.inDelaySlot = false := rfl
@[simp] theorem State.exceptionReturn_ram (s : State) : s.exceptionReturn.ram = s.ram := rfl
@[simp] theorem State.exceptionReturn_bios (s : State) : s.exceptionReturn.bios = s.bios := rfl
@[simp] theorem State.exceptionReturn_timers (s : State) : s.exceptionReturn.timers = s.timers := rfl
@[simp] theorem State.exceptionReturn_gpu (s : State) : s.exceptionReturn.gpu = s.gpu := rfl
@[simp] theorem State.exceptionReturn_result (s : State) : s.exceptionReturn.result = .ok := rfl
@[simp] theorem State.exceptionReturn_diag (s : State) : s.exceptionReturn.diag = s.diag := rfl
@[simp] theorem State.exceptionReturn_render (s : State) : s.exceptionReturn.render = s.render := rfl
@[simp] theorem State.exceptionReturn_mips1Ext (s : State) : s.exceptionReturn.mips1Ext = s.mips1Ext := rfl
@[simp] theorem State.exceptionReturn_stepped (s : State) : s.exceptionReturn.stepped = s.stepped := rfl
@[simp] theorem State.exceptionReturn_readReg (s : State) (q : Reg) : s.exceptionReturn.readReg q = s.readReg q := by
  simp only [State.readReg, State.exceptionReturn_regs]
@[simp] theorem State.exceptionReturn_busRead (s : State) (addr : Word) (wd : Width) : s.exceptionReturn.busRead addr wd = s.busRead addr wd := by
  simp only [State.busRead, State.exceptionReturn_ram, State.exceptionReturn_bios, State.exceptionReturn_timers]
@[simp] theorem State.exceptionReturn_memRead (s : State) (addr : Word) (wd : Width) : s.exceptionReturn.memRead addr wd = s.memRead addr wd := by
  simp only [State.memRead, State.exceptionReturn_busRead]

/-! ## markStepped -/

@[simp] theorem State.markStepped_regs (s : State) : s.markStepped.regs = s.regs := rfl
@[simp] theorem State.markStepped_hi (s : State) : s.markStepped.hi = s.hi := rfl
@[simp] theorem State.markStepped_lo (s : State) : s.markStepped.lo = s.lo := rfl
@[simp] theorem State.markStepped_pc (s : State) : s.markStepped.pc = s.pc := rfl
@[simp] theorem State.markStepped_nextPC (s : State) : s.markStepped.nextPC = s.nextPC := rfl
@[simp] theorem State.markStepped_inDelaySlot (s : State) : s.markStepped.inDelaySlot = s.inDelaySlot := rfl
@[simp] theorem State.markStepped_c0 (s : State) : s.markStepped.c0 = s.c0 := rfl
@[simp] theorem State.markStepped_ram (s : State) : s.markStepped.ram = s.ram := rfl
@[simp] theorem State.markStepped_bios (s : State) : s.markStepped.bios = s.bios := rfl
@[simp] theorem State.markStepped_timers (s : State) : s.markStepped.timers = s.timers := rfl
@[simp] theorem State.markStepped_gpu (s : State) : s.markStepped.gpu = s.gpu := rfl
@[simp] theorem State.markStepped_result (s : State) : s.markStepped.result = s.result := rfl
@[simp] theorem State.markStepped_diag (s : State) : s.markStepped.diag = s.diag := rfl
@[simp] theorem State.markStepped_render (s : State) : s.markStepped.render = s.render := rfl
@[simp] theorem State.markStepped_mips1Ext (s : State) : s.markStepped.mips1Ext = s.mips1Ext := rfl
@[simp] theorem State.markStepped_stepped (s : State) : s.markStepped.stepped = true := rfl
@[simp] theorem State.markStepped_readC0 (s : State) (m : Slot) : s.markStepped.readC0 m = s.readC0 m := by
  simp only [State.readC0, State.markStepped_c0]
@[simp] theorem State.markStepped_status (s : State) : s.markStepped.status = s.status := State.markStepped_readC0 s _
@[simp] theorem State.markStepped_cause (s : State) : s.markStepped.cause = s.cause := State.markStepped_readC0 s _
@[simp] theorem State.markStepped_epc (s : State) : s.markStepped.epc = s.epc := State.markStepped_readC0 s _
@[simp] theorem State.markStepped_badVAddr (s : State) : s.markStepped.badVAddr = s.badVAddr := State.markStepped_readC0 s _
@[simp] theorem State.markStepped_busRead (s : State) (addr : Word) (wd : Width) : s.markStepped.busRead addr wd = s.busRead addr wd := by
  simp only [State.busRead, State.markStepped_ram, State.markStepped_bios, State.markStepped_timers]
@[simp] theorem State.markStepped_memRead (s : State) (addr : Word) (wd : Width) : s.markStepped.memRead addr wd = s.memRead addr wd := by
  simp only [State.memRead, State.markStepped_busRead]
@[simp] theorem State.markStepped_readReg (s : State) (q : Reg) : s.markStepped.readReg q = s.readReg q := rfl

/-! ## forceZero -/

@[simp] theorem State.forceZero_regs (s : State) : s.forceZero.regs = s.regs.set 0 0#32 := rfl
@[simp] theorem State.forceZero_hi (s : State) : s.forceZero.hi = s.hi := rfl
@[simp] theorem State.forceZero_lo (s : State) : s.forceZero.lo = s.lo := rfl
@[simp] theorem State.forceZero_pc (s : State) : s.forceZero.pc = s.pc := rfl
@[simp] theorem State.forceZero_nextPC (s : State) : s.forceZero.nextPC = s.nextPC := rfl
@[simp] theorem State.forceZero_inDelaySlot (s : State) : s.forceZero.inDelaySlot = s.inDelaySlot := rfl
@[simp] theorem State.forceZero_c0 (s : State) : s.forceZero.c0 = s.c0 := rfl
@[simp] theorem State.forceZero_ram (s : State) : s.forceZero.ram = s.ram := rfl
@[simp] theorem State.forceZero_bios (s : State) : s.forceZero.bios = s.bios := rfl
@[simp] theorem State.forceZero_timers (s : State) : s.forceZero.timers = s.timers := rfl
@[simp] theorem State.forceZero_gpu (s : State) : s.forceZero.gpu = s.gpu := rfl
@[simp] theorem State.forceZero_result (s : State) : s.forceZero.result = s.result := rfl
@[simp] theorem State.forceZero_diag (s : State) : s.forceZero.diag = s.diag := rfl
@[simp] theorem State.forceZero_render (s : State) : s.forceZero.render = s.render := rfl
@[simp] theorem State.forceZero_mips1Ext (s : State) : s.forceZero.mips1Ext = s.mips1Ext := rfl
@[simp] theorem State.forceZero_stepped (s : State) : s.forceZero.stepped = s.stepped := rfl
@[simp] theorem State.forceZero_readC0 (s : State) (m : Slot) : s.forceZero.readC0 m = s.readC0 m := by
  simp only [State.readC0, State.forceZero_c0]
@[simp] theorem State.forceZero_status (s : State) : s.forceZero.status = s.status := State.forceZero_readC0 s _
@[simp] theorem State.forceZero_cause (s : State) : s.forceZero.cause = s.cause := State.forceZero_readC0 s _
@[simp] theorem State.forceZero_epc (s : State) : s.forceZero.epc = s.epc := State.forceZero_readC0 s _
@[simp] theorem State.forceZero_badVAddr (s : State) : s.forceZero.badVAddr = s.badVAddr := State.forceZero_readC0 s _
@[simp] theorem State.forceZero_busRead (s : State) (addr : Word) (wd : Width) : s.forceZero.busRead addr wd = s.busRead addr wd := by
  simp only [State.busRead, State.forceZero_ram, State.forceZero_bios, State.forceZero_timers]
@[simp] theorem State.forceZero_memRead (s : State) (addr : Word) (wd : Width) : s.forceZero.memRead addr wd = s.memRead addr wd := by
  simp only [State.memRead, State.forceZero_busRead]

/-! ## tickTimer -/

@[simp] theorem State.tickTimer_regs (s : State) (i : Fin 3) : (s.tickTimer i).regs = s.regs := by unfold State.tickTimer; dsimp only; split <;> rfl
@[simp] theorem State.tickTimer_hi (s : State) (i : Fin 3) : (s.tickTimer i).hi = s.hi := by unfold State.tickTimer; dsimp only; split <;> rfl
@[simp] theorem State.tickTimer_lo (s : State) (i : Fin 3) : (s.tickTimer i).lo = s.lo := by unfold State.tickTimer; dsimp only; split <;> rfl
@[simp] theorem State.tickTimer_pc (s : State) (i : Fin 3) : (s.tickTimer i).pc = s.pc := by unfold State.tickTimer; dsimp only; split <;> rfl
@[simp] theorem State.tickTimer_nextPC (s : State) (i : Fin 3) : (s.tickTimer i).nextPC = s.nextPC := by unfold State.tickTimer; dsimp only; split <;> rfl
@[simp] theorem State.tickTimer_inDelaySlot (s : State) (i : Fin 3) : (s.tickTimer i).inDelaySlot = s.inDelaySlot := by unfold State.tickTimer; dsimp only; split <;> rfl
@[simp] theorem State.tickTimer_ram (s : State) (i : Fin 3) : (s.tickTimer i).ram = s.ram := by unfold State.tickTimer; dsimp only; split <;> rfl
@[simp] theorem State.tickTimer_bios (s : State) (i : Fin 3) : (s.tickTimer i).bios = s.bios := by unfold State.tickTimer; dsimp only; split <;> rfl
@[simp] theorem State.tickTimer_gpu (s : State) (i : Fin 3) : (s.tickTimer i).gpu = s.gpu := by unfold State.tickTimer; dsimp only; split <;> rfl
@[simp] theorem State.tickTimer_result (s : State) (i : Fin 3) : (s.tickTimer i).result = s.result := by unfold State.tickTimer; dsimp only; split <;> rfl
@[simp] theorem State.tickTimer_diag (s : State) (i : Fin 3) : (s.tickTimer i).diag = s.diag := by unfold State.tickTimer; dsimp only; split <;> rfl
@[simp] theorem State.tickTimer_render (s : State) (i : Fin 3) : (s.tickTimer i).render = s.render := by unfold State.tickTimer; dsimp only; split <;> rfl
@[simp] theorem State.tickTimer_mips1Ext (s : State) (i : Fin 3) : (s.tickTimer i).mips1Ext = s.mips1Ext := by unfold State.tickTimer; dsimp only; split <;> rfl
@[simp] theorem State.tickTimer_stepped (s : State) (i : Fin 3) : (s.tickTimer i).stepped = s.stepped := by unfold State.tickTimer; dsimp only; split <;> rfl
@[simp] theorem State.tickTimer_readReg (s : State) (i : Fin 3) (q : Reg) : (s.tickTimer i).readReg q = s.readReg q := by
  simp only [State.readReg, State.tickTimer_regs]

/-! ## tickTimers -/

@[simp] theorem State.tickTimers_regs (s : State) : s.tickTimers.regs = s.regs := by simp [State.tickTimers]
@[simp] theorem State.tickTimers_hi (s : State) : s.tickTimers.hi = s.hi := by simp [State.tickTimers]
@[simp] theorem State.tickTimers_lo (s : State) : s.tickTimers.lo = s.lo := by simp [State.tickTimers]
@[simp] theorem State.tickTimers_pc (s : State) : s.tickTimers.pc = s.pc := by simp [State.tickTimers]
@[simp] theorem State.tickTimers_nextPC (s : State) : s.tickTimers.nextPC = s.nextPC := by simp [State.tickTimers]
@[simp] theorem State.tickTimers_inDelaySlot (s : State) : s.tickTimers.inDelaySlot = s.inDelaySlot := by simp [State.tickTimers]
@[simp] theorem State.tickTimers_ram (s : State) : s.tickTimers.ram = s.ram := by simp [State.tickTimers]
@[simp] theorem State.tickTimers_bios (s : State) : s.tickTimers.bios = s.bios := by simp [State.tickTimers]
@[simp] theorem State.tickTimers_gpu (s : State) : s.tickTimers.gpu = s.gpu := by simp [State.tickTimers]
@[simp] theorem State.tickTimers_result (s : State) : s.tickTimers.result = s.result := by simp [State.tickTimers]
@[simp] theorem State.tickTimers_diag (s : State) : s.tickTimers.diag = s.diag := by simp [State.tickTimers]
@[simp] theorem State.tickTimers_render (s : State) : s.tickTimers.render = s.render := by simp [State.tickTimers]
@[simp] theorem State.tickTimers_mips1Ext (s : State) : s.tickTimers.mips1Ext = s.mips1Ext := by simp [State.tickTimers]
@[simp] theorem State.tickTimers_stepped (s : State) : s.tickTimers.stepped = s.stepped := by simp [State.tickTimers]
@[simp] theorem State.tickTimers_readReg (s : State) (q : Reg) : s.tickTimers.readReg q = s.readReg q := by
  simp only [State.readReg, State.tickTimers_regs]

/-! ## pollInterrupts -/

@[simp] theorem State.pollInterrupts_regs (s : State) (cia : Word) : (s.pollInterrupts cia).regs = s.regs := by unfold State.pollInterrupts; split <;> rfl
@[simp] theorem State.pollInterrupts_hi (s : State) (cia : Word) : (s.pollInterrupts cia).hi = s.hi := by unfold State.pollInterrupts; split <;> rfl
@[simp] theorem State.pollInterrupts_lo (s : State) (cia : Word) : (s.pollInterrupts cia).lo = s.lo := by unfold State.pollInterrupts; split <;> rfl
@[simp] theorem State.pollInterrupts_nextPC (s : State) (cia : Word) : (s.pollInterrupts cia).nextPC = s.nextPC := by unfold State.pollInterrupts; split <;> rfl
@[simp] theorem State.pollInterrupts_ram (s : State) (cia : Word) : (s.pollInterrupts cia).ram = s.ram := by unfold State.pollInterrupts; split <;> rfl
@[simp] theorem State.pollInterrupts_bios (s : State) (cia : Word) : (s.pollInterrupts cia).bios = s.bios := by unfold State.pollInterrupts; split <;> rfl
@[simp] theorem State.pollInterrupts_timers (s : State) (cia : Word) : (s.pollInterrupts cia).timers = s.timers := by unfold State.pollInterrupts; split <;> rfl
@[simp] theorem State.pollInterrupts_gpu (s : State) (cia : Word) : (s.pollInterrupts cia).gpu = s.gpu := by unfold State.pollInterrupts; split <;> rfl
@[simp] theorem State.pollInterrupts_diag (s : State) (cia : Word) : (s.pollInterrupts cia).diag = s.diag := by unfold State.pollInterrupts; split <;> rfl
@[simp] theorem State.pollInterrupts_render (s : State) (cia : Word) : (s.pollInterrupts cia).render = s.render := by unfold State.pollInterrupts; split <;> rfl
@[simp] theorem State.pollInterrupts_mips1Ext (s : State) (cia : Word) : (s.pollInterrupts cia).mips1Ext = s.mips1Ext := by unfold State.pollInterrupts; split <;> rfl
@[simp] theorem State.pollInterrupts_stepped (s : State) (cia : Word) : (s.pollInterrupts cia).stepped = s.stepped := by unfold State.pollInterrupts; split <;> rfl
@[simp] theorem State.pollInterrupts_readReg (s : State) (cia : Word) (q : Reg) : (s.pollInterrupts cia).readReg q = s.readReg q := by
  simp only [State.readReg, State.pollInterrupts_regs]
@[simp] theorem State.pollInterrupts_busRead (s : State) (cia : Word) (addr : Word) (wd : Width) : (s.pollInterrupts cia).busRead addr wd = s.busRead addr wd := by
  simp only [State.busRead, State.pollInterrupts_ram, State.pollInterrupts_bios, State.pollInterrupts_timers]
@[simp] theorem State.pollInterrupts_memRead (s : State) (cia : Word) (addr : Word) (wd : Width) : (s.pollInterrupts cia).memRead addr wd = s.memRead addr wd := by
  simp only [State.memRead, State.pollInterrupts_busRead]

/-! ## finishStep -/

@[simp] theorem State.finishStep_regs (s : State) (cia : Word) : (s.finishStep cia).regs = s.regs.set 0 0#32 := by simp [State.finishStep]
@[simp] theorem State.finishStep_hi (s : State) (cia : Word) : (s.finishStep cia).hi = s.hi := by simp [State.finishStep]
@[simp] theorem State.finishStep_lo (s : State) (cia : Word) : (s.finishStep cia).lo = s.lo := by simp [State.finishStep]
@[simp] theorem State.finishStep_nextPC (s : State) (cia : Word) : (s.finishStep cia).nextPC = s.nextPC := by simp [State.finishStep]
@[simp] theorem State.finishStep_ram (s : State) (cia : Word) : (s.finishStep cia).ram = s.ram := by simp [State.finishStep]
@[simp] theorem State.finishStep_bios (s : State) (cia : Word) : (s.finishStep cia).bios = s.bios := by simp [State.finishStep]
@[simp] theorem State.finishStep_gpu (s : State) (cia : Word) : (s.finishStep cia).gpu = s.gpu := by simp [State.finishStep]
@[simp] theorem State.finishStep_diag (s : State) (cia : Word) : (s.finishStep cia).diag = s.diag := by simp [State.finishStep]
@[simp] theorem State.finishStep_render (s : State) (cia : Word) : (s.finishStep cia).render = s.render := by simp [State.finishStep]
@[simp] theorem State.finishStep_mips1Ext (s : State) (cia : Word) : (s.finishStep cia).mips1Ext = s.mips1Ext := by simp [State.finishStep]
@[simp] theorem State.finishStep_stepped (s : State) (cia : Word) : (s.finishStep cia).stepped = true := by simp [State.finishStep]

/-! ## noteRead -/

@[simp] theorem State.noteRead_regs (s : State) (a : Word) (n : Width) : (s.noteRead a n).regs = s.regs := by unfold State.noteRead; split <;> rfl
@[simp] theorem State.noteRead_hi (s : State) (a : Word) (n : Width) : (s.noteRead a n).hi = s.hi := by unfold State.noteRead; split <;> rfl
@[simp] theorem State.noteRead_lo (s : State) (a : Word) (n : Width) : (s.noteRead a n).lo = s.lo := by unfold State.noteRead; split <;> rfl
@[simp] theorem State.noteRead_pc (s : State) (a : Word) (n : Width) : (s.noteRead a n).pc = s.pc := by unfold State.noteRead; split <;> rfl
@[simp] theorem State.noteRead_nextPC (s : State) (a : Word) (n : Width) : (s.noteRead a n).nextPC = s.nextPC := by unfold State.noteRead; split <;> rfl
@[simp] theorem State.noteRead_inDelaySlot (s : State) (a : Word) (n : Width) : (s.noteRead a n).inDelaySlot = s.inDelaySlot := by unfold State.noteRead; split <;> rfl
@[simp] theorem State.noteRead_c0 (s : State) (a : Word) (n : Width) : (s.noteRead a n).c0 = s.c0 := by unfold State.noteRead; split <;> rfl
@[simp] theorem State.noteRead_ram (s : State) (a : Word) (n : Width) : (s.noteRead a n).ram = s.ram := by unfold State.noteRead; split <;> rfl
@[simp] theorem State.noteRead_bios (s : State) (a : Word) (n : Width) : (s.noteRead a n).bios = s.bios := by unfold State.noteRead; split <;> rfl
@[simp] theorem State.noteRead_timers (s : State) (a : Word) (n : Width) : (s.noteRead a n).timers = s.timers := by unfold State.noteRead; split <;> rfl
@[simp] theorem State.noteRead_gpu (s : State) (a : Word) (n : Width) : (s.noteRead a n).gpu = s.gpu := by unfold State.noteRead; split <;> rfl
@[simp] theorem State.noteRead_result (s : State) (a : Word) (n : Width) : (s.noteRead a n).result = s.result := by unfold State.noteRead; split <;> rfl
@[simp] theorem State.noteRead_render (s : State) (a : Word) (n : Width) : (s.noteRead a n).render = s.render := by unfold State.noteRead; split <;> rfl
@[simp] theorem State.noteRead_mips1Ext (s : State) (a : Word) (n : Width) : (s.noteRead a n).mips1Ext = s.mips1Ext := by unfold State.noteRead; split <;> rfl
@[simp] theorem State.noteRead_stepped (s : State) (a : Word) (n : Width) : (s.noteRead a n).stepped = s.stepped := by unfold State.noteRead; split <;> rfl
@[simp] theorem State.noteRead_readReg (s : State) (a : Word) (n : Width) (q : Reg) : (s.noteRead a n).readReg q = s.readReg q := by
  simp only [State.readReg, State.noteRead_regs]
@[simp] theorem State.noteRead_readC0 (s : State) (a : Word) (n : Width) (m : Slot) : (s.noteRead a n).readC0 m = s.readC0 m := by
  simp only [State.readC0, State.noteRead_c0]
@[simp] theorem State.noteRead_status (s : State) (a : Word) (n : Width) : (s.noteRead a n).status = s.status := State.noteRead_readC0 s a n _
@[simp] theorem State.noteRead_cause (s : State) (a : Word) (n : Width) : (s.noteRead a n).cause = s.cause := State.noteRead_readC0 s a n _
@[simp] theorem State.noteRead_epc (s : State) (a : Word) (n : Width) : (s.noteRead a n).epc = s.epc := State.noteRead_readC0 s a n _
@[simp] theorem State.noteRead_badVAddr (s : State) (a : Word) (n : Width) : (s.noteRead a n).badVAddr = s.badVAddr := State.noteRead_readC0 s a n _
@[simp] theorem State.noteRead_busRead (s : State) (a : Word) (n : Width) (addr : Word) (wd : Width) : (s.noteRead a n).busRead addr wd = s.busRead addr wd := by
  simp only [State.busRead, State.noteRead_ram, State.noteRead_bios, State.noteRead_timers]
@[simp] theorem State.noteRead_memRead (s : State) (a : Word) (n : Width) (addr : Word) (wd : Width) : (s.noteRead a n).memRead addr wd = s.memRead addr wd := by
  simp only [State.memRead, State.noteRead_busRead]

/-! ## fetched -/

@[simp] theorem State.fetched_regs (s : State) : s.fetched.regs = s.regs := by simp [State.fetched]
@[simp] theorem State.fetched_hi (s : State) : s.fetched.hi = s.hi := by simp [State.fetched]
@[simp] theorem State.fetched_lo (s : State) : s.fetched.lo = s.lo := by simp [State.fetched]
@[simp] theorem State.fetched_pc (s : State) : s.fetched.pc = s.pc := by simp [State.fetched]
@[simp] theorem State.fetched_nextPC (s : State) : s.fetched.nextPC = s.nextPC := by simp [State.fetched]
@[simp] theorem State.fetched_inDelaySlot (s : State) : s.fetched.inDelaySlot = s.inDelaySlot := by simp [State.fetched]
@[simp] theorem State.fetched_c0 (s : State) : s.fetched.c0 = s.c0 := by simp [State.fetched]
@[simp] theorem State.fetched_ram (s : State) : s.fetched.ram = s.ram := by simp [State.fetched]
@[simp] theorem State.fetched_bios (s : State) : s.fetched.bios = s.bios := by simp [State.fetched]
@[simp] theorem State.fetched_timers (s : State) : s.fetched.timers = s.timers := by simp [State.fetched]
@[simp] theorem State.fetched_gpu (s : State) : s.fetched.gpu = s.gpu := by simp [State.fetched]
@[simp] theorem State.fetched_result (s : State) : s.fetched.result = s.result := by simp [State.fetched]
@[simp] theorem State.fetched_render (s : State) : s.fetched.render = s.render := by simp [State.fetched]
@[simp] theorem State.fetched_mips1Ext (s : State) : s.fetched.mips1Ext = s.mips1Ext := by simp [State.fetched]
@[simp] theorem State.fetched_stepped (s : State) : s.fetched.stepped = s.stepped := by simp [State.fetched]
@[simp] theorem State.fetched_readReg (s : State) (q : Reg) : s.fetched.readReg q = s.readReg q := by
  simp only [State.readReg, State.fetched_regs]
@[simp] theorem State.fetched_readC0 (s : State) (m : Slot) : s.fetched.readC0 m = s.readC0 m := by
  simp only [State.readC0, State.fetched_c0]
@[simp] theorem State.fetched_status (s : State) : s.fetched.status = s.status := State.fetched_readC0 s _
@[simp] theorem State.fetched_cause (s : State) : s.fetched.cause = s.cause := State.fetched_readC0 s _
@[simp] theorem State.fetched_epc (s : State) : s.fetched.epc = s.epc := State.fetched_readC0 s _
@[simp] theorem State.fetched_badVAddr (s : State) : s.fetched.badVAddr = s.badVAddr := State.fetched_readC0 s _
@[simp] theorem State.fetched_busRead (s : State) (addr : Word) (wd : Width) : s.fetched.busRead addr wd = s.busRead addr wd := by
  simp only [State.busRead, State.fetched_ram, State.fetched_bios, State.fetched_timers]
@[simp] theorem State.fetched_memRead (s : State) (addr : Word) (wd : Width) : s.fetched.memRead addr wd = s.memRead addr wd := by
  simp only [State.memRead, State.fetched_busRead]

/-! ## Registers -/

theorem State.readReg_zero (s : State) : s.readReg 0 = 0#32 := rfl

theorem State.readReg_writeReg (s : State) (r q : Reg) (v : Word) :
    (s.writeReg r v).readReg q = if q = r then (if r = 0 then 0#32 else v) else s.readReg q := by
  unfold State.writeReg State.readReg
  by_cases hr : r = 0
  · subst hr
    by_cases hq : q = 0 <;> simp [hq]
  · by_cases hq : q = r
    · subst hq; simp [hr]
    · have hv : ¬r.val = q.val := fun e => hq (Fin.ext e.symm)
      simp [hr, hq, hv]

@[simp] theorem State.readReg_writeReg_self (s : State) (r : Reg) (v : Word) :
    (s.writeReg r v).readReg r = if r = 0 then 0#32 else v := by rw [State.readReg_writeReg, if_pos rfl]

theorem State.readReg_writeReg_ne (s : State) {r q : Reg} (v : Word) (h : q ≠ r) :
    (s.writeReg r v).readReg q = s.readReg q := by rw [State.readReg_writeReg, if_neg h]

@[simp] theorem State.forceZero_readReg (s : State) (q : Reg) : s.forceZero.readReg q = s.readReg q := by
  unfold State.forceZero State.readReg
  by_cases hq : q = 0
  · simp [hq]
  · have hv : ¬(0 : Nat) = q.val := fun e => hq (Fin.ext e.symm)
    simp [hq, hv]

@[simp] theorem State.finishStep_readReg (s : State) (cia : Word) (q : Reg) :
    (s.finishStep cia).readReg q = s.readReg q := by simp [State.finishStep]

/-! ## COP0 slots -/

theorem State.readC0_writeC0 (s : State) (n m : Slot) (v : Word) :
    (s.writeC0 n v).readC0 m = if m = n then v else s.readC0 m := by
  unfold State.writeC0 State.readC0
  by_cases h : m = n
  · subst h; simp
  · have hv : ¬n.val = m.val := fun e => h (Fin.ext e.symm)
    simp [h, hv]

@[simp] theorem State.readC0_writeC0_self (s : State) (n : Slot) (v : Word) : (s.writeC0 n v).readC0 n = v := by
  rw [State.readC0_writeC0, if_pos rfl]

theorem State.readC0_setIRQ (s : State) (line : Fin 8) (b : Bool) (m : Slot) :
    (s.setIRQ line b).readC0 m = if m = slotCause then setBit s.cause (8 + line.val) b else s.readC0 m :=
  State.readC0_writeC0 s slotCause m _

theorem State.readC0_setExl (s : State) (b : Bool) (m : Slot) :
    (s.setExl b).readC0 m = if m = slotStatus then setBit s.status 1 b else s.readC0 m :=
  State.readC0_writeC0 s slotStatus m _

/-- Exception entry, slot by slot (60_exceptions.md R150, R152, R154). -/
theorem State.readC0_enter (s : State) (e : Exc) (epc bad : Word) (m : Slot) :
    (s.enter e epc bad).readC0 m =
      if m = slotEPC then epc
      else if m = slotCause then BitVec.ofNat 32 e.code <<< 2
      else if m = slotStatus then setBit s.status 1 true
      else if m = slotBadVAddr ∧ e.isAddressError = true then bad
      else s.readC0 m := by
  have hs : ((s.writeC0 slotEPC epc).writeC0 slotCause (BitVec.ofNat 32 e.code <<< 2)).status = s.status := by
    simp only [State.status, State.readC0_writeC0]; rfl
  have key : (s.enter e epc bad).readC0 m =
      (if e.isAddressError then
        (((s.writeC0 slotEPC epc).writeC0 slotCause (BitVec.ofNat 32 e.code <<< 2)).setExl true).writeC0 slotBadVAddr bad
       else (((s.writeC0 slotEPC epc).writeC0 slotCause (BitVec.ofNat 32 e.code <<< 2)).setExl true)).readC0 m := rfl
  rw [key]
  have h1 : slotEPC ≠ slotCause := by decide
  have h2 : slotEPC ≠ slotStatus := by decide
  have h3 : slotEPC ≠ slotBadVAddr := by decide
  have h4 : slotCause ≠ slotStatus := by decide
  have h5 : slotCause ≠ slotBadVAddr := by decide
  have h6 : slotStatus ≠ slotBadVAddr := by decide
  cases e.isAddressError
  all_goals
    simp only [if_true, if_false, Bool.false_eq_true, State.readC0_writeC0, State.readC0_setExl, hs, and_false, and_true]
    by_cases a1 : m = slotEPC
    · simp [a1, h1, h2, h3]
    · by_cases a2 : m = slotCause
      · simp [a2, h1.symm, h4, h5]
      · by_cases a3 : m = slotStatus
        · simp [a3, h2.symm, h4.symm, h6]
        · simp [a1, a2, a3]

theorem State.readC0_exceptionReturn (s : State) (m : Slot) :
    s.exceptionReturn.readC0 m = if m = slotStatus then setBit s.status 1 false else s.readC0 m :=
  State.readC0_setExl s false m

/-! ## Bits -/

theorem setBit_getLsbD (w : Word) (i j : Nat) (b : Bool) (hj : j < 32) :
    (setBit w i b).getLsbD j = if j = i then b else w.getLsbD j := by
  unfold setBit
  cases b <;> by_cases h : j = i
  · subst h; simp [hj]
  · by_cases hlt : j < i <;> simp [h, hj, hlt]
    intro _; omega
  · subst h; simp [hj]
  · by_cases hlt : j < i <;> simp [h, hj, hlt]
    intro _; omega

end Sys2Proof.Machine
end

