-- ==== Sys2Proof/Laws/Gpu.lean ====
section
/-! SUPPORT. What the GPU's two ports and a bus write leave alone: everything but the GPU's own state, the output
streams and Cause (20_memory.md R45; 62_gpu.md R196, R211), and for a bus write RAM and the timers. -/

namespace Sys2Proof.Machine

/-! ## gpuDispatch -/

@[simp] theorem State.gpuDispatch_regs (s : State) (qs : List Word) : (s.gpuDispatch qs).regs = s.regs := by
  unfold State.gpuDispatch; dsimp only
  repeat' split
  all_goals rfl
@[simp] theorem State.gpuDispatch_hi (s : State) (qs : List Word) : (s.gpuDispatch qs).hi = s.hi := by
  unfold State.gpuDispatch; dsimp only
  repeat' split
  all_goals rfl
@[simp] theorem State.gpuDispatch_lo (s : State) (qs : List Word) : (s.gpuDispatch qs).lo = s.lo := by
  unfold State.gpuDispatch; dsimp only
  repeat' split
  all_goals rfl
@[simp] theorem State.gpuDispatch_pc (s : State) (qs : List Word) : (s.gpuDispatch qs).pc = s.pc := by
  unfold State.gpuDispatch; dsimp only
  repeat' split
  all_goals rfl
@[simp] theorem State.gpuDispatch_nextPC (s : State) (qs : List Word) : (s.gpuDispatch qs).nextPC = s.nextPC := by
  unfold State.gpuDispatch; dsimp only
  repeat' split
  all_goals rfl
@[simp] theorem State.gpuDispatch_inDelaySlot (s : State) (qs : List Word) : (s.gpuDispatch qs).inDelaySlot = s.inDelaySlot := by
  unfold State.gpuDispatch; dsimp only
  repeat' split
  all_goals rfl
@[simp] theorem State.gpuDispatch_ram (s : State) (qs : List Word) : (s.gpuDispatch qs).ram = s.ram := by
  unfold State.gpuDispatch; dsimp only
  repeat' split
  all_goals rfl
@[simp] theorem State.gpuDispatch_bios (s : State) (qs : List Word) : (s.gpuDispatch qs).bios = s.bios := by
  unfold State.gpuDispatch; dsimp only
  repeat' split
  all_goals rfl
@[simp] theorem State.gpuDispatch_timers (s : State) (qs : List Word) : (s.gpuDispatch qs).timers = s.timers := by
  unfold State.gpuDispatch; dsimp only
  repeat' split
  all_goals rfl
@[simp] theorem State.gpuDispatch_result (s : State) (qs : List Word) : (s.gpuDispatch qs).result = s.result := by
  unfold State.gpuDispatch; dsimp only
  repeat' split
  all_goals rfl
@[simp] theorem State.gpuDispatch_mips1Ext (s : State) (qs : List Word) : (s.gpuDispatch qs).mips1Ext = s.mips1Ext := by
  unfold State.gpuDispatch; dsimp only
  repeat' split
  all_goals rfl
@[simp] theorem State.gpuDispatch_stepped (s : State) (qs : List Word) : (s.gpuDispatch qs).stepped = s.stepped := by
  unfold State.gpuDispatch; dsimp only
  repeat' split
  all_goals rfl
@[simp] theorem State.gpuDispatch_readReg (s : State) (qs : List Word) (q : Reg) : (s.gpuDispatch qs).readReg q = s.readReg q := by
  simp only [State.readReg, State.gpuDispatch_regs]
@[simp] theorem State.gpuDispatch_memRead (s : State) (qs : List Word) (a : Word) (wd : Width) :
    (s.gpuDispatch qs).memRead a wd = s.memRead a wd := by
  simp only [State.memRead, State.busRead, State.gpuDispatch_ram, State.gpuDispatch_bios, State.gpuDispatch_timers]

/-! ## completeTransfer -/

@[simp] theorem State.completeTransfer_regs (s : State) : s.completeTransfer.regs = s.regs := by
  unfold State.completeTransfer; dsimp only; split <;> rfl
@[simp] theorem State.completeTransfer_hi (s : State) : s.completeTransfer.hi = s.hi := by
  unfold State.completeTransfer; dsimp only; split <;> rfl
@[simp] theorem State.completeTransfer_lo (s : State) : s.completeTransfer.lo = s.lo := by
  unfold State.completeTransfer; dsimp only; split <;> rfl
@[simp] theorem State.completeTransfer_pc (s : State) : s.completeTransfer.pc = s.pc := by
  unfold State.completeTransfer; dsimp only; split <;> rfl
@[simp] theorem State.completeTransfer_nextPC (s : State) : s.completeTransfer.nextPC = s.nextPC := by
  unfold State.completeTransfer; dsimp only; split <;> rfl
@[simp] theorem State.completeTransfer_inDelaySlot (s : State) : s.completeTransfer.inDelaySlot = s.inDelaySlot := by
  unfold State.completeTransfer; dsimp only; split <;> rfl
@[simp] theorem State.completeTransfer_ram (s : State) : s.completeTransfer.ram = s.ram := by
  unfold State.completeTransfer; dsimp only; split <;> rfl
@[simp] theorem State.completeTransfer_bios (s : State) : s.completeTransfer.bios = s.bios := by
  unfold State.completeTransfer; dsimp only; split <;> rfl
@[simp] theorem State.completeTransfer_timers (s : State) : s.completeTransfer.timers = s.timers := by
  unfold State.completeTransfer; dsimp only; split <;> rfl
@[simp] theorem State.completeTransfer_result (s : State) : s.completeTransfer.result = s.result := by
  unfold State.completeTransfer; dsimp only; split <;> rfl
@[simp] theorem State.completeTransfer_mips1Ext (s : State) : s.completeTransfer.mips1Ext = s.mips1Ext := by
  unfold State.completeTransfer; dsimp only; split <;> rfl
@[simp] theorem State.completeTransfer_stepped (s : State) : s.completeTransfer.stepped = s.stepped := by
  unfold State.completeTransfer; dsimp only; split <;> rfl
@[simp] theorem State.completeTransfer_readReg (s : State) (q : Reg) : s.completeTransfer.readReg q = s.readReg q := by
  simp only [State.readReg, State.completeTransfer_regs]
@[simp] theorem State.completeTransfer_memRead (s : State) (a : Word) (wd : Width) :
    s.completeTransfer.memRead a wd = s.memRead a wd := by
  simp only [State.memRead, State.busRead, State.completeTransfer_ram, State.completeTransfer_bios, State.completeTransfer_timers]

/-! ## gpuIdle -/

@[simp] theorem State.gpuIdle_regs (s : State) (w : Word) : (s.gpuIdle w).regs = s.regs := by
  unfold State.gpuIdle; dsimp only
  split
  · rfl
  · split
    · simp
    · rfl
@[simp] theorem State.gpuIdle_hi (s : State) (w : Word) : (s.gpuIdle w).hi = s.hi := by
  unfold State.gpuIdle; dsimp only
  split
  · rfl
  · split
    · simp
    · rfl
@[simp] theorem State.gpuIdle_lo (s : State) (w : Word) : (s.gpuIdle w).lo = s.lo := by
  unfold State.gpuIdle; dsimp only
  split
  · rfl
  · split
    · simp
    · rfl
@[simp] theorem State.gpuIdle_pc (s : State) (w : Word) : (s.gpuIdle w).pc = s.pc := by
  unfold State.gpuIdle; dsimp only
  split
  · rfl
  · split
    · simp
    · rfl
@[simp] theorem State.gpuIdle_nextPC (s : State) (w : Word) : (s.gpuIdle w).nextPC = s.nextPC := by
  unfold State.gpuIdle; dsimp only
  split
  · rfl
  · split
    · simp
    · rfl
@[simp] theorem State.gpuIdle_inDelaySlot (s : State) (w : Word) : (s.gpuIdle w).inDelaySlot = s.inDelaySlot := by
  unfold State.gpuIdle; dsimp only
  split
  · rfl
  · split
    · simp
    · rfl
@[simp] theorem State.gpuIdle_ram (s : State) (w : Word) : (s.gpuIdle w).ram = s.ram := by
  unfold State.gpuIdle; dsimp only
  split
  · rfl
  · split
    · simp
    · rfl
@[simp] theorem State.gpuIdle_bios (s : State) (w : Word) : (s.gpuIdle w).bios = s.bios := by
  unfold State.gpuIdle; dsimp only
  split
  · rfl
  · split
    · simp
    · rfl
@[simp] theorem State.gpuIdle_timers (s : State) (w : Word) : (s.gpuIdle w).timers = s.timers := by
  unfold State.gpuIdle; dsimp only
  split
  · rfl
  · split
    · simp
    · rfl
@[simp] theorem State.gpuIdle_result (s : State) (w : Word) : (s.gpuIdle w).result = s.result := by
  unfold State.gpuIdle; dsimp only
  split
  · rfl
  · split
    · simp
    · rfl
@[simp] theorem State.gpuIdle_mips1Ext (s : State) (w : Word) : (s.gpuIdle w).mips1Ext = s.mips1Ext := by
  unfold State.gpuIdle; dsimp only
  split
  · rfl
  · split
    · simp
    · rfl
@[simp] theorem State.gpuIdle_stepped (s : State) (w : Word) : (s.gpuIdle w).stepped = s.stepped := by
  unfold State.gpuIdle; dsimp only
  split
  · rfl
  · split
    · simp
    · rfl
@[simp] theorem State.gpuIdle_readReg (s : State) (w : Word) (q : Reg) : (s.gpuIdle w).readReg q = s.readReg q := by
  simp only [State.readReg, State.gpuIdle_regs]
@[simp] theorem State.gpuIdle_memRead (s : State) (w : Word) (a : Word) (wd : Width) :
    (s.gpuIdle w).memRead a wd = s.memRead a wd := by
  simp only [State.memRead, State.busRead, State.gpuIdle_ram, State.gpuIdle_bios, State.gpuIdle_timers]

/-! ## gpuAwaiting -/

@[simp] theorem State.gpuAwaiting_regs (s : State) (w : Word) : (s.gpuAwaiting w).regs = s.regs := by
  unfold State.gpuAwaiting; dsimp only
  split
  · split
    · simp
    · rfl
  · rfl
@[simp] theorem State.gpuAwaiting_hi (s : State) (w : Word) : (s.gpuAwaiting w).hi = s.hi := by
  unfold State.gpuAwaiting; dsimp only
  split
  · split
    · simp
    · rfl
  · rfl
@[simp] theorem State.gpuAwaiting_lo (s : State) (w : Word) : (s.gpuAwaiting w).lo = s.lo := by
  unfold State.gpuAwaiting; dsimp only
  split
  · split
    · simp
    · rfl
  · rfl
@[simp] theorem State.gpuAwaiting_pc (s : State) (w : Word) : (s.gpuAwaiting w).pc = s.pc := by
  unfold State.gpuAwaiting; dsimp only
  split
  · split
    · simp
    · rfl
  · rfl
@[simp] theorem State.gpuAwaiting_nextPC (s : State) (w : Word) : (s.gpuAwaiting w).nextPC = s.nextPC := by
  unfold State.gpuAwaiting; dsimp only
  split
  · split
    · simp
    · rfl
  · rfl
@[simp] theorem State.gpuAwaiting_inDelaySlot (s : State) (w : Word) : (s.gpuAwaiting w).inDelaySlot = s.inDelaySlot := by
  unfold State.gpuAwaiting; dsimp only
  split
  · split
    · simp
    · rfl
  · rfl
@[simp] theorem State.gpuAwaiting_ram (s : State) (w : Word) : (s.gpuAwaiting w).ram = s.ram := by
  unfold State.gpuAwaiting; dsimp only
  split
  · split
    · simp
    · rfl
  · rfl
@[simp] theorem State.gpuAwaiting_bios (s : State) (w : Word) : (s.gpuAwaiting w).bios = s.bios := by
  unfold State.gpuAwaiting; dsimp only
  split
  · split
    · simp
    · rfl
  · rfl
@[simp] theorem State.gpuAwaiting_timers (s : State) (w : Word) : (s.gpuAwaiting w).timers = s.timers := by
  unfold State.gpuAwaiting; dsimp only
  split
  · split
    · simp
    · rfl
  · rfl
@[simp] theorem State.gpuAwaiting_result (s : State) (w : Word) : (s.gpuAwaiting w).result = s.result := by
  unfold State.gpuAwaiting; dsimp only
  split
  · split
    · simp
    · rfl
  · rfl
@[simp] theorem State.gpuAwaiting_mips1Ext (s : State) (w : Word) : (s.gpuAwaiting w).mips1Ext = s.mips1Ext := by
  unfold State.gpuAwaiting; dsimp only
  split
  · split
    · simp
    · rfl
  · rfl
@[simp] theorem State.gpuAwaiting_stepped (s : State) (w : Word) : (s.gpuAwaiting w).stepped = s.stepped := by
  unfold State.gpuAwaiting; dsimp only
  split
  · split
    · simp
    · rfl
  · rfl
@[simp] theorem State.gpuAwaiting_readReg (s : State) (w : Word) (q : Reg) : (s.gpuAwaiting w).readReg q = s.readReg q := by
  simp only [State.readReg, State.gpuAwaiting_regs]
@[simp] theorem State.gpuAwaiting_memRead (s : State) (w : Word) (a : Word) (wd : Width) :
    (s.gpuAwaiting w).memRead a wd = s.memRead a wd := by
  simp only [State.memRead, State.busRead, State.gpuAwaiting_ram, State.gpuAwaiting_bios, State.gpuAwaiting_timers]

/-! ## gpuTransferring -/

@[simp] theorem State.gpuTransferring_regs (s : State) (w : Word) : (s.gpuTransferring w).regs = s.regs := by
  unfold State.gpuTransferring; dsimp only
  split
  · simp
  · rfl
@[simp] theorem State.gpuTransferring_hi (s : State) (w : Word) : (s.gpuTransferring w).hi = s.hi := by
  unfold State.gpuTransferring; dsimp only
  split
  · simp
  · rfl
@[simp] theorem State.gpuTransferring_lo (s : State) (w : Word) : (s.gpuTransferring w).lo = s.lo := by
  unfold State.gpuTransferring; dsimp only
  split
  · simp
  · rfl
@[simp] theorem State.gpuTransferring_pc (s : State) (w : Word) : (s.gpuTransferring w).pc = s.pc := by
  unfold State.gpuTransferring; dsimp only
  split
  · simp
  · rfl
@[simp] theorem State.gpuTransferring_nextPC (s : State) (w : Word) : (s.gpuTransferring w).nextPC = s.nextPC := by
  unfold State.gpuTransferring; dsimp only
  split
  · simp
  · rfl
@[simp] theorem State.gpuTransferring_inDelaySlot (s : State) (w : Word) : (s.gpuTransferring w).inDelaySlot = s.inDelaySlot := by
  unfold State.gpuTransferring; dsimp only
  split
  · simp
  · rfl
@[simp] theorem State.gpuTransferring_ram (s : State) (w : Word) : (s.gpuTransferring w).ram = s.ram := by
  unfold State.gpuTransferring; dsimp only
  split
  · simp
  · rfl
@[simp] theorem State.gpuTransferring_bios (s : State) (w : Word) : (s.gpuTransferring w).bios = s.bios := by
  unfold State.gpuTransferring; dsimp only
  split
  · simp
  · rfl
@[simp] theorem State.gpuTransferring_timers (s : State) (w : Word) : (s.gpuTransferring w).timers = s.timers := by
  unfold State.gpuTransferring; dsimp only
  split
  · simp
  · rfl
@[simp] theorem State.gpuTransferring_result (s : State) (w : Word) : (s.gpuTransferring w).result = s.result := by
  unfold State.gpuTransferring; dsimp only
  split
  · simp
  · rfl
@[simp] theorem State.gpuTransferring_mips1Ext (s : State) (w : Word) : (s.gpuTransferring w).mips1Ext = s.mips1Ext := by
  unfold State.gpuTransferring; dsimp only
  split
  · simp
  · rfl
@[simp] theorem State.gpuTransferring_stepped (s : State) (w : Word) : (s.gpuTransferring w).stepped = s.stepped := by
  unfold State.gpuTransferring; dsimp only
  split
  · simp
  · rfl
@[simp] theorem State.gpuTransferring_readReg (s : State) (w : Word) (q : Reg) : (s.gpuTransferring w).readReg q = s.readReg q := by
  simp only [State.readReg, State.gpuTransferring_regs]
@[simp] theorem State.gpuTransferring_memRead (s : State) (w : Word) (a : Word) (wd : Width) :
    (s.gpuTransferring w).memRead a wd = s.memRead a wd := by
  simp only [State.memRead, State.busRead, State.gpuTransferring_ram, State.gpuTransferring_bios, State.gpuTransferring_timers]

/-! ## gpuWriteCommand -/

@[simp] theorem State.gpuWriteCommand_regs (s : State) (w : Word) : (s.gpuWriteCommand w).regs = s.regs := by
  unfold State.gpuWriteCommand; split <;> simp
@[simp] theorem State.gpuWriteCommand_hi (s : State) (w : Word) : (s.gpuWriteCommand w).hi = s.hi := by
  unfold State.gpuWriteCommand; split <;> simp
@[simp] theorem State.gpuWriteCommand_lo (s : State) (w : Word) : (s.gpuWriteCommand w).lo = s.lo := by
  unfold State.gpuWriteCommand; split <;> simp
@[simp] theorem State.gpuWriteCommand_pc (s : State) (w : Word) : (s.gpuWriteCommand w).pc = s.pc := by
  unfold State.gpuWriteCommand; split <;> simp
@[simp] theorem State.gpuWriteCommand_nextPC (s : State) (w : Word) : (s.gpuWriteCommand w).nextPC = s.nextPC := by
  unfold State.gpuWriteCommand; split <;> simp
@[simp] theorem State.gpuWriteCommand_inDelaySlot (s : State) (w : Word) : (s.gpuWriteCommand w).inDelaySlot = s.inDelaySlot := by
  unfold State.gpuWriteCommand; split <;> simp
@[simp] theorem State.gpuWriteCommand_ram (s : State) (w : Word) : (s.gpuWriteCommand w).ram = s.ram := by
  unfold State.gpuWriteCommand; split <;> simp
@[simp] theorem State.gpuWriteCommand_bios (s : State) (w : Word) : (s.gpuWriteCommand w).bios = s.bios := by
  unfold State.gpuWriteCommand; split <;> simp
@[simp] theorem State.gpuWriteCommand_timers (s : State) (w : Word) : (s.gpuWriteCommand w).timers = s.timers := by
  unfold State.gpuWriteCommand; split <;> simp
@[simp] theorem State.gpuWriteCommand_result (s : State) (w : Word) : (s.gpuWriteCommand w).result = s.result := by
  unfold State.gpuWriteCommand; split <;> simp
@[simp] theorem State.gpuWriteCommand_mips1Ext (s : State) (w : Word) : (s.gpuWriteCommand w).mips1Ext = s.mips1Ext := by
  unfold State.gpuWriteCommand; split <;> simp
@[simp] theorem State.gpuWriteCommand_stepped (s : State) (w : Word) : (s.gpuWriteCommand w).stepped = s.stepped := by
  unfold State.gpuWriteCommand; split <;> simp
@[simp] theorem State.gpuWriteCommand_readReg (s : State) (w : Word) (q : Reg) : (s.gpuWriteCommand w).readReg q = s.readReg q := by
  simp only [State.readReg, State.gpuWriteCommand_regs]
@[simp] theorem State.gpuWriteCommand_memRead (s : State) (w : Word) (a : Word) (wd : Width) :
    (s.gpuWriteCommand w).memRead a wd = s.memRead a wd := by
  simp only [State.memRead, State.busRead, State.gpuWriteCommand_ram, State.gpuWriteCommand_bios, State.gpuWriteCommand_timers]

/-! ## gpuWriteControl -/

@[simp] theorem State.gpuWriteControl_regs (s : State) (w : Word) : (s.gpuWriteControl w).regs = s.regs := by
  unfold State.gpuWriteControl; repeat' split
  all_goals rfl
@[simp] theorem State.gpuWriteControl_hi (s : State) (w : Word) : (s.gpuWriteControl w).hi = s.hi := by
  unfold State.gpuWriteControl; repeat' split
  all_goals rfl
@[simp] theorem State.gpuWriteControl_lo (s : State) (w : Word) : (s.gpuWriteControl w).lo = s.lo := by
  unfold State.gpuWriteControl; repeat' split
  all_goals rfl
@[simp] theorem State.gpuWriteControl_pc (s : State) (w : Word) : (s.gpuWriteControl w).pc = s.pc := by
  unfold State.gpuWriteControl; repeat' split
  all_goals rfl
@[simp] theorem State.gpuWriteControl_nextPC (s : State) (w : Word) : (s.gpuWriteControl w).nextPC = s.nextPC := by
  unfold State.gpuWriteControl; repeat' split
  all_goals rfl
@[simp] theorem State.gpuWriteControl_inDelaySlot (s : State) (w : Word) : (s.gpuWriteControl w).inDelaySlot = s.inDelaySlot := by
  unfold State.gpuWriteControl; repeat' split
  all_goals rfl
@[simp] theorem State.gpuWriteControl_ram (s : State) (w : Word) : (s.gpuWriteControl w).ram = s.ram := by
  unfold State.gpuWriteControl; repeat' split
  all_goals rfl
@[simp] theorem State.gpuWriteControl_bios (s : State) (w : Word) : (s.gpuWriteControl w).bios = s.bios := by
  unfold State.gpuWriteControl; repeat' split
  all_goals rfl
@[simp] theorem State.gpuWriteControl_timers (s : State) (w : Word) : (s.gpuWriteControl w).timers = s.timers := by
  unfold State.gpuWriteControl; repeat' split
  all_goals rfl
@[simp] theorem State.gpuWriteControl_result (s : State) (w : Word) : (s.gpuWriteControl w).result = s.result := by
  unfold State.gpuWriteControl; repeat' split
  all_goals rfl
@[simp] theorem State.gpuWriteControl_mips1Ext (s : State) (w : Word) : (s.gpuWriteControl w).mips1Ext = s.mips1Ext := by
  unfold State.gpuWriteControl; repeat' split
  all_goals rfl
@[simp] theorem State.gpuWriteControl_stepped (s : State) (w : Word) : (s.gpuWriteControl w).stepped = s.stepped := by
  unfold State.gpuWriteControl; repeat' split
  all_goals rfl
@[simp] theorem State.gpuWriteControl_readReg (s : State) (w : Word) (q : Reg) : (s.gpuWriteControl w).readReg q = s.readReg q := by
  simp only [State.readReg, State.gpuWriteControl_regs]
@[simp] theorem State.gpuWriteControl_memRead (s : State) (w : Word) (a : Word) (wd : Width) :
    (s.gpuWriteControl w).memRead a wd = s.memRead a wd := by
  simp only [State.memRead, State.busRead, State.gpuWriteControl_ram, State.gpuWriteControl_bios, State.gpuWriteControl_timers]

/-! ## memWrite -/

@[simp] theorem State.memWrite_regs (s : State) (addr : Word) (n : Width) (v : Word) : (s.memWrite addr n v).regs = s.regs := by
  unfold State.memWrite; split
  · rfl
  · rfl
  · split <;> rfl
  · split <;> simp
  · split <;> simp
  · rfl
@[simp] theorem State.memWrite_hi (s : State) (addr : Word) (n : Width) (v : Word) : (s.memWrite addr n v).hi = s.hi := by
  unfold State.memWrite; split
  · rfl
  · rfl
  · split <;> rfl
  · split <;> simp
  · split <;> simp
  · rfl
@[simp] theorem State.memWrite_lo (s : State) (addr : Word) (n : Width) (v : Word) : (s.memWrite addr n v).lo = s.lo := by
  unfold State.memWrite; split
  · rfl
  · rfl
  · split <;> rfl
  · split <;> simp
  · split <;> simp
  · rfl
@[simp] theorem State.memWrite_pc (s : State) (addr : Word) (n : Width) (v : Word) : (s.memWrite addr n v).pc = s.pc := by
  unfold State.memWrite; split
  · rfl
  · rfl
  · split <;> rfl
  · split <;> simp
  · split <;> simp
  · rfl
@[simp] theorem State.memWrite_nextPC (s : State) (addr : Word) (n : Width) (v : Word) : (s.memWrite addr n v).nextPC = s.nextPC := by
  unfold State.memWrite; split
  · rfl
  · rfl
  · split <;> rfl
  · split <;> simp
  · split <;> simp
  · rfl
@[simp] theorem State.memWrite_inDelaySlot (s : State) (addr : Word) (n : Width) (v : Word) : (s.memWrite addr n v).inDelaySlot = s.inDelaySlot := by
  unfold State.memWrite; split
  · rfl
  · rfl
  · split <;> rfl
  · split <;> simp
  · split <;> simp
  · rfl
@[simp] theorem State.memWrite_bios (s : State) (addr : Word) (n : Width) (v : Word) : (s.memWrite addr n v).bios = s.bios := by
  unfold State.memWrite; split
  · rfl
  · rfl
  · split <;> rfl
  · split <;> simp
  · split <;> simp
  · rfl
@[simp] theorem State.memWrite_result (s : State) (addr : Word) (n : Width) (v : Word) : (s.memWrite addr n v).result = s.result := by
  unfold State.memWrite; split
  · rfl
  · rfl
  · split <;> rfl
  · split <;> simp
  · split <;> simp
  · rfl
@[simp] theorem State.memWrite_mips1Ext (s : State) (addr : Word) (n : Width) (v : Word) : (s.memWrite addr n v).mips1Ext = s.mips1Ext := by
  unfold State.memWrite; split
  · rfl
  · rfl
  · split <;> rfl
  · split <;> simp
  · split <;> simp
  · rfl
@[simp] theorem State.memWrite_stepped (s : State) (addr : Word) (n : Width) (v : Word) : (s.memWrite addr n v).stepped = s.stepped := by
  unfold State.memWrite; split
  · rfl
  · rfl
  · split <;> rfl
  · split <;> simp
  · split <;> simp
  · rfl
@[simp] theorem State.memWrite_readReg (s : State) (addr : Word) (n : Width) (v : Word) (q : Reg) : (s.memWrite addr n v).readReg q = s.readReg q := by
  simp only [State.readReg, State.memWrite_regs]

/-! ## COP0 under the ports: only Cause may change -/

theorem State.readC0_gpuDispatch (s : State) (qs : List Word) (m : Slot) :
    (s.gpuDispatch qs).readC0 m = s.readC0 m := by
  unfold State.gpuDispatch; dsimp only
  repeat' split
  all_goals rfl

theorem State.readC0_completeTransfer (s : State) {m : Slot} (h : m ≠ slotCause) :
    s.completeTransfer.readC0 m = s.readC0 m := by
  unfold State.completeTransfer; dsimp only; split
  · rw [State.readC0_setIRQ, if_neg h]; rfl
  · rfl

theorem State.readC0_gpuWriteCommand (s : State) (w : Word) {m : Slot} (h : m ≠ slotCause) :
    (s.gpuWriteCommand w).readC0 m = s.readC0 m := by
  unfold State.gpuWriteCommand
  split
  · unfold State.gpuIdle; dsimp only
    split
    · rfl
    · split
      · rw [State.setQueue_readC0, State.readC0_gpuDispatch]
      · rfl
  · unfold State.gpuAwaiting; dsimp only
    split
    · split
      · rw [State.readC0_completeTransfer _ h]; rfl
      · rfl
    · rfl
  · unfold State.gpuTransferring; dsimp only
    split
    · rw [State.readC0_completeTransfer _ h]; rfl
    · rfl

theorem State.readC0_gpuWriteControl (s : State) (w : Word) {m : Slot} (h : m ≠ slotCause) :
    (s.gpuWriteControl w).readC0 m = s.readC0 m := by
  unfold State.gpuWriteControl
  split
  · rw [State.readC0_setIRQ, if_neg h]; rfl
  · split <;> rfl

theorem State.readC0_memWrite (s : State) (addr : Word) (n : Width) (v : Word) {m : Slot} (h : m ≠ slotCause) :
    (s.memWrite addr n v).readC0 m = s.readC0 m := by
  unfold State.memWrite
  split
  · rfl
  · rfl
  · split <;> rfl
  · split
    · exact State.readC0_gpuWriteCommand s v h
    · rfl
  · split
    · exact State.readC0_gpuWriteControl s v h
    · rfl
  · rfl

end Sys2Proof.Machine
end

