-- ==== Sys2Proof/Laws/Bus.lean ====
section
/-! SUPPORT. Laws of the bus: which region neighbouring addresses lie in, what a read assembles, and what a write
to RAM leaves in each byte (20_memory.md R30 to R43). -/

namespace Sys2Proof.Machine

/-! ## Regions -/

theorem masked_toNat (a : Word) : (a &&& Config.ramMask).toNat = a.toNat % 2 ^ 29 := by
  have h : Config.ramMask.toNat = 2 ^ 29 - 1 := by decide
  rw [BitVec.toNat_and, h, Nat.and_two_pow_sub_one_eq_mod]

/-- RAM, by the low 29 bits (20_memory.md R30, R33). -/
theorem region_ram_iff (a : Word) (o : Nat) :
    region a = .ram o ↔ a.toNat % 2 ^ 29 = o ∧ o < 0x200000 := by
  unfold region
  simp only [masked_toNat, Config.ramSize]
  split
  · rename_i h
    simp only [Region.ram.injEq]
    omega
  · rename_i h
    constructor
    · intro hr
      exfalso
      repeat' split at hr
      all_goals exact absurd hr (by simp)
    · rintro ⟨rfl, h2⟩; exact absurd h2 h

/-- The BIOS window, by the full address (20_memory.md R30, R34). -/
theorem region_bios_iff (a : Word) (o : Nat) :
    region a = .bios o ↔ a.toNat = 0xBFC00000 + o ∧ o < 0x80000 := by
  have hb : Config.biosBase.toNat = 0xBFC00000 := by decide
  unfold region
  simp only [masked_toNat, Config.ramSize, hb, Config.biosSize]
  split
  · rename_i h
    constructor
    · intro hr; exact absurd hr (by simp)
    · rintro ⟨h1, h2⟩; omega
  · split
    · rename_i h
      simp only [Region.bios.injEq]
      omega
    · rename_i h
      constructor
      · intro hr
        exfalso
        repeat' split at hr
        all_goals exact absurd hr (by simp)
      · rintro ⟨h1, h2⟩; omega

theorem word_add_toNat (a : Word) (k : Nat) (h : a.toNat % 4 + k < 4) : (a + BitVec.ofNat 32 k).toNat = a.toNat + k := by
  have := a.isLt
  rw [BitVec.toNat_add, BitVec.toNat_ofNat]
  omega

/-- The other bytes of a word in RAM are in RAM, at the following offsets. -/
theorem region_ram_add {a : Word} {o k : Nat} (h : region a = .ram o) (hk : a.toNat % 4 + k < 4) :
    region (a + BitVec.ofNat 32 k) = .ram (o + k) := by
  rw [region_ram_iff] at h ⊢
  rw [word_add_toNat a k hk]
  omega

/-- The other bytes of a word in the BIOS are in the BIOS, at the following offsets. -/
theorem region_bios_add {a : Word} {o k : Nat} (h : region a = .bios o) (hk : a.toNat % 4 + k < 4) :
    region (a + BitVec.ofNat 32 k) = .bios (o + k) := by
  rw [region_bios_iff] at h ⊢
  rw [word_add_toNat a k hk]
  omega

/-- RAM offsets keep the address's place in its word. -/
theorem region_ram_mod {a : Word} {o : Nat} (h : region a = .ram o) : o % 4 = a.toNat % 4 ∧ o < 0x200000 := by
  rw [region_ram_iff] at h; omega

theorem region_bios_mod {a : Word} {o : Nat} (h : region a = .bios o) : o % 4 = a.toNat % 4 ∧ o < 0x80000 := by
  rw [region_bios_iff] at h; omega

theorem Width.bytes_cases (n : Width) : n.bytes = 1 ∨ n.bytes = 2 ∨ n.bytes = 4 := by cases n <;> simp [Width.bytes]

theorem aligned_iff (n : Width) (a : Word) : aligned n a = true ↔ a.toNat % n.bytes = 0 := by
  simp [aligned]

/-- An aligned access stays inside the word that holds it. -/
theorem aligned_fits {n : Width} {a : Word} (h : aligned n a = true) : a.toNat % 4 + n.bytes ≤ 4 := by
  rw [aligned_iff] at h
  rcases n.bytes_cases with e | e | e <;> rw [e] at h ⊢ <;> omega

/-- Clearing the bits of a mask subtracts them. -/
theorem and_not_eq_sub (a m : Word) : a &&& ~~~m = a - (a &&& m) := by
  have h : a = (a &&& ~~~m) + (a &&& m) := by
    rw [BitVec.add_eq_or_of_and_eq_zero]
    · ext i hi; simp only [BitVec.getElem_or, BitVec.getElem_and, BitVec.getElem_not]
      cases a[i] <;> cases m[i] <;> rfl
    · ext i hi; simp only [BitVec.getElem_and, BitVec.getElem_not, BitVec.getElem_zero]
      cases a[i] <;> cases m[i] <;> rfl
  conv_rhs => lhs; rw [h]
  rw [BitVec.add_sub_cancel]

theorem alignedWord_toNat (a : Word) : (alignedWord a).toNat = a.toNat - a.toNat % 4 := by
  have e : alignedWord a = a - (a &&& 3#32) := and_not_eq_sub a 3#32
  have e3 : (a &&& 3#32).toNat = a.toNat % 4 := by
    rw [BitVec.toNat_and]; exact Nat.and_two_pow_sub_one_eq_mod a.toNat 2
  rw [e, BitVec.toNat_sub, e3]
  have := a.isLt
  omega

theorem alignedWord_aligned (a : Word) : aligned .word (alignedWord a) = true := by
  rw [aligned_iff, alignedWord_toNat]; simp only [Width.bytes]; omega

/-! ## Reads -/

theorem State.busRead_ram (s : State) {a : Word} {o : Nat} (h : region a = .ram o) (n : Width) :
    s.busRead a n = some (Memory.readBE s.ram o n) := by unfold State.busRead; rw [h]

theorem State.busRead_bios (s : State) {a : Word} {o : Nat} (h : region a = .bios o) (n : Width) :
    s.busRead a n = some (Memory.readBE s.bios o n) := by unfold State.busRead; rw [h]

theorem State.memRead_ram (s : State) {a : Word} {o : Nat} (h : region a = .ram o) (n : Width) :
    s.memRead a n = Memory.readBE s.ram o n := by rw [State.memRead, s.busRead_ram h]; rfl

theorem State.memRead_bios (s : State) {a : Word} {o : Nat} (h : region a = .bios o) (n : Width) :
    s.memRead a n = Memory.readBE s.bios o n := by rw [State.memRead, s.busRead_bios h]; rfl

theorem State.noteRead_of_ram (s : State) {a : Word} {o : Nat} (h : region a = .ram o) (n : Width) :
    s.noteRead a n = s := by unfold State.noteRead; rw [s.busRead_ram h]

theorem State.noteRead_of_bios (s : State) {a : Word} {o : Nat} (h : region a = .bios o) (n : Width) :
    s.noteRead a n = s := by unfold State.noteRead; rw [s.busRead_bios h]

/-! ## Writes to RAM -/

theorem storedBytes_length (n : Width) (v : Word) : (storedBytes n v).length = n.bytes := by cases n <;> rfl

theorem State.memWrite_ram_region (s : State) {a : Word} {o : Nat} (h : region a = .ram o) (n : Width) (v : Word) :
    s.memWrite a n v = { s with ram := Store.writeList s.ram o (storedBytes n v) } := by
  unfold State.memWrite; rw [h]

/-- A write anywhere but RAM leaves RAM. -/
theorem State.memWrite_ram_other (s : State) {a : Word} (h : ∀ o, region a ≠ .ram o) (n : Width) (v : Word) :
    (s.memWrite a n v).ram = s.ram := by
  unfold State.memWrite
  split
  · rename_i o e; exact absurd e (h o)
  · rfl
  · split <;> rfl
  · split <;> simp
  · split <;> simp
  · rfl

/-- Every bus write keeps RAM's canonical form (aligned, as every access of the core is: 20_memory.md R41). -/
theorem State.memWrite_ram_wf (s : State) {a : Word} {n : Width} (v : Word) (hw : Memory.wf Config.ramSize s.ram = true)
    (ha : aligned n a = true) : Memory.wf Config.ramSize (s.memWrite a n v).ram = true := by
  by_cases h : ∃ o, region a = .ram o
  · obtain ⟨o, h⟩ := h
    rw [s.memWrite_ram_region h]
    have h1 := region_ram_mod h
    have h2 := aligned_fits ha
    refine Store.wf_writeList _ hw ?_
    rw [storedBytes_length]
    simp only [Config.ramSize]
    omega
  · rw [s.memWrite_ram_other (fun o e => h ⟨o, e⟩)]; exact hw

end Sys2Proof.Machine
end

