-- ==== Sys2Proof/Laws/Encode.lean ====
section
/-! SUPPORT. The fields of an encoded word, a word rebuilt from its fields, and masks that keep whole fields. -/

namespace Sys2Proof

variable (op funct : BitVec 6) (rs rt rd sa : Fin 32) (imm : BitVec 16) (target : BitVec 26) (w : Word)

theorem append_toNat {n m : Nat} (a : BitVec n) (b : BitVec m) : (a ++ b).toNat = a.toNat * 2 ^ m + b.toNat := by
  rw [BitVec.toNat_append, Nat.shiftLeft_eq, Nat.mul_comm, Nat.two_pow_add_eq_or_of_lt b.isLt]

theorem extract_toNat (a n : Nat) : (w.extractLsb' a n).toNat = w.toNat / 2 ^ a % 2 ^ n := by
  simp [BitVec.extractLsb'_toNat, Nat.shiftRight_eq_div_pow]

theorem rType_toNat : (rType op rs rt rd sa funct).toNat =
    op.toNat * 2 ^ 26 + rs.val * 2 ^ 21 + rt.val * 2 ^ 16 + rd.val * 2 ^ 11 + sa.val * 2 ^ 6 + funct.toNat := by
  simp only [rType, append_toNat, BitVec.toNat_ofFin]; omega

theorem iType_toNat : (iType op rs rt imm).toNat =
    op.toNat * 2 ^ 26 + rs.val * 2 ^ 21 + rt.val * 2 ^ 16 + imm.toNat := by
  simp only [iType, append_toNat, BitVec.toNat_ofFin]; omega

theorem jType_toNat : (jType op target).toNat = op.toNat * 2 ^ 26 + target.toNat := by
  simp only [jType, append_toNat]

/-! ## The fields of a word as numbers -/

theorem fieldOp_toNat : (fieldOp w).toNat = w.toNat / 2 ^ 26 % 2 ^ 6 := extract_toNat w 26 6
theorem fieldRs_val : (fieldRs w).val = w.toNat / 2 ^ 21 % 2 ^ 5 := extract_toNat w 21 5
theorem fieldRt_val : (fieldRt w).val = w.toNat / 2 ^ 16 % 2 ^ 5 := extract_toNat w 16 5
theorem fieldRd_val : (fieldRd w).val = w.toNat / 2 ^ 11 % 2 ^ 5 := extract_toNat w 11 5
theorem fieldSa_val : (fieldSa w).val = w.toNat / 2 ^ 6 % 2 ^ 5 := extract_toNat w 6 5
theorem fieldFunct_toNat : (fieldFunct w).toNat = w.toNat / 2 ^ 0 % 2 ^ 6 := extract_toNat w 0 6
theorem fieldImm_toNat : (fieldImm w).toNat = w.toNat / 2 ^ 0 % 2 ^ 16 := extract_toNat w 0 16
theorem fieldTarget_toNat : (fieldTarget w).toNat = w.toNat / 2 ^ 0 % 2 ^ 26 := extract_toNat w 0 26

/-! ## The fields of an encoded word -/

@[simp] theorem fieldOp_rType : fieldOp (rType op rs rt rd sa funct) = op := by
  apply BitVec.eq_of_toNat_eq; rw [fieldOp_toNat, rType_toNat]; omega
@[simp] theorem fieldRs_rType : fieldRs (rType op rs rt rd sa funct) = rs := by
  apply Fin.ext; rw [fieldRs_val, rType_toNat]; omega
@[simp] theorem fieldRt_rType : fieldRt (rType op rs rt rd sa funct) = rt := by
  apply Fin.ext; rw [fieldRt_val, rType_toNat]; omega
@[simp] theorem fieldRd_rType : fieldRd (rType op rs rt rd sa funct) = rd := by
  apply Fin.ext; rw [fieldRd_val, rType_toNat]; omega
@[simp] theorem fieldSa_rType : fieldSa (rType op rs rt rd sa funct) = sa := by
  apply Fin.ext; rw [fieldSa_val, rType_toNat]; omega
@[simp] theorem fieldFunct_rType : fieldFunct (rType op rs rt rd sa funct) = funct := by
  apply BitVec.eq_of_toNat_eq; rw [fieldFunct_toNat, rType_toNat]; omega
@[simp] theorem fieldOp_iType : fieldOp (iType op rs rt imm) = op := by
  apply BitVec.eq_of_toNat_eq; rw [fieldOp_toNat, iType_toNat]; omega
@[simp] theorem fieldRs_iType : fieldRs (iType op rs rt imm) = rs := by
  apply Fin.ext; rw [fieldRs_val, iType_toNat]; omega
@[simp] theorem fieldRt_iType : fieldRt (iType op rs rt imm) = rt := by
  apply Fin.ext; rw [fieldRt_val, iType_toNat]; omega
@[simp] theorem fieldImm_iType : fieldImm (iType op rs rt imm) = imm := by
  apply BitVec.eq_of_toNat_eq; rw [fieldImm_toNat, iType_toNat]; omega
@[simp] theorem fieldOp_jType : fieldOp (jType op target) = op := by
  apply BitVec.eq_of_toNat_eq; rw [fieldOp_toNat, jType_toNat]; omega
@[simp] theorem fieldTarget_jType : fieldTarget (jType op target) = target := by
  apply BitVec.eq_of_toNat_eq; rw [fieldTarget_toNat, jType_toNat]; omega

/-! ## A word is made of its fields, in each format -/

theorem rType_fields : rType (fieldOp w) (fieldRs w) (fieldRt w) (fieldRd w) (fieldSa w) (fieldFunct w) = w := by
  apply BitVec.eq_of_toNat_eq
  rw [rType_toNat, fieldOp_toNat, fieldRs_val, fieldRt_val, fieldRd_val, fieldSa_val, fieldFunct_toNat]; omega

theorem iType_fields : iType (fieldOp w) (fieldRs w) (fieldRt w) (fieldImm w) = w := by
  apply BitVec.eq_of_toNat_eq
  rw [iType_toNat, fieldOp_toNat, fieldRs_val, fieldRt_val, fieldImm_toNat]; omega

theorem jType_fields : jType (fieldOp w) (fieldTarget w) = w := by
  apply BitVec.eq_of_toNat_eq
  rw [jType_toNat, fieldOp_toNat, fieldTarget_toNat]; omega

/-! ## Masks act field by field -/

theorem rType_and (op' funct' : BitVec 6) (rs' rt' rd' sa' : Fin 32) :
    rType op rs rt rd sa funct &&& rType op' rs' rt' rd' sa' funct' =
      rType (op &&& op') ((BitVec.ofFin rs &&& BitVec.ofFin rs' : BitVec 5).toFin)
        ((BitVec.ofFin rt &&& BitVec.ofFin rt' : BitVec 5).toFin) ((BitVec.ofFin rd &&& BitVec.ofFin rd' : BitVec 5).toFin)
        ((BitVec.ofFin sa &&& BitVec.ofFin sa' : BitVec 5).toFin) (funct &&& funct') := by
  refine (BitVec.and_append (w := 26)).trans (congrArg (· ++ _) ?_)
  refine (BitVec.and_append (w := 21)).trans (congrArg (· ++ _) ?_)
  refine (BitVec.and_append (w := 16)).trans (congrArg (· ++ _) ?_)
  refine (BitVec.and_append (w := 11)).trans (congrArg (· ++ _) ?_)
  exact BitVec.and_append (w := 6)

theorem iType_and (op' : BitVec 6) (rs' rt' : Fin 32) (imm' : BitVec 16) :
    iType op rs rt imm &&& iType op' rs' rt' imm' =
      iType (op &&& op') ((BitVec.ofFin rs &&& BitVec.ofFin rs' : BitVec 5).toFin)
        ((BitVec.ofFin rt &&& BitVec.ofFin rt' : BitVec 5).toFin) (imm &&& imm') := by
  refine (BitVec.and_append (w := 16)).trans (congrArg (· ++ _) ?_)
  refine (BitVec.and_append (w := 11)).trans (congrArg (· ++ _) ?_)
  exact BitVec.and_append (w := 6)

/-- A mask that keeps or drops each field of an R-format word. -/
def rMask (keepRs keepRt keepRd keepSa keepFunct : Bool) : Word :=
  rType 0x3F#6 (if keepRs then 31 else 0) (if keepRt then 31 else 0) (if keepRd then 31 else 0)
    (if keepSa then 31 else 0) (if keepFunct then 0x3F#6 else 0#6)

theorem and_keep (r : Fin 32) (b : Bool) :
    ((BitVec.ofFin r &&& BitVec.ofFin (if b then 31 else 0) : BitVec 5).toFin : Fin 32) = if b then r else 0 := by
  cases b
  · simp
  · revert r; decide

theorem and_keep6 (f : BitVec 6) (b : Bool) : f &&& (if b then 0x3F#6 else 0#6) = if b then f else 0#6 := by
  cases b
  · simp
  · revert f; decide

theorem rType_and_rMask (a b c d e : Bool) : rType op rs rt rd sa funct &&& rMask a b c d e =
    rType op (if a then rs else 0) (if b then rt else 0) (if c then rd else 0) (if d then sa else 0)
      (if e then funct else 0#6) := by
  have h : op &&& 0x3F#6 = op := and_keep6 op true
  rw [rMask, rType_and, h, and_keep, and_keep, and_keep, and_keep, and_keep6]

/-- A mask that keeps or drops each register field of an I-format word. -/
def iMask (keepRs keepRt : Bool) : Word :=
  iType 0x3F#6 (if keepRs then 31 else 0) (if keepRt then 31 else 0) 0xFFFF#16

theorem iType_and_iMask (a b : Bool) : iType op rs rt imm &&& iMask a b =
    iType op (if a then rs else 0) (if b then rt else 0) imm := by
  have h : op &&& 0x3F#6 = op := and_keep6 op true
  have h' : imm &&& 0xFFFF#16 = imm := BitVec.and_allOnes
  rw [iMask, iType_and, h, h', and_keep, and_keep]

/-- The masks of the used bits, as masks of whole fields. -/
theorem usedBits_shift : (0xFC1FFFFF#32 : Word) = rMask false true true true true := by decide
theorem usedBits_three : (0xFFFFF83F#32 : Word) = rMask true true true false true := by decide
theorem usedBits_none : (0xFC00003F#32 : Word) = rMask false false false false true := by decide
theorem usedBits_two : (0xFFFF003F#32 : Word) = rMask true true false false true := by decide
theorem usedBits_cop0 : (0xFFFFF800#32 : Word) = rMask true true true false false := by decide
theorem usedBits_rs : (0xFFE0003F#32 : Word) = rMask true false false false true := by decide
theorem usedBits_rd : (0xFC00F83F#32 : Word) = rMask false false true false true := by decide
theorem usedBits_jalr : (0xFFE0F83F#32 : Word) = rMask true false true false true := by decide
theorem usedBits_lui : (rMask false true true true true : Word) = iMask false true := by decide
theorem usedBits_blez : (0xFFE0FFFF#32 : Word) = iMask true false := by decide
theorem and_usedBits_all : w &&& 0xFFFFFFFF#32 = w := BitVec.and_allOnes

/-! ## Masked words -/

theorem and_rMask (a b c d e : Bool) : w &&& rMask a b c d e = rType (fieldOp w) (if a then fieldRs w else 0)
    (if b then fieldRt w else 0) (if c then fieldRd w else 0) (if d then fieldSa w else 0)
    (if e then fieldFunct w else 0#6) := by
  conv_lhs => rw [← rType_fields w]
  rw [rType_and_rMask]

theorem and_iMask (a b : Bool) : w &&& iMask a b =
    iType (fieldOp w) (if a then fieldRs w else 0) (if b then fieldRt w else 0) (fieldImm w) := by
  conv_lhs => rw [← iType_fields w]
  rw [iType_and_iMask]

/-! ## Words with equal fields -/

theorem rType_inj {op op' f f' : BitVec 6} {a b c d a' b' c' d' : Fin 32}
    (h : rType op a b c d f = rType op' a' b' c' d' f') :
    op = op' ∧ a = a' ∧ b = b' ∧ c = c' ∧ d = d' ∧ f = f' := by
  have h1 := congrArg fieldOp h
  have h2 := congrArg fieldRs h
  have h3 := congrArg fieldRt h
  have h4 := congrArg fieldRd h
  have h5 := congrArg fieldSa h
  have h6 := congrArg fieldFunct h
  simp only [fieldOp_rType, fieldRs_rType, fieldRt_rType, fieldRd_rType, fieldSa_rType, fieldFunct_rType] at h1 h2 h3 h4 h5 h6
  exact ⟨h1, h2, h3, h4, h5, h6⟩

theorem iType_inj {op op' : BitVec 6} {a b a' b' : Fin 32} {m m' : BitVec 16} (h : iType op a b m = iType op' a' b' m') :
    op = op' ∧ a = a' ∧ b = b' ∧ m = m' := by
  have h1 := congrArg fieldOp h
  have h2 := congrArg fieldRs h
  have h3 := congrArg fieldRt h
  have h4 := congrArg fieldImm h
  simp only [fieldOp_iType, fieldRs_iType, fieldRt_iType, fieldImm_iType] at h1 h2 h3 h4
  exact ⟨h1, h2, h3, h4⟩

/-! ## A field from its number -/

variable {w} in
theorem fieldOp_of_toNat {n : Nat} (h : (fieldOp w).toNat = n) : fieldOp w = BitVec.ofNat 6 n := by
  apply BitVec.eq_of_toNat_eq; have := (fieldOp w).isLt; simp; omega

variable {w} in
theorem fieldFunct_of_toNat {n : Nat} (h : (fieldFunct w).toNat = n) : fieldFunct w = BitVec.ofNat 6 n := by
  apply BitVec.eq_of_toNat_eq; have := (fieldFunct w).isLt; simp; omega

theorem reg_of_val {r : Fin 32} {n : Nat} (h : r.val = n) : r = Fin.ofNat 32 n := by
  apply Fin.ext; have := r.isLt; simp [Fin.ofNat]; omega

/-! ## A word and its bytes -/

theorem wordOfBytes_bytesOfWord : wordOfBytes (w.extractLsb' 24 8) (w.extractLsb' 16 8) (w.extractLsb' 8 8)
    (w.extractLsb' 0 8) = w := by
  apply BitVec.eq_of_toNat_eq
  have := w.isLt
  simp only [wordOfBytes, append_toNat, extract_toNat]
  omega

/-- The bytes of a word built from four bytes are those. -/
theorem bytesOfWord_wordOfBytes (b0 b1 b2 b3 : Byte) : bytesOfWord (wordOfBytes b0 b1 b2 b3) = [b0,b1,b2,b3] := by
  have := b0.isLt; have := b1.isLt; have := b2.isLt; have := b3.isLt
  simp only [bytesOfWord, List.cons.injEq, and_true]
  refine ⟨?_, ?_, ?_, ?_⟩
  all_goals
    apply BitVec.eq_of_toNat_eq
    simp only [wordOfBytes, append_toNat, extract_toNat]
    omega

end Sys2Proof
end

