-- ==== Sys2Proof/Laws/Merge.lean ====
section
/-! SUPPORT. The merges of the unaligned instructions, byte lane by byte lane, lane 0 the most significant
(44_loadstore.md R110 to R113). -/

namespace Sys2Proof.Machine

/-- Two byte lanes are equal when their bits are. -/
theorem lane_ext {u v : Word} {j k : Nat} (h : ∀ i, i < 8 → u.getLsbD (8 * (3 - j) + i) = v.getLsbD (8 * (3 - k) + i)) : byteLane u j = byteLane v k := by
  unfold byteLane
  apply BitVec.eq_of_getLsbD_eq
  intro i hi
  simp only [BitVec.getLsbD_extractLsb', hi, decide_true, Bool.true_and]
  exact h i hi

/-- The mask of the low `n` bits. -/
theorem ones_getLsbD (n i : Nat) (h : i < 32) (hn : n < 32): ((1#32 <<< n) - 1#32).getLsbD i = decide (i < n) := by
  have e : (1#32 <<< n).toNat = 2 ^ n := by
    rw [BitVec.toNat_shiftLeft, show (1#32).toNat = 1 from rfl, Nat.one_shiftLeft]
    exact Nat.mod_eq_of_lt (Nat.pow_lt_pow_right (by decide) hn)
  have e1 : (1#32 <<< n) - 1#32 = BitVec.ofNat 32 (2 ^ n - 1) := by
    apply BitVec.eq_of_toNat_eq
    rw [BitVec.toNat_sub, e, BitVec.toNat_ofNat]
    have h1 : 2 ^ n < 2 ^ 32 := Nat.pow_lt_pow_right (by decide) hn
    have h2 : 0 < 2 ^ n := Nat.two_pow_pos n
    simp; omega
  rw [e1, BitVec.getLsbD_ofNat, Nat.testBit_two_pow_sub_one]
  simp [h]

theorem allOnes_getLsbD {j : Nat} (h : j < 32) : (0xFFFFFFFF#32 : Word).getLsbD j = true := by
  have : (0xFFFFFFFF#32 : Word) = BitVec.allOnes 32 := rfl
  rw [this, BitVec.getLsbD_allOnes]; exact decide_eq_true h

/-- The mask of all but the high `n` bits. -/
theorem ones_shift_getLsbD {n j : Nat} (_h : j < 32) : (0xFFFFFFFF#32 >>> n : Word).getLsbD j = decide (j + n < 32) := by
  rw [BitVec.getLsbD_ushiftRight]
  by_cases h' : j + n < 32
  · rw [allOnes_getLsbD (by omega)]; simp [h']
  · rw [BitVec.getLsbD_of_ge _ _ (by omega)]; simp [h']

/-- LWL, lane by lane (44_loadstore.md R110). -/
theorem mergeLwl_lane (m g : Word) (b j : Nat) (hb : b < 4) (hj : j < 4) :
    byteLane (mergeLwl m g b) j = if j + b < 4 then byteLane m (j + b) else byteLane g j := by
  split
  all_goals
    refine lane_ext fun i hi => ?_
    have h32 : 8 * (3 - j) + i < 32 := by omega
    simp only [mergeLwl, BitVec.getLsbD_or, BitVec.getLsbD_and, BitVec.getLsbD_shiftLeft, ones_getLsbD _ _ h32 (show 8 * b < 32 by omega), h32, decide_true, Bool.true_and]
  · rw [show 8 * (3 - j) + i - 8 * b = 8 * (3 - (j + b)) + i by omega]
    simp [show ¬ (8 * (3 - j) + i < 8 * b) by omega]
  · simp [show (8 * (3 - j) + i < 8 * b) by omega]

/-- LWR, lane by lane (44_loadstore.md R111). -/
theorem mergeLwr_lane (m g : Word) (b j : Nat) (hb : b < 4) (hj : j < 4) :
    byteLane (mergeLwr m g b) j = if 3 ≤ j + b then byteLane m (j + b - 3) else byteLane g j := by
  split
  all_goals
    refine lane_ext fun i hi => ?_
    have h32 : 8 * (3 - j) + i < 32 := by omega
    simp only [mergeLwr, BitVec.getLsbD_or, BitVec.getLsbD_and, BitVec.getLsbD_ushiftRight, BitVec.getLsbD_not, BitVec.getLsbD_ushiftRight, h32, decide_true, Bool.true_and]
    rw [← BitVec.getLsbD_ushiftRight 0xFFFFFFFF#32, ones_shift_getLsbD h32]
  · rw [show 8 * (3 - b) + (8 * (3 - j) + i) = 8 * (3 - (j + b - 3)) + i by omega]
    simp [show 8 * (3 - j) + i + 8 * (3 - b) < 32 by omega]
  · rw [BitVec.getLsbD_of_ge m _ (by omega)]
    simp [show ¬ (8 * (3 - j) + i + 8 * (3 - b) < 32) by omega]

/-- SWL, lane by lane (44_loadstore.md R112). -/
theorem mergeSwl_lane (m g : Word) (b j : Nat) (hb : b < 4) (hj : j < 4) :
    byteLane (mergeSwl m g b) j = if j < b then byteLane m j else byteLane g (j - b) := by
  split
  all_goals
    refine lane_ext fun i hi => ?_
    have h32 : 8 * (3 - j) + i < 32 := by omega
    simp only [mergeSwl, BitVec.getLsbD_or, BitVec.getLsbD_and, BitVec.getLsbD_ushiftRight, BitVec.getLsbD_not, BitVec.getLsbD_ushiftRight, h32, decide_true, Bool.true_and]
    rw [← BitVec.getLsbD_ushiftRight 0xFFFFFFFF#32, ones_shift_getLsbD h32]
  · rw [BitVec.getLsbD_of_ge g _ (by omega)]
    simp [show ¬ (8 * (3 - j) + i + 8 * b < 32) by omega]
  · rw [show 8 * b + (8 * (3 - j) + i) = 8 * (3 - (j - b)) + i by omega]
    simp [show 8 * (3 - j) + i + 8 * b < 32 by omega]

/-- SWR, lane by lane (44_loadstore.md R113). -/
theorem mergeSwr_lane (m g : Word) (b j : Nat) (hb : b < 4) (hj : j < 4) :
    byteLane (mergeSwr m g b) j = if j ≤ b then byteLane g (j + 3 - b) else byteLane m j := by
  split
  all_goals
    refine lane_ext fun i hi => ?_
    have h32 : 8 * (3 - j) + i < 32 := by omega
    simp only [mergeSwr, BitVec.getLsbD_or, BitVec.getLsbD_and, BitVec.getLsbD_shiftLeft, ones_getLsbD _ _ h32 (show 8 * (3 - b) < 32 by omega), h32, decide_true, Bool.true_and]
  · rw [show 8 * (3 - j) + i - 8 * (3 - b) = 8 * (3 - (j + 3 - b)) + i by omega]
    simp [show ¬ (8 * (3 - j) + i < 8 * (3 - b)) by omega]
  · simp [show (8 * (3 - j) + i < 8 * (3 - b)) by omega]

theorem byteInWord_lt (a : Word) : byteInWord a < 4 := Nat.mod_lt _ (by decide)

/-- A word is its four lanes. -/
theorem word_ext_lane {u v : Word} (h : ∀ j, j < 4 → byteLane u j = byteLane v j) : u = v := by
  apply BitVec.eq_of_getLsbD_eq
  intro i hi
  have := congrArg (fun x : Byte => x.getLsbD (i % 8)) (h (3 - i / 8) (by omega))
  simp only [byteLane, BitVec.getLsbD_extractLsb', show i % 8 < 8 by omega, decide_true, Bool.true_and, show 8 * (3 - (3 - i / 8)) + i % 8 = i by omega] at this
  exact this

/-- The lanes of a word built from four bytes. -/
theorem byteLane_wordOfBytes (b0 b1 b2 b3 : Byte) (j : Nat) (hj : j < 4) : byteLane (wordOfBytes b0 b1 b2 b3) j = [b0, b1, b2, b3].getD j 0 := by
  have : j = 0 ∨ j = 1 ∨ j = 2 ∨ j = 3 := by omega
  have key := bytesOfWord_wordOfBytes b0 b1 b2 b3
  simp only [bytesOfWord, List.cons.injEq, and_true] at key
  rcases this with rfl | rfl | rfl | rfl
  · exact key.1
  · exact key.2.1
  · exact key.2.2.1
  · exact key.2.2.2

end Sys2Proof.Machine
end

