-- ==== Sys2Proof/Laws/Results.lean ====
section
/-! SUPPORT. One lemma for each shared operation of Machine/Results.lean and Machine/Ops.lean: everything it can do, in
the terms of Safety.lean, so that no proof about an instruction unfolds it. -/

namespace Sys2Proof.Machine

/-! ## Frames -/

theorem SameMemory.of_eq {s t : State} (h1 : t.ram = s.ram) (h2 : t.bios = s.bios) (h3 : t.timers = s.timers) :
    SameMemory s t := ⟨h1, h2, fun a => by simp only [State.readByte, State.memRead, State.busRead, h1, h2, h3]⟩

theorem SameRegs.of_eq {s t : State} (h : t.regs = s.regs) (except : List Reg) : SameRegs except s t :=
  fun r _ => by simp only [State.readReg, h]

theorem SameCop0.of_eq {s t : State} (h : t.c0 = s.c0) (except : List Slot) : SameCop0 except s t :=
  fun n _ => by simp only [State.readC0, h]

theorem goesOn_advance (s : State) : GoesOn s s.advance := ⟨rfl, rfl, rfl, rfl⟩

theorem branchesTo_branch (s : State) (t : Word) : BranchesTo t s (s.branch t) := ⟨rfl, rfl, rfl, rfl⟩

/-- What the PC update of `u` does to `u` it does to any state with the same sequencer. -/
theorem goesOn_advance_of {s u : State} (h1 : u.pc = s.pc) (h2 : u.nextPC = s.nextPC) (h3 : u.inDelaySlot = s.inDelaySlot) :
    GoesOn s u.advance := by
  refine ⟨?_, h2, rfl, rfl⟩
  simp only [State.advance_pc, State.followingPc, h1, h2, h3]

theorem branchesTo_branch_of {s u : State} (t : Word) (h1 : u.pc = s.pc) (h2 : u.nextPC = s.nextPC)
    (h3 : u.inDelaySlot = s.inDelaySlot) : BranchesTo t s (u.branch t) := by
  refine ⟨?_, rfl, rfl, rfl⟩
  simp only [State.branch_pc, State.followingPc, h1, h2, h3]

/-! ## A result written to a register -/

theorem writesOnly_writeReg_advance (s : State) (rd : Reg) (v : Word) : WritesOnly [rd] s (s.writeReg rd v).advance := by
  refine ⟨fun r hr => ?_, ⟨by simp, by simp⟩, fun n _ => by simp, .of_eq (by simp) (by simp) (by simp), ⟨by simp, by simp⟩,
    ⟨by simp, by simp⟩, by simp [SameConfig]⟩
  simp only [List.mem_singleton] at hr
  simp [State.readReg_writeReg_ne s v hr]

/-- `writeResult` answers a next state with the result in the register and nothing else changed. -/
theorem writesTo_of_writeResult {i : Instr} {s : State} {rd : Reg} {v : Word} (h : exec i s = writeResult s rd v) :
    WritesTo i s rd v :=
  ⟨_, h, by simp, writesOnly_writeReg_advance s rd v, goesOn_advance_of (by simp) (by simp) (by simp)⟩

/-- `writeHiLo` and `advance`. -/
theorem setsHiLo_of {i : Instr} {s : State} {h l : Word} (e : exec i s = .next (s.writeHiLo h l).advance) : SetsHiLo i s h l :=
  ⟨_, e, rfl, rfl, ⟨fun _ _ => by simp, fun _ _ => by simp, .of_eq rfl rfl rfl, ⟨rfl, rfl⟩, ⟨rfl, rfl⟩, ⟨rfl, rfl⟩⟩,
    goesOn_advance_of rfl rfl rfl⟩

/-! ## Exceptions -/

theorem Exc.code_shift (e : Exc) : BitVec.ofNat 32 e.code <<< 2 = BitVec.ofNat 32 (4 * e.code) := by cases e <;> rfl

/-- Exception entry changes the exception registers and the sequencer, and nothing else. -/
theorem enters_enter (s : State) (e : Exc) (epc bad : Word) :
    Enters e e.code epc (if e.isAddressError then [8] else []) s (s.enter e epc bad) := by
  refine ⟨?_, ?_, ?_, rfl, rfl, rfl, .of_eq (by simp) _, ⟨by simp, by simp⟩, ?_, .of_eq (by simp) (by simp) (by simp),
    ⟨by simp, by simp⟩, ⟨by simp, by simp⟩, by simp [SameConfig]⟩
  · simp [State.epc, State.readC0_enter]
  · rw [State.cause, State.readC0_enter, if_neg (by decide), if_pos rfl, Exc.code_shift]
  · intro j hj
    rw [State.status, State.readC0_enter, if_neg (by decide), if_neg (by decide), if_pos rfl, setBit_getLsbD _ _ _ _ hj]
    by_cases h : j = 1 <;> simp [h]
  · intro n hn
    rw [State.readC0_enter]
    have h14 : n ≠ slotEPC := by rintro rfl; exact hn (by simp [slotEPC])
    have h13 : n ≠ slotCause := by rintro rfl; exact hn (by simp [slotCause])
    have h12 : n ≠ slotStatus := by rintro rfl; exact hn (by simp [slotStatus])
    rw [if_neg h14, if_neg h13, if_neg h12]
    split
    · rename_i h8
      rw [h8.2, h8.1] at hn
      exact absurd (by simp [slotBadVAddr]) hn
    · rfl

theorem badVAddr_enter (s : State) (e : Exc) (epc bad : Word) (h : e.isAddressError = true) :
    (s.enter e epc bad).badVAddr = bad := by
  rw [State.badVAddr, State.readC0_enter, if_neg (by decide), if_neg (by decide), if_neg (by decide), if_pos ⟨rfl, h⟩]

theorem raises_of {i : Instr} {s : State} {e : Exc} (h : exec i s = .next (s.raise e)) (he : e.isAddressError = false) :
    Raises i s e e.code := by
  refine ⟨_, h, ?_⟩
  have := enters_enter s e s.pc 0#32
  rw [he] at this
  exact this

theorem raisesAddress_of {i : Instr} {s : State} {e : Exc} {bad : Word} (h : exec i s = .next (s.raiseAddress e bad))
    (he : e.isAddressError = true) : RaisesAddress i s e e.code bad := by
  refine ⟨_, h, badVAddr_enter s e s.pc bad he, ?_⟩
  have := enters_enter s e s.pc bad
  rw [he] at this
  exact this

/-! ## Loads -/

theorem State.noteRead_eq (s : State) (a : Word) (n : Width) : s.noteRead a n = { s with diag := s.diag ++ readEvents s a n } := by
  unfold State.noteRead readEvents
  cases h : s.busRead a n <;> simp [State.emit]

/-- `loadValue` answers a next state with the extended value in the register and, of all else, at most one event. -/
theorem loadsTo_of_loadValue {i : Instr} {s : State} {n : Width} {extend : Word → Word} {rt : Reg} {a : Word}
    (h : exec i s = loadValue s n extend rt a) : LoadsTo i s rt (extend (s.memRead a n)) a n := by
  refine ⟨_, h, by simp, fun r hr => ?_, ⟨by simp, by simp⟩, fun m _ => by simp, .of_eq (by simp) (by simp) (by simp),
    ⟨by simp, by simp⟩, ?_, ?_, by simp [SameConfig], goesOn_advance_of (by simp) (by simp) (by simp)⟩
  · simp only [List.mem_singleton] at hr
    simp [State.readReg_writeReg_ne _ _ hr]
  · simp [State.noteRead_eq]
  · simp [State.noteRead_eq]

/-! ## Control transfers -/

/-- A link and a conditional branch. -/
theorem transfers_of {i : Instr} {s : State} {c : Prop} {t : Word} (b : Bool) (hb : b = true ↔ c)
    (h : exec i s = .next (s.branchIf b t)) : Transfers i s [] c t := by
  refine ⟨_, h, ⟨fun r _ => by simp, ⟨by simp, by simp⟩, fun n _ => by simp, .of_eq (by simp) (by simp) (by simp),
    ⟨by simp, by simp⟩, ⟨by simp, by simp⟩, by simp [SameConfig]⟩, by simp, fun hc => ?_, fun hc => ?_⟩
  · rw [hb.mpr hc]; exact branchesTo_branch s t
  · have : b = false := by rw [← Bool.not_eq_true, hb]; exact hc
    rw [this]; exact goesOn_advance s

theorem transfers_link_of {i : Instr} {s : State} {c : Prop} {t : Word} {r : Reg} (b : Bool) (hb : b = true ↔ c)
    (h : exec i s = .next ((s.writeReg r (linkAddress s.pc)).branchIf b t)) : Transfers i s [r] c t := by
  refine ⟨_, h, ⟨fun q hq => ?_, ⟨by simp, by simp⟩, fun n _ => by simp, .of_eq (by simp) (by simp) (by simp),
    ⟨by simp, by simp⟩, ⟨by simp, by simp⟩, by simp [SameConfig]⟩, ?_, fun hc => ?_, fun hc => ?_⟩
  · simp only [List.mem_singleton] at hq
    simp [State.readReg_writeReg_ne _ _ hq]
  · intro q hq
    simp only [List.mem_singleton] at hq
    subst hq
    simp [linkAddress]
  · rw [hb.mpr hc]; exact branchesTo_branch_of t (by simp) (by simp) (by simp)
  · have : b = false := by rw [← Bool.not_eq_true, hb]; exact hc
    rw [this]; exact goesOn_advance_of (by simp) (by simp) (by simp)

end Sys2Proof.Machine
end

