-- ==== Sys2Proof/Laws/Bytes.lean ====
section
/-! SUPPORT. Memory byte by byte: what one address reads, what wider reads assemble, and what a bus write leaves in
each byte (20_memory.md R31, R32, R40). -/

namespace Sys2Proof.Machine

/-- The timer window (20_memory.md R35; 61_timers.md R181). -/
theorem region_timer_iff (a : Word) (i : Fin 3) (f : Nat) :
    region a = .timer i f ↔ a.toNat = 0x1F801100 + 0x30 * i.val + f ∧ f < 0x30 := by
  have hb : Config.biosBase.toNat = 0xBFC00000 := by decide
  have ht : Config.timerBase.toNat = 0x1F801100 := by decide
  have hi := i.isLt
  unfold region
  simp only [masked_toNat, Config.ramSize, hb, Config.biosSize, ht, Config.timerStride]
  split
  · constructor
    · intro hr; exact absurd hr (by simp)
    · rintro ⟨h1, h2⟩
      rename_i h
      rw [Nat.mod_eq_of_lt (by omega)] at h
      omega
  · split
    · constructor
      · intro hr; exact absurd hr (by simp)
      · rintro ⟨h1, h2⟩; omega
    · split
      · simp only [Region.timer.injEq, Fin.ext_iff]; omega
      · constructor
        · intro hr
          exfalso
          repeat' split at hr
          all_goals exact absurd hr (by simp)
        · rintro ⟨h1, h2⟩; omega

/-- A byte of RAM. -/
theorem State.readByte_ram (s : State) {a : Word} {o : Nat} (h : region a = .ram o) : s.readByte a = Store.read s.ram o := by
  simp [State.readByte, s.memRead_ram h, Memory.readBE]

/-- A byte of the BIOS. -/
theorem State.readByte_bios (s : State) {a : Word} {o : Nat} (h : region a = .bios o) : s.readByte a = Store.read s.bios o := by
  simp [State.readByte, s.memRead_bios h, Memory.readBE]

/-- What an address of RAM or the BIOS reads is the bytes of one memory, from one offset on. -/
theorem State.storage (s : State) {a : Word} (h : isStorage a) : ∃ (m : Memory) (o : Nat), (∀ n, s.memRead a n = Memory.readBE m o n) ∧
    ∀ k, a.toNat % 4 + k < 4 → s.readByte (a + BitVec.ofNat 32 k) = Store.read m (o + k) := by
  rcases h with ⟨o, h⟩ | ⟨o, h⟩
  · exact ⟨s.ram, o, s.memRead_ram h, fun k hk => State.readByte_ram s (region_ram_add h hk)⟩
  · exact ⟨s.bios, o, s.memRead_bios h, fun k hk => State.readByte_bios s (region_bios_add h hk)⟩

/-- A word is its four bytes, big-endian (20_memory.md R40). -/
theorem State.memRead_word (s : State) {a : Word} (h : isStorage a) (ha : a.toNat % 4 = 0) : s.memRead a .word =
      wordOfBytes (s.readByte a) (s.readByte (a + 1#32)) (s.readByte (a + 2#32)) (s.readByte (a + 3#32)) := by
  obtain ⟨m, o, h1, h2⟩ := State.storage s h
  have h0 := h2 0 (by omega)
  rw [show a + BitVec.ofNat 32 0 = a by simp] at h0
  rw [h1, h0, h2 1 (by omega), h2 2 (by omega), h2 3 (by omega)]; rfl

/-- A halfword is its two bytes, big-endian (20_memory.md R40). -/
theorem State.memRead_half (s : State) {a : Word} (h : isStorage a) (ha : a.toNat % 2 = 0) : s.memRead a .half =
      (s.readByte a ++ s.readByte (a + 1#32)).setWidth 32 := by
  obtain ⟨m, o, h1, h2⟩ := State.storage s h
  have h0 := h2 0 (by omega)
  rw [show a + BitVec.ofNat 32 0 = a by simp] at h0
  rw [h1, h0, h2 1 (by omega)]; rfl

theorem State.memRead_byte (s : State) (a : Word) : s.memRead a .byte = (s.readByte a).setWidth 32 := by
  unfold State.readByte State.memRead State.busRead
  split
  · simp [Memory.readBE]
  · simp [Memory.readBE]
  · simp [Timer.readField]
  all_goals rfl

/-- A byte that is not of RAM depends on the BIOS image only: a byte access of a timer reads 0 (61_timers.md R182). -/
theorem State.readByte_notram (s t : State) (h1 : t.bios = s.bios) {a : Word} (h : ∀ o, region a ≠ .ram o) : t.readByte a = s.readByte a := by
  unfold State.readByte State.memRead State.busRead
  split
  · rename_i o e; exact absurd e (h o)
  · rw [h1]
  · simp [Timer.readField]
  all_goals rfl

/-- A bus write to RAM, byte by byte (20_memory.md R40). -/
theorem State.readByte_memWrite (s : State) {a : Word} {o : Nat} (h : region a = .ram o) (n : Width) (v : Word) (hw : Memory.wf Config.ramSize s.ram = true)
   (ha : aligned n a = true) (b : Word) : (s.memWrite a n v).readByte b =
     if ∃ k, k < n.bytes ∧ region b = .ram (o + k) then (storedBytes n v).getD (match region b with | .ram x => x - o | _ => 0) 0 else s.readByte b := by
  have hr := region_ram_mod h
  have hf := aligned_fits ha
  by_cases hb : ∃ x, region b = .ram x
  · obtain ⟨x, hb⟩ := hb
    rw [State.readByte_ram _ hb, State.readByte_ram _ hb, s.memWrite_ram_region h, hb]
    simp only [Region.ram.injEq]
    by_cases hx : ∃ k, k < n.bytes ∧ x = o + k
    · rw [if_pos hx]
      obtain ⟨k, hk, rfl⟩ := hx
      rw [← storedBytes_length n v] at hk
      rw [Store.read_writeList_inside (hi := Config.ramSize) _ hw (by rw [storedBytes_length]; simp only [Config.ramSize]; omega) hk]
      simp [hk]
    · rw [if_neg hx, Store.read_writeList_outside]
      rw [storedBytes_length]
      by_contra hc
      exact hx ⟨x - o, by omega, by omega⟩
  · rw [if_neg (fun ⟨k, _, e⟩ => hb ⟨_, e⟩)]
    exact State.readByte_notram _ _ (by simp) (fun x e => hb ⟨x, e⟩)

/-- A halfword read has no bit above 15. -/
theorem State.half_zext (s : State) (a : Word) : lowBits .half (s.memRead a .half) = s.memRead a .half := by
  have key : ∀ v : BitVec 16, lowBits .half (v.setWidth 32) = v.setWidth 32 := by
    intro v; apply BitVec.eq_of_toNat_eq; simp [lowBits]
  have hm : ∀ m : BitVec 14, lowBits .half (m.setWidth 32) = m.setWidth 32 := by
    intro v; apply BitVec.eq_of_toNat_eq; simp [lowBits]
  unfold State.memRead State.busRead
  cases region a with
  | ram o => exact key _
  | bios o => exact key _
  | timer i f =>
    simp only [Timer.readField]
    repeat' split
    · exact key _
    · exact hm _
    · exact key _
    · rfl
  | gp0 => rfl
  | gp1 => rfl
  | unmapped => rfl

theorem alignedWord_eq_sub (a : Word) : alignedWord a = a - BitVec.ofNat 32 (a.toNat % 4) := by
  apply BitVec.eq_of_toNat_eq
  rw [alignedWord_toNat, BitVec.toNat_sub, BitVec.toNat_ofNat]
  have := a.isLt; omega

theorem region_alignedWord {a : Word} {o : Nat} (h : region a = .ram o) : region (alignedWord a) = .ram (o - a.toNat % 4) := by
  have := region_ram_mod h
  rw [region_ram_iff] at h ⊢; rw [alignedWord_toNat]; omega

/-- A byte of storage is a lane of the aligned word that holds it (20_memory.md R40). -/
theorem State.readByte_lane (s : State) {a : Word} (h : isStorage a) : s.readByte a = byteLane (s.memRead (alignedWord a) .word) (a.toNat % 4) := by
  have hs : isStorage (alignedWord a) := by
    rcases h with ⟨o, h⟩ | ⟨o, h⟩
    · refine .inl ⟨o - a.toNat % 4, ?_⟩
      have := region_ram_mod h
      rw [region_ram_iff] at h ⊢; rw [alignedWord_toNat]; omega
    · refine .inr ⟨o - a.toNat % 4, ?_⟩
      have := region_bios_mod h
      rw [region_bios_iff] at h ⊢; rw [alignedWord_toNat]; omega
  have ha := alignedWord_aligned a
  rw [aligned_iff] at ha
  simp only [Width.bytes] at ha
  have e : a = alignedWord a + BitVec.ofNat 32 (a.toNat % 4) := by
    apply BitVec.eq_of_toNat_eq
    rw [BitVec.toNat_add, alignedWord_toNat, BitVec.toNat_ofNat]; have := a.isLt; omega
  obtain ⟨m, o, h1, h2⟩ := s.storage hs
  have h3 := h2 (a.toNat % 4) (by omega)
  rw [← e] at h3
  rw [h3, h1]
  show _ = byteLane (wordOfBytes _ _ _ _) _
  rw [byteLane_wordOfBytes _ _ _ _ _ (by omega)]
  have : a.toNat % 4 = 0 ∨ a.toNat % 4 = 1 ∨ a.toNat % 4 = 2 ∨ a.toNat % 4 = 3 := by omega
  rcases this with e | e | e | e <;> rw [e] <;> rfl

/-- The low bits of a stored value, bit by bit. -/
theorem lowBits_getLsbD (n : Width) (v : Word) (j : Nat) (hj : j < 32) : (lowBits n v).getLsbD j = (decide (j < 8 * n.bytes) && v.getLsbD j) := by
  cases n
  · simp [lowBits, Width.bytes, hj, -BitVec.getLsbD_eq_getElem]
  · by_cases h : j < 16 <;> simp [lowBits, Width.bytes, hj, h, -BitVec.getLsbD_eq_getElem]
  · simp [lowBits, Width.bytes, hj]

/-- The bytes of a store are the low lanes of the value. -/
theorem storedBytes_getD (n : Width) (v : Word) (k : Nat) (hk : k < n.bytes) : (storedBytes n v).getD k 0 = byteLane v (4 - n.bytes + k) := by
  cases n
  · have : k = 0 := by simp only [Width.bytes] at hk; omega
    subst this; rfl
  · have : k = 0 ∨ k = 1 := by simp only [Width.bytes] at hk; omega
    rcases this with rfl | rfl <;> rfl
  · have : k = 0 ∨ k = 1 ∨ k = 2 ∨ k = 3 := by simp only [Width.bytes] at hk; omega
    rcases this with rfl | rfl | rfl | rfl <;> rfl

/-- A bus write to RAM, as a store (20_memory.md R32, R40). -/
theorem storesTo_memWrite {i : Instr} {s : State} {a : Word} {n : Width} {v : Word} {o : Nat} (h : exec i s = .next (s.memWrite a n v).advance)
   (hw : Memory.wf Config.ramSize s.ram = true) (hr : region a = .ram o) (ha : aligned n a = true) :
   StoresTo i s a n.bytes (fun k => byteLane v (4 - n.bytes + k)) := by
  have hf := aligned_fits ha
  have e := s.memWrite_ram_region hr n v
  refine ⟨_, h, fun k hk => ?_, fun b hb => ?_, .of_eq (by simp) _, ⟨by simp, by simp⟩, .of_eq ?_ _, by simp, ⟨?_, ?_⟩, ⟨?_, ?_⟩, by simp [SameConfig], goesOn_advance_of (by simp) (by simp) (by simp)⟩
  · have hk' := region_ram_add hr (show a.toNat % 4 + k < 4 by omega)
    show (s.memWrite a n v).readByte _ = _
    rw [s.readByte_memWrite hr n v hw ha, hk', if_pos ⟨k, hk, rfl⟩]
    simp only [Nat.add_sub_cancel_left]
    exact storedBytes_getD n v k hk
  · show (s.memWrite a n v).readByte _ = _
    rw [s.readByte_memWrite hr n v hw ha, if_neg]
    rintro ⟨k, hk, e'⟩
    exact hb k hk (by rw [e', region_ram_add hr (show a.toNat % 4 + k < 4 by omega)])
  all_goals simp [e]

end Sys2Proof.Machine
end

