-- ==== Sys2Proof/Laws/Timers.lean ====
section
/-! SUPPORT. Stage 5 of a step, register by register (61_timers.md R185, R186). -/

namespace Sys2Proof.Machine

@[simp] theorem Timer.tick_target (t : Timer) : t.tick.target = t.target := by
  unfold Timer.tick; dsimp only; split <;> rfl
@[simp] theorem Timer.tick_mode (t : Timer) : t.tick.mode = t.mode := by
  unfold Timer.tick; dsimp only; split <;> rfl

theorem Timer.tick_counter (t : Timer) : t.tick.counter =
    if t.counter + 1#16 = t.target ∧ t.mode.getLsbD 4 = true then 0#16 else t.counter + 1#16 := by
  unfold Timer.tick Timer.resetOnTarget; dsimp only
  by_cases h : t.counter + 1#16 = t.target <;> by_cases h4 : t.mode.getLsbD 4 = true <;> simp [h, h4]

theorem Timer.tick_irqPending (t : Timer) : t.tick.irqPending =
    (t.irqPending || (decide (t.counter + 1#16 = t.target) && t.mode.getLsbD 10)) := by
  unfold Timer.tick Timer.irqEnabled; dsimp only
  by_cases h : t.counter + 1#16 = t.target <;> simp [h]

theorem State.tickTimer_timers (s : State) (i : Fin 3) :
    (s.tickTimer i).timers = s.timers.set i { s.timers[i].tick with irqPending := false } := by
  unfold State.tickTimer; dsimp only; split <;> rfl

/-- Every timer ticks once and keeps no pending edge. -/
theorem State.tickTimers_timer (s : State) (i : Fin 3) :
    s.tickTimers.timers[i] = { s.timers[i].tick with irqPending := false } := by
  simp only [State.tickTimers, State.tickTimer_timers]
  match i with
  | 0 => simp
  | 1 => simp
  | 2 => simp

theorem State.readC0_tickTimer (s : State) (i : Fin 3) (m : Slot) : (s.tickTimer i).readC0 m =
    if m = slotCause ∧ s.timers[i].tick.irqPending = true then setBit s.cause (11 + i.val) true else s.readC0 m := by
  have e : 8 + (i.val + 3) = 11 + i.val := by omega
  unfold State.tickTimer; dsimp only
  split
  · rename_i h
    rw [State.readC0_setIRQ]
    simp only [h, and_true, e]
    rfl
  · rename_i h
    rw [if_neg (fun c => h c.2)]
    rfl

/-- Stage 5 writes no COP0 slot but Cause. -/
theorem State.readC0_tickTimers (s : State) {m : Slot} (h : m ≠ slotCause) : s.tickTimers.readC0 m = s.readC0 m := by
  simp [State.tickTimers, State.readC0_tickTimer, h]

@[simp] theorem State.tickTimers_status (s : State) : s.tickTimers.status = s.status := s.readC0_tickTimers (by decide)
@[simp] theorem State.tickTimers_epc (s : State) : s.tickTimers.epc = s.epc := s.readC0_tickTimers (by decide)
@[simp] theorem State.tickTimers_badVAddr (s : State) : s.tickTimers.badVAddr = s.badVAddr := s.readC0_tickTimers (by decide)

theorem State.cause_tickTimer (s : State) (i : Fin 3) (j : Nat) (hj : j < 32) : (s.tickTimer i).cause.getLsbD j =
    (s.cause.getLsbD j || (decide (j = 11 + i.val) && s.timers[i].tick.irqPending)) := by
  rw [State.cause, State.readC0_tickTimer]
  by_cases h : s.timers[i].tick.irqPending = true
  · rw [if_pos ⟨rfl, h⟩, setBit_getLsbD _ _ _ _ hj, h]
    by_cases e : j = 11 + i.val <;> simp [e]
  · rw [if_neg (fun c => h c.2)]
    simp only [Bool.not_eq_true] at h
    rw [h]; simp [State.cause]

/-- Stage 5 sets the Cause bit of each timer with a pending edge and touches no other bit. -/
theorem State.cause_tickTimers (s : State) (j : Nat) (hj : j < 32) : s.tickTimers.cause.getLsbD j =
    (s.cause.getLsbD j || (decide (j = 11) && s.timers[0].tick.irqPending) ||
      (decide (j = 12) && s.timers[1].tick.irqPending) || (decide (j = 13) && s.timers[2].tick.irqPending)) := by
  simp only [State.tickTimers, State.cause_tickTimer _ _ _ hj, State.tickTimer_timers]
  simp

theorem State.cause_tickTimers_line (s : State) (i : Fin 3) : s.tickTimers.cause.getLsbD (11 + i.val) =
    (s.cause.getLsbD (11 + i.val) || s.timers[i].tick.irqPending) := by
  rw [State.cause_tickTimers _ _ (by omega)]
  match i with
  | 0 => simp
  | 1 => simp
  | 2 => simp

/-- Stage 5 changes the timers and COP0, and nothing else. -/
theorem State.tickTimers_eq (s : State) :
    s.tickTimers = { s with timers := s.tickTimers.timers, c0 := s.tickTimers.c0 } := by
  have key : ∀ (s : State) (i : Fin 3), s.tickTimer i = { s with timers := (s.tickTimer i).timers, c0 := (s.tickTimer i).c0 } := by
    intro s i; unfold State.tickTimer; dsimp only; split <;> rfl
  unfold State.tickTimers
  rw [key ((s.tickTimer 0).tickTimer 1) 2, key (s.tickTimer 0) 1, key s 0]

end Sys2Proof.Machine
end

