-- ==== Sys2Proof/Laws/Exec.lean ====
section
/-! SUPPORT. Once and for all instructions: what `exec` can answer, and what `execFetched` can. Every rule of the whole
machine is proved from these, not by unfolding the meanings. -/

namespace Sys2Proof.Machine

/-- What an instruction does before the PC update, where it raises nothing: one effect of this list. -/
inductive Effect (i : Instr) (s : State) : State → Prop
  | none : Effect i s s
  | reg (rd : Reg) (v : Word) : Effect i s (s.writeReg rd v)
  | load (a : Word) (n : Width) (rd : Reg) (v : Word) : Effect i s ((s.noteRead a n).writeReg rd v)
  | hiLo (h l : Word) : Effect i s (s.writeHiLo h l)
  | divideByZero : Effect i s (s.emit (.divideByZero s.pc))
  | store (a : Word) (n : Width) (v : Word) (ha : storeAddress s i = some a) (hal : aligned n a = true)
      (hw : n = .word → ∃ rt base offset, i = .sw rt base offset) : Effect i s (s.memWrite a n v)
  | storeMerged (a : Word) (v : Word) (ha : storeAddress s i = some a) (hal : aligned .word a = true)
      (hw : ∃ rt base offset, i = .swl rt base offset ∨ i = .swr rt base offset) :
      Effect i s ((s.noteRead a .word).memWrite a .word v)
  | cop0 (rt : Reg) (n : Slot) (hi : i = .mtc0 rt n) : Effect i s (s.writeC0 n (s.readReg rt))

/-- How an instruction ends. -/
inductive Ends (i : Instr) (s : State) : State → Prop
  | advance (u : State) (hu : Effect i s u) (hi : i ≠ .eret) : Ends i s u.advance
  | branch (u : State) (x : Word) (hu : Effect i s u) (hi : IsControl i)
      (hx : (∀ rs, i ≠ .jr rs) → (∀ rd rs, i ≠ .jalr rd rs) → s.pc.toNat % 4 = 0 → x.toNat % 4 = 0) : Ends i s (u.branch x)
  | raise (e : Exc) (bad : Word) (he : e ≠ .interrupt) (hi : i ≠ .eret) : Ends i s (s.enter e s.pc bad)
  | ret (hi : i = .eret) : Ends i s s.exceptionReturn

theorem jumpTarget_mod (pc : Word) (target : BitVec 26) : (jumpTarget pc target).toNat % 4 = 0 := by
  have : (jumpTarget pc target &&& 3#32).toNat = 0 := by
    have e : jumpTarget pc target &&& 3#32 = 0#32 := by
      apply BitVec.eq_of_getLsbD_eq
      intro i hi
      simp only [jumpTarget, BitVec.getLsbD_and, BitVec.getLsbD_or, BitVec.getLsbD_shiftLeft, BitVec.getLsbD_zero]
      by_cases h : i < 2
      · have h0 : (0xF0000000#32 : Word).getLsbD i = false := by
          have : i = 0 ∨ i = 1 := by omega
          rcases this with rfl | rfl <;> rfl
        simp [h0, h]
      · have h3 : (3#32 : Word).getLsbD i = false := by
          rw [show (3#32 : Word) = BitVec.ofNat 32 (2 ^ 2 - 1) from rfl, BitVec.getLsbD_ofNat, Nat.testBit_two_pow_sub_one]
          simp [h]
        rw [h3, Bool.and_false]
    rw [e]; rfl
  rw [BitVec.toNat_and] at this
  have e3 := Nat.and_two_pow_sub_one_eq_mod (jumpTarget pc target).toNat 2
  exact e3.symm.trans this

theorem branchTarget_mod {pc : Word} (imm : BitVec 16) (h : pc.toNat % 4 = 0) : (branchTarget pc imm).toNat % 4 = 0 := by
  simp only [branchTarget, BitVec.toNat_add, BitVec.toNat_shiftLeft, Nat.shiftLeft_eq]
  omega

section
variable {i : Instr} {s t : State}

theorem Ends.of_writeResult {rd : Reg} {v : Word} (hi : i ≠ .eret) (h : writeResult s rd v = .next t) : Ends i s t := by
  cases h; exact .advance _ (.reg rd v) hi

theorem Ends.of_writeUnlessOverflow {rd : Reg} {v : Word} {b : Bool} (hi : i ≠ .eret)
    (h : writeUnlessOverflow s rd v b = .next t) : Ends i s t := by
  unfold writeUnlessOverflow at h
  split at h
  · cases h; exact .raise _ _ (by simp) hi
  · exact .of_writeResult hi h

theorem Ends.of_loadValue {n : Width} {f : Word → Word} {rt : Reg} {a : Word} (hi : i ≠ .eret)
    (h : loadValue s n f rt a = .next t) : Ends i s t := by
  cases h; exact .advance _ (.load _ _ _ _) hi

theorem Ends.of_loadAligned {n : Width} {f : Word → Word} {rt : Reg} {a : Word} (hi : i ≠ .eret)
    (h : loadAligned s n f rt a = .next t) : Ends i s t := by
  unfold loadAligned at h
  split at h
  · exact .of_loadValue hi h
  · cases h; exact .raise _ _ (by simp) hi

theorem Ends.of_storeAligned {n : Width} {v : Word} {a : Word} (hi : i ≠ .eret) (ha : storeAddress s i = some a)
    (hw : n = .word → ∃ rt base offset, i = .sw rt base offset) (h : storeAligned s n v a = .next t) : Ends i s t := by
  unfold storeAligned at h
  split at h
  · rename_i hal
    cases h; exact .advance _ (.store _ _ _ ha hal hw) hi
  · cases h; exact .raise _ _ (by simp) hi

theorem Ends.of_storeMerged {m : Word → Word → Nat → Word} {rt : Reg} {a : Word} (hi : i ≠ .eret)
    (ha : storeAddress s i = some (alignedWord a)) (hw : ∃ rt base offset, i = .swl rt base offset ∨ i = .swr rt base offset)
    (h : storeMerged s m rt a = .next t) : Ends i s t := by
  cases h; exact .advance _ (.storeMerged _ _ ha (alignedWord_aligned a) hw) hi

theorem Ends.of_divideResult {d r q : Word} (hi : i ≠ .eret) (h : divideResult s d r q = .next t) : Ends i s t := by
  unfold divideResult at h
  split at h
  · cases h; exact .advance _ .divideByZero hi
  · cases h; exact .advance _ (.hiLo _ _) hi

theorem Ends.of_branchIf {u : State} (hu : Effect i s u) (b : Bool) {x : Word} (hi : IsControl i) (he : i ≠ .eret)
    (hx : s.pc.toNat % 4 = 0 → x.toNat % 4 = 0) : Ends i s (u.branchIf b x) := by
  unfold State.branchIf
  split
  · exact .branch _ _ hu hi (fun _ _ => hx)
  · exact .advance _ hu he

end

/-- What `exec` can answer. -/
theorem exec_ends {i : Instr} {s t : State} (h : exec i s = .next t) : Ends i s t := by
  cases i with
  | sll | srl | sra | sllv | srlv | srav => exact .of_writeResult (by simp) h
  | syscall | brk => cases h; exact .raise _ _ (by simp) (by simp)
  | mult | multu => cases h; exact .advance _ (.hiLo _ _) (by simp)
  | div | divu => exact .of_divideResult (by simp) h
  | add | sub | addi => exact .of_writeUnlessOverflow (by simp) h
  | addu | subu | and | or | xor | nor | slt | sltu => exact .of_writeResult (by simp) h
  | slti | addiu | sltiu | andi | ori | xori | lui => exact .of_writeResult (by simp) h
  | mfhi | mflo | mfc0 => exact .of_writeResult (by simp) h
  | mthi | mtlo => cases h; exact .advance _ (.hiLo _ _) (by simp)
  | mtc0 rt n => cases h; exact .advance _ (.cop0 rt n rfl) (by simp)
  | eret => cases h; exact .ret rfl
  | lb | lbu => exact .of_loadValue (by simp) h
  | lwl | lwr => cases h; exact .advance _ (.load _ _ _ _) (by simp)
  | lh | lhu | lw => exact .of_loadAligned (by simp) h
  | sb rt base offset =>
    cases h
    exact .advance _ (.store _ _ _ rfl ((aligned_iff _ _).mpr (Nat.mod_one _)) (fun h => absurd h (by simp))) (by simp)
  | sh rt base offset => exact .of_storeAligned (by simp) rfl (fun h => absurd h (by simp)) h
  | sw rt base offset => exact .of_storeAligned (by simp) rfl (fun _ => ⟨rt, base, offset, rfl⟩) h
  | swl rt base offset => exact .of_storeMerged (by simp) rfl ⟨rt, base, offset, .inl rfl⟩ h
  | swr rt base offset => exact .of_storeMerged (by simp) rfl ⟨rt, base, offset, .inr rfl⟩ h
  | j => cases h; exact .branch _ _ .none trivial (fun _ _ _ => jumpTarget_mod _ _)
  | jal => cases h; exact .branch _ _ (.reg _ _) trivial (fun _ _ _ => jumpTarget_mod _ _)
  | jr rs => cases h; exact .branch _ _ .none trivial (fun h _ => absurd rfl (h rs))
  | jalr rd rs => cases h; exact .branch _ _ (.reg _ _) trivial (fun _ h => absurd rfl (h rd rs))
  | beq | bne | blez | bgtz | bltz | bgez => cases h; exact .of_branchIf .none _ trivial (by simp) (branchTarget_mod _)
  | bltzal | bgezal => cases h; exact .of_branchIf (.reg _ _) _ trivial (by simp) (branchTarget_mod _)

/-- Every instruction answers a next state (70_reset_and_hazards.md R237). -/
theorem exec_total (i : Instr) (s : State) : ∃ t, exec i s = .next t := by
  have key : ∀ r : Result, (∀ f, r ≠ .fault f) → (∀ f, r ≠ .refused f) → ∃ t, r = .next t := fun r _ h => by
    cases r with
    | next t => exact ⟨t, rfl⟩
    | fault f => cases f
    | refused f => exact absurd rfl (h f)
  refine key _ (fun f => nomatch f) (fun f h => ?_)
  have hif : ∀ (b : Bool) (x y : State), ¬ ((if b = true then Host.Outcome.next x else Host.Outcome.next y) : Result) = .refused f := by
    intro b x y h; split at h <;> cases h
  cases i with
  | add | sub | addi => exact hif _ _ _ h
  | lh | lhu | lw | sh | sw => exact hif _ _ _ h
  | div | divu => simp only [exec, execDiv, execDivu, divideResult] at h; split at h <;> cases h
  | sll | srl | sra | sllv | srlv | srav | syscall | brk | mult | multu => cases h
  | addu | subu | and | or | xor | nor | slt | sltu => cases h
  | slti | addiu | sltiu | andi | ori | xori | lui => cases h
  | mfhi | mflo | mfc0 | mthi | mtlo | mtc0 | eret | lb | lbu | lwl | lwr | sb | swl | swr => cases h
  | j | jal | jr | jalr | beq | bne | blez | bgtz | bltz | bgez | bltzal | bgezal => cases h

/-- What `execFetched` can answer: the meaning of the decoded instruction, an exception of the fetch, or the refusal. -/
theorem execFetched_next {s m : State} (h : execFetched s = .next m) :
    (∃ i, s.Executes i ∧ Ends i s.fetched m) ∨
    (s.pc.toNat % 4 = 0 ∧ decode s.mips1Ext s.fetchWord = .reserved ∧ m = s.fetched.enter .reservedInstruction s.pc 0#32) ∨
    (s.pc.toNat % 4 ≠ 0 ∧ m = s.enter .addressErrorLoad s.pc s.pc) := by
  unfold execFetched at h
  split at h
  · rename_i ha
    have ha := (aligned_iff _ _).mp ha
    split at h
    · rename_i i hd
      exact .inl ⟨i, ⟨ha, hd⟩, exec_ends h⟩
    · rename_i hd
      cases h
      refine .inr (.inl ⟨ha, hd, ?_⟩)
      unfold State.raise
      rw [State.fetched_pc]
    · cases h
  · rename_i ha
    cases h
    exact .inr (.inr ⟨fun e => ha ((aligned_iff _ _).mpr e), rfl⟩)

/-- A step is `execFetched`, then stages 4 to 6. -/
theorem step_next {s v : State} : step s = .next v ↔ ∃ m, execFetched s = .next m ∧ v = m.finishStep s.pc := by
  unfold step
  cases h : execFetched s with
  | next m => simp [eq_comm]
  | fault f => cases f
  | refused f => simp

/-! ## What follows for every step -/

/-- Which words are the GTE's (30_encoding.md R57). -/
theorem decode_gte_iff (ext : Bool) (w : Word) : decode ext w = .gte ↔ (fieldOp w = 0x12#6 ∨ fieldOp w = 0x32#6 ∨ fieldOp w = 0x3A#6) := by
  have hg : ∀ i, gated ext i ≠ .gte := by intro i; unfold gated; split <;> simp
  have hs : decodeSpecial ext w ≠ .gte := by
    unfold decodeSpecial; split <;> first | exact hg _ | simp
  have hr : decodeRegimm ext w ≠ .gte := by
    unfold decodeRegimm; split <;> first | exact hg _ | simp
  have hc : decodeCop0 w ≠ .gte := by
    unfold decodeCop0; split <;> first | simp; done | (split <;> simp)
  constructor
  · intro h
    unfold decode at h
    split at h
    all_goals first
      | exact absurd h hs | exact absurd h hr | exact absurd h hc | exact absurd h (hg _) | (simp at h; done)
      | (rename_i h'; first | exact .inl (BitVec.eq_of_toNat_eq h') | exact .inr (.inl (BitVec.eq_of_toNat_eq h')) | exact .inr (.inr (BitVec.eq_of_toNat_eq h')))
  · rintro (h | h | h) <;> simp [decode, h]

/-- No effect touches the sequencer. -/
theorem Effect.seq {i : Instr} {s u : State} (h : Effect i s u) : u.pc = s.pc ∧ u.nextPC = s.nextPC ∧ u.inDelaySlot = s.inDelaySlot := by
  cases h <;> simp [State.writeC0]

theorem Effect.followingPc {i : Instr} {s u : State} (h : Effect i s u) : u.followingPc = if s.inDelaySlot then s.nextPC else s.pc + 4#32 := by
  obtain ⟨h1, h2, h3⟩ := h.seq
  unfold State.followingPc; rw [h1, h2, h3]

/-- `active` is not zero when a line is enabled and pending (60_exceptions.md R162). -/
theorem State.activeLines_iff (s : State) : (s.activeLines != 0#32) = true ↔ LinePending s := by
  have hb : ∀ j, s.activeLines.getLsbD j = (s.status.getLsbD (8 + j) && s.cause.getLsbD (8 + j) && decide (j < 8)) := by
    intro j
    have h255 : (0xFF#32 : Word).getLsbD j = decide (j < 8) := by
      rw [show (0xFF#32 : Word) = BitVec.ofNat 32 (2 ^ 8 - 1) from rfl, BitVec.getLsbD_ofNat, Nat.testBit_two_pow_sub_one]
      by_cases h : j < 8 <;> simp [h]; omega
    simp only [State.activeLines, BitVec.getLsbD_and, BitVec.getLsbD_ushiftRight, h255]
  rw [bne_iff_ne, ne_eq]
  constructor
  · intro h
    by_contra hc
    apply h
    apply BitVec.eq_of_getLsbD_eq
    intro j hj
    rw [hb, BitVec.getLsbD_zero]
    by_contra hx
    simp only [Bool.not_eq_false, Bool.and_eq_true, decide_eq_true_eq] at hx
    exact hc ⟨j, hx.2, hx.1.1, hx.1.2⟩
  · rintro ⟨n, hn, h1, h2⟩ h
    have := hb n
    rw [h, h1, h2, BitVec.getLsbD_zero] at this
    simp [hn] at this

/-- When the poll delivers (60_exceptions.md R162). -/
theorem State.interruptReady_iff (s : State) : s.interruptReady = true ↔ s.status.getLsbD 0 = true ∧ s.status.getLsbD 1 = false ∧ LinePending s := by
  unfold State.interruptReady State.ie State.exl
  rw [Bool.and_eq_true, Bool.and_eq_true, State.activeLines_iff]
  simp [and_assoc]

theorem Ends.result {i : Instr} {s m : State} (h : Ends i s m) : (m.result = .ok) ∨ ∃ e bad, e ≠ .interrupt ∧ m = s.enter e s.pc bad := by
  cases h with
  | advance u => exact .inl rfl
  | branch u => exact .inl rfl
  | raise e bad he => exact .inr ⟨e, bad, he, rfl⟩
  | ret => exact .inl rfl

/-- Stages 1 to 3 end well or have taken an exception. -/
theorem execFetched_result {s m : State} (h : execFetched s = .next m) : m.result = .ok ∨ ∃ e bad, ∃ f, (f = s ∨ f = s.fetched) ∧ m = f.enter e s.pc bad := by
  rcases execFetched_next h with ⟨i, _, he⟩ | ⟨_, _, rfl⟩ | ⟨_, rfl⟩
  · rcases he.result with h | ⟨e, bad, _, h⟩
    · exact .inl h
    · refine .inr ⟨e, bad, _, .inr rfl, ?_⟩; rw [h, State.fetched_pc]
  · exact .inr ⟨_, _, _, .inr rfl, rfl⟩
  · exact .inr ⟨_, _, _, .inl rfl, rfl⟩

theorem Effect.frame {i : Instr} {s u : State} (h : Effect i s u) : u.bios = s.bios ∧ SameConfig s u := by
  cases h <;> simp [SameConfig, State.writeC0]

theorem Ends.frame {i : Instr} {s m : State} (h : Ends i s m) : m.bios = s.bios ∧ SameConfig s m := by
  cases h with
  | advance u hu => exact hu.frame
  | branch u x hu => exact hu.frame
  | raise e bad => simp [SameConfig]
  | ret => exact ⟨rfl, rfl, rfl⟩

/-- Stages 1 to 3 write neither the BIOS image nor the configuration. -/
theorem execFetched_frame {s m : State} (h : execFetched s = .next m) : m.bios = s.bios ∧ SameConfig s m := by
  rcases execFetched_next h with ⟨i, _, he⟩ | ⟨_, _, rfl⟩ | ⟨_, rfl⟩
  · simpa [SameConfig] using he.frame
  · simp [SameConfig]
  · simp [SameConfig]

/-- The output streams only grow. -/
def Grows (s t : State) : Prop := (∃ ds, t.diag = s.diag ++ ds) ∧ (∃ es, t.render = s.render ++ es)

theorem Grows.refl (s : State) : Grows s s := ⟨⟨[], by simp⟩, ⟨[], by simp⟩⟩

theorem Grows.trans {s t u : State} (h : Grows s t) (h' : Grows t u) : Grows s u := by
  obtain ⟨⟨a, ha⟩, ⟨b, hb⟩⟩ := h
  obtain ⟨⟨c, hc⟩, ⟨d, hd⟩⟩ := h'
  exact ⟨⟨a ++ c, by rw [hc, ha, List.append_assoc]⟩, ⟨b ++ d, by rw [hd, hb, List.append_assoc]⟩⟩

theorem Grows.of_eq {s t : State} (h1 : t.diag = s.diag) (h2 : t.render = s.render) : Grows s t := ⟨⟨[], by simp [h1]⟩, ⟨[], by simp [h2]⟩⟩

theorem Grows.emit (s : State) (d : Diag) : Grows s (s.emit d) := ⟨⟨[d], rfl⟩, ⟨[], by simp [State.emit]⟩⟩

theorem Grows.render1 (s : State) (d : RenderEvent) : Grows s (s.render1 d) := ⟨⟨[], by simp [State.render1]⟩, ⟨[d], rfl⟩⟩

theorem grows_dispatch (s : State) (q : List Word) : Grows s (s.gpuDispatch q) := by
  unfold State.gpuDispatch; dsimp only
  repeat' split
  all_goals first
    | exact .of_eq rfl rfl
    | exact .emit _ _
    | exact .render1 _ _
    | exact (Grows.render1 _ _).trans (.render1 _ _)

theorem grows_complete (s : State) : Grows s s.completeTransfer := by
  unfold State.completeTransfer; dsimp only
  split
  · exact (Grows.render1 s _).trans (.of_eq rfl rfl)
  · exact (Grows.render1 s _).trans (.of_eq rfl rfl)

theorem grows_command (s : State) (w : Word) : Grows s (s.gpuWriteCommand w) := by
  unfold State.gpuWriteCommand
  split
  · unfold State.gpuIdle; dsimp only
    split
    · exact .of_eq rfl rfl
    · split
      · exact (grows_dispatch s _).trans (.of_eq rfl rfl)
      · exact .of_eq rfl rfl
  · unfold State.gpuAwaiting; dsimp only
    split
    · split
      · exact Grows.trans (.of_eq rfl rfl) (grows_complete _)
      · exact .of_eq rfl rfl
    · exact .of_eq rfl rfl
  · unfold State.gpuTransferring; dsimp only
    split
    · exact Grows.trans (.of_eq rfl rfl) (grows_complete _)
    · exact .of_eq rfl rfl

theorem grows_memWrite (s : State) (a : Word) (n : Width) (v : Word) : Grows s (s.memWrite a n v) := by
  unfold State.memWrite
  split
  · exact .of_eq rfl rfl
  · exact .emit _ _
  · split
    · exact .of_eq rfl rfl
    · exact .emit _ _
  · split
    · exact grows_command _ _
    · exact .emit _ _
  · split
    · unfold State.gpuWriteControl
      repeat' split
      all_goals exact .of_eq rfl rfl
    · exact .emit _ _
  · exact .emit _ _

theorem grows_noteRead (s : State) (a : Word) (n : Width) : Grows s (s.noteRead a n) := by
  unfold State.noteRead; split
  · exact .refl _
  · exact .emit _ _

theorem Effect.grows {i : Instr} {s u : State} (h : Effect i s u) : Grows s u := by
  cases h with
  | none => exact .refl _
  | reg => exact .of_eq (by simp) (by simp)
  | load a n rd v => exact (grows_noteRead s a n).trans (.of_eq (by simp) (by simp))
  | hiLo => exact .of_eq rfl rfl
  | divideByZero => exact .emit _ _
  | store => exact grows_memWrite _ _ _ _
  | storeMerged => exact (grows_noteRead _ _ _).trans (grows_memWrite _ _ _ _)
  | cop0 => exact .of_eq rfl rfl

/-- Stages 1 to 3 only append to the output streams. -/
theorem execFetched_grows {s m : State} (h : execFetched s = .next m) : Grows s m := by
  rcases execFetched_next h with ⟨i, _, he⟩ | ⟨_, _, rfl⟩ | ⟨_, rfl⟩
  · refine (grows_noteRead s s.pc .word).trans ?_
    cases he with
    | advance u hu => exact hu.grows.trans (.of_eq rfl rfl)
    | branch u x hu => exact hu.grows.trans (.of_eq rfl rfl)
    | raise e bad => exact .of_eq (by simp [State.fetched]) (by simp [State.fetched])
    | ret => exact .of_eq rfl rfl
  · exact (grows_noteRead s s.pc .word).trans (.of_eq (by simp [State.fetched]) (by simp [State.fetched]))
  · exact .of_eq (by simp) (by simp)

/-- Only a word write to a port changes the GPU (20_memory.md R37). -/
theorem State.memWrite_gpu (s : State) (a : Word) (n : Width) (v : Word) (h : (s.memWrite a n v).gpu ≠ s.gpu) :
    n = .word ∧ (a = 0x1F801810#32 ∨ a = 0x1F801814#32) := by
  unfold State.memWrite at h
  split at h
  · exact absurd rfl h
  · exact absurd rfl h
  · split at h <;> exact absurd rfl h
  · rename_i hr
    split at h
    · refine ⟨‹_›, .inl ?_⟩
      unfold region at hr
      repeat' split at hr
      all_goals first | (simp at hr; done) | assumption
    · exact absurd rfl h
  · rename_i hr
    split at h
    · refine ⟨‹_›, .inr ?_⟩
      unfold region at hr
      repeat' split at hr
      all_goals first | (simp at hr; done) | assumption
    · exact absurd rfl h
  · exact absurd rfl h

/-- Only a store changes RAM or the GPU. -/
theorem Effect.stores {i : Instr} {s u : State} (h : Effect i s u) : (u.ram ≠ s.ram → ∃ a o, storeAddress s i = some a ∧ region a = .ram o) ∧
   (u.gpu ≠ s.gpu → ∃ a, storeAddress s i = some a ∧ (a = 0x1F801810#32 ∨ a = 0x1F801814#32) ∧
      ∃ rt base offset, i = .sw rt base offset ∨ i = .swl rt base offset ∨ i = .swr rt base offset) := by
  have hram : ∀ (s : State) a n v, (s.memWrite a n v).ram ≠ s.ram → ∃ o, region a = .ram o := by
    intro s a n v h
    by_contra hc
    exact h (s.memWrite_ram_other (fun o e => hc ⟨o, e⟩) n v)
  cases h with
  | none => exact ⟨fun h => absurd rfl h, fun h => absurd rfl h⟩
  | reg => exact ⟨fun h => absurd (by simp) h, fun h => absurd (by simp) h⟩
  | load => exact ⟨fun h => absurd (by simp) h, fun h => absurd (by simp) h⟩
  | hiLo => exact ⟨fun h => absurd rfl h, fun h => absurd rfl h⟩
  | divideByZero => exact ⟨fun h => absurd rfl h, fun h => absurd rfl h⟩
  | cop0 => exact ⟨fun h => absurd rfl h, fun h => absurd rfl h⟩
  | store a n v ha hal hw =>
    refine ⟨fun h => ?_, fun h => ?_⟩
    · obtain ⟨o, ho⟩ := hram _ _ _ _ h; exact ⟨a, o, ha, ho⟩
    · have := State.memWrite_gpu _ _ _ _ h
      obtain ⟨rt, b, o, e⟩ := hw this.1
      exact ⟨a, ha, this.2, rt, b, o, .inl e⟩
  | storeMerged a v ha hal hw =>
    refine ⟨fun h => ?_, fun h => ?_⟩
    · rw [← State.noteRead_ram s a .word] at h
      obtain ⟨o, ho⟩ := hram _ _ _ _ h; exact ⟨a, o, ha, ho⟩
    · rw [← State.noteRead_gpu s a .word] at h
      have := State.memWrite_gpu _ _ _ _ h
      obtain ⟨rt, b, o, e⟩ := hw
      exact ⟨a, ha, this.2, rt, b, o, .inr e⟩

theorem storeAddress_fetched (s : State) (i : Instr) : storeAddress s.fetched i = storeAddress s i := by
  cases i <;> simp [storeAddress, State.ea]

/-- Only MTC0 to Status writes Status. -/
theorem Effect.status {i : Instr} {s u : State} (h : Effect i s u) : u.status = s.status ∨ ∃ rt, i = .mtc0 rt 12 ∧ u.status = s.readReg rt := by
  cases h with
  | none => exact .inl rfl
  | reg => exact .inl (by simp)
  | load => exact .inl (by simp)
  | hiLo => exact .inl rfl
  | divideByZero => exact .inl rfl
  | store => exact .inl (State.readC0_memWrite _ _ _ _ (by decide))
  | storeMerged => exact .inl ((State.readC0_memWrite _ _ _ _ (by decide)).trans (by simp [State.status]))
  | cop0 rt n hi =>
    by_cases hn : n = 12
    · subst hn; exact .inr ⟨rt, hi, State.readC0_writeC0_self _ _ _⟩
    · refine .inl ?_
      rw [State.status, State.readC0_writeC0, if_neg (fun e => hn e.symm)]; rfl

end Sys2Proof.Machine
end

