-- ==== Sys2Proof/Laws/HostPort.lean ====
section
/-! SUPPORT. What supplying a BIOS image answers, in each of its three cases (00_scope.md R7; 20_memory.md R36). -/

namespace Sys2Proof.Machine

theorem State.loadBios_next {s : State} {image : List Byte} (hl : image.length = Config.biosSize) (hs : s.stepped = false) :
    s.loadBios image = .next { s with bios := imageMemory image } := by
  rw [State.loadBios, if_neg (not_not.mpr hl), if_neg (by rw [hs]; decide)]

theorem State.loadBios_stepped {s : State} {image : List Byte} (hl : image.length = Config.biosSize) (hs : s.stepped = true) :
    s.loadBios image = .refused .biosImageAfterFirstStep := by
  rw [State.loadBios, if_neg (not_not.mpr hl), if_pos hs]

theorem State.loadBios_length {s : State} {image : List Byte} (hl : image.length ≠ Config.biosSize) :
    s.loadBios image = .refused (.biosImageLength image.length) := if_pos hl

end Sys2Proof.Machine
end

