-- ==== Sys2Proof/Laws/Vram.lean ====
section
/-! SUPPORT. VRAM pixel by pixel: what a fill, a copy and a data word of a transfer leave in each pixel, and that they
keep the canonical form (62_gpu.md R201, R205, R206). -/

namespace Sys2Proof.Machine

/-- VRAM in canonical form. -/
abbrev vramWf (v : Store 16) : Prop := Store.wf (Config.vramWidth * Config.vramHeight) v = true

/-- Pixel `(x, y)` of a VRAM. -/
def vramPixel (v : Store 16) (x y : Nat) : Pixel := Store.read v (pixelIndex x y)

theorem Gpu.pixel_eq (g : Gpu) (x y : Nat) : g.pixel x y = vramPixel g.vram x y := rfl

theorem pixelIndex_inj {x y x' y' : Nat} (h : x < 1024) (h' : x' < 1024) : pixelIndex x y = pixelIndex x' y' ↔ x = x' ∧ y = y' := by
  simp only [pixelIndex, Config.vramWidth]; omega

theorem pixelIndex_lt {x y : Nat} (h : x < 1024) (h' : y < 512) : pixelIndex x y < Config.vramWidth * Config.vramHeight := by
  simp only [pixelIndex, Config.vramWidth, Config.vramHeight]; omega

theorem inVram_iff (x y : Nat) : inVram x y = true ↔ x < 1024 ∧ y < 512 := by
  unfold inVram
  rw [Bool.and_eq_true, decide_eq_true_iff, decide_eq_true_iff]; rfl

/-- A pixel written inside VRAM. -/
theorem vramWf_write {v : Store 16} (p : Pixel) {x y : Nat} (h : vramWf v) (hx : x < 1024) (hy : y < 512) :
    vramWf (Store.write v (pixelIndex x y) p) := Store.wf_write p h (pixelIndex_lt hx hy)

theorem vramPixel_write {v : Store 16} (h : vramWf v) (p : Pixel) {x y x' y' : Nat} (hx : x < 1024) (hx' : x' < 1024) :
    vramPixel (Store.write v (pixelIndex x' y') p) x y = if x = x' ∧ y = y' then p else vramPixel v x y := by
  unfold vramPixel
  rw [Store.read_write h]
  simp only [pixelIndex_inj hx hx']

/-! ## Loops -/

theorem foldl_range_succ {α : Type} (f : α → Nat → α) (a : α) (n : Nat) :
    (List.range (n + 1)).foldl f a = f ((List.range n).foldl f a) n := by
  rw [List.range_succ, List.foldl_append]; rfl

/-- A property every iteration keeps, holds after the loop. -/
theorem foldl_range_inv {α : Type} {P : Nat → α → Prop} (f : α → Nat → α) (a : α) (n : Nat) (h0 : P 0 a)
    (hs : ∀ k b, k < n → P k b → P (k + 1) (f b k)) : P n ((List.range n).foldl f a) := by
  have key : ∀ m, m ≤ n → P m ((List.range m).foldl f a) := by
    intro m
    induction m with
    | zero => intro _; exact h0
    | succ m ih => intro hm; rw [foldl_range_succ]; exact hs m _ (by omega) (ih (by omega))
  exact key n (Nat.le_refl n)

/-- Two nested loops are one loop over the rows, left to right. -/
theorem foldl_rows {α : Type} (f : α → Nat → Nat → α) (w h : Nat) (a : α) :
    (List.range h).foldl (fun a j => (List.range w).foldl (fun a i => f a i j) a) a
      = (List.range (w * h)).foldl (fun a n => f a (n % w) (n / w)) a := by
  induction h with
  | zero => rfl
  | succ h ih =>
    rw [foldl_range_succ, ih, Nat.mul_succ, List.range_add, List.foldl_append, List.foldl_map]
    refine List.foldl_ext _ _ _ fun b k hk => ?_
    have hk : k < w := List.mem_range.mp hk
    rw [Nat.mul_add_mod, Nat.mod_eq_of_lt hk, Nat.mul_add_div (by omega), Nat.div_eq_of_lt hk, Nat.add_zero]

/-! ## The fill -/

theorem fillPixel_spec {v : Store 16} (h : vramWf v) (p : Pixel) (x' y' : Nat) :
    vramWf (fillPixel p v x' y') ∧ ∀ x y, x < 1024 → y < 512 →
      vramPixel (fillPixel p v x' y') x y = if x = x' ∧ y = y' then p else vramPixel v x y := by
  unfold fillPixel
  by_cases hin : inVram x' y' = true
  · rw [if_pos hin]
    rw [inVram_iff] at hin
    exact ⟨vramWf_write p h hin.1 hin.2, fun x y hx hy => vramPixel_write h p hx hin.1⟩
  · rw [if_neg hin]
    rw [inVram_iff] at hin
    refine ⟨h, fun x y hx hy => ?_⟩
    rw [if_neg]; rintro ⟨rfl, rfl⟩; exact hin ⟨hx, hy⟩

/-- The fill keeps the canonical form and leaves the colour in its rectangle (62_gpu.md R206). -/
theorem fillRect_spec {v : Store 16} (hv : vramWf v) (p : Pixel) (x0 y0 w h : Nat) :
    vramWf (fillRect p x0 y0 w h v) ∧ ∀ x y, x < 1024 → y < 512 →
      vramPixel (fillRect p x0 y0 w h v) x y =
        if x0 ≤ x ∧ x < x0 + w ∧ y0 ≤ y ∧ y < y0 + h then p else vramPixel v x y := by
  unfold fillRect
  refine foldl_range_inv (P := fun n (u : Store 16) => vramWf u ∧ ∀ x y, x < 1024 → y < 512 →
      vramPixel u x y = if x0 ≤ x ∧ x < x0 + w ∧ y0 ≤ y ∧ y < y0 + n then p else vramPixel v x y) _ _ _ ?_ ?_
  · exact ⟨hv, fun x y _ _ => by rw [if_neg (by omega)]⟩
  · intro j u hj ⟨hu, hp⟩
    have inner := foldl_range_inv (P := fun n (t : Store 16) => vramWf t ∧ ∀ x y, x < 1024 → y < 512 →
      vramPixel t x y = if x0 ≤ x ∧ x < x0 + n ∧ y = y0 + j then p else vramPixel u x y)
      (fun v i => fillPixel p v (x0 + i) (y0 + j)) u w ⟨hu, fun x y _ _ => by rw [if_neg (by omega)]⟩ (by
        intro i t hi ⟨ht, hq⟩
        have hs := fillPixel_spec ht p (x0 + i) (y0 + j)
        refine ⟨hs.1, fun x y hx hy => ?_⟩
        rw [hs.2 x y hx hy, hq x y hx hy]
        by_cases h1 : x = x0 + i ∧ y = y0 + j
        · rw [if_pos h1, if_pos (by omega)]
        · rw [if_neg h1]
          by_cases h2 : x0 ≤ x ∧ x < x0 + i ∧ y = y0 + j
          · rw [if_pos h2, if_pos (by omega)]
          · rw [if_neg h2, if_neg (by omega)])
    refine ⟨inner.1, fun x y hx hy => ?_⟩
    rw [inner.2 x y hx hy, hp x y hx hy]
    by_cases h1 : x0 ≤ x ∧ x < x0 + w ∧ y = y0 + j
    · rw [if_pos h1, if_pos (by omega)]
    · rw [if_neg h1]
      by_cases h2 : x0 ≤ x ∧ x < x0 + w ∧ y0 ≤ y ∧ y < y0 + j
      · rw [if_pos h2, if_pos (by omega)]
      · rw [if_neg h2, if_neg (by omega)]

/-! ## The copy -/

theorem copyPixel_spec {v : Store 16} (h : vramWf v) (sx sy dx dy : Nat) :
    vramWf (copyPixel v sx sy dx dy) ∧ ∀ x y, x < 1024 → y < 512 →
      vramPixel (copyPixel v sx sy dx dy) x y =
        if x = dx ∧ y = dy ∧ sx < 1024 ∧ sy < 512 then vramPixel v sx sy else vramPixel v x y := by
  unfold copyPixel
  by_cases hin : (inVram sx sy && inVram dx dy) = true
  · rw [if_pos hin]
    rw [Bool.and_eq_true, inVram_iff, inVram_iff] at hin
    refine ⟨vramWf_write _ h hin.2.1 hin.2.2, fun x y hx hy => ?_⟩
    rw [vramPixel_write h _ hx hin.2.1]
    by_cases he : x = dx ∧ y = dy
    · rw [if_pos he, if_pos ⟨he.1, he.2, hin.1.1, hin.1.2⟩]; rfl
    · rw [if_neg he, if_neg (fun c => he ⟨c.1, c.2.1⟩)]
  · rw [if_neg hin]
    rw [Bool.and_eq_true, inVram_iff, inVram_iff] at hin
    refine ⟨h, fun x y hx hy => ?_⟩
    rw [if_neg]; rintro ⟨rfl, rfl, h1, h2⟩; exact hin ⟨⟨h1, h2⟩, hx, hy⟩

/-- The copy keeps the canonical form, whatever its fields. -/
theorem copyRect_wf {v : Store 16} (hv : vramWf v) (f : CopyFields) : vramWf (copyRect f v) := by
  unfold copyRect
  refine foldl_range_inv (P := fun _ (u : Store 16) => vramWf u) _ _ _ hv ?_
  intro j u _ hu
  exact foldl_range_inv (P := fun _ (u : Store 16) => vramWf u) _ _ _ hu (fun i t _ ht => (copyPixel_spec ht _ _ _ _).1)

/-- The copy after its first `n` pixels, row by row (62_gpu.md R205). -/
def copySteps (f : CopyFields) (v : Store 16) (n : Nat) : Store 16 :=
  (List.range n).foldl (fun v n => copyPixel v (f.sx + n % f.w.toNat) (f.sy + n / f.w.toNat)
    (f.dx + n % f.w.toNat) (f.dy + n / f.w.toNat)) v

theorem copySteps_all (f : CopyFields) (v : Store 16) : copySteps f v (f.w.toNat * f.h.toNat) = copyRect f v :=
  (foldl_rows (fun v i j => copyPixel v (f.sx + i) (f.sy + j) (f.dx + i) (f.dy + j)) f.w.toNat f.h.toNat v).symm

theorem copySteps_wf {v : Store 16} (hv : vramWf v) (f : CopyFields) (n : Nat) : vramWf (copySteps f v n) :=
  foldl_range_inv (P := fun _ (u : Store 16) => vramWf u) _ _ _ hv fun _ _ _ hu => (copyPixel_spec hu _ _ _ _).1

/-- One pixel of the copy, on what the pixels before it left: overlapping rectangles included (62_gpu.md R205). -/
theorem copySteps_succ {v : Store 16} (hv : vramWf v) (f : CopyFields) (n : Nat) {x y : Nat} (hx : x < 1024) (hy : y < 512) :
    vramPixel (copySteps f v (n + 1)) x y =
      if x = f.dx + n % f.w.toNat ∧ y = f.dy + n / f.w.toNat ∧ f.sx + n % f.w.toNat < 1024 ∧ f.sy + n / f.w.toNat < 512
      then vramPixel (copySteps f v n) (f.sx + n % f.w.toNat) (f.sy + n / f.w.toNat)
      else vramPixel (copySteps f v n) x y := by
  rw [copySteps, foldl_range_succ]
  exact (copyPixel_spec (copySteps_wf hv f n) _ _ _ _).2 x y hx hy

/-- The copy between two rectangles that do not overlap (62_gpu.md R205). -/
theorem copyRect_spec {v : Store 16} (hv : vramWf v) (f : CopyFields)
    (hd : f.sx + f.w.toNat ≤ f.dx ∨ f.dx + f.w.toNat ≤ f.sx ∨ f.sy + f.h.toNat ≤ f.dy ∨ f.dy + f.h.toNat ≤ f.sy)
    {x y : Nat} (hx : x < 1024) (hy : y < 512) :
    vramPixel (copyRect f v) x y =
      if f.dx ≤ x ∧ x < f.dx + f.w.toNat ∧ f.dy ≤ y ∧ y < f.dy + f.h.toNat ∧
          f.sx + (x - f.dx) < 1024 ∧ f.sy + (y - f.dy) < 512
      then vramPixel v (f.sx + (x - f.dx)) (f.sy + (y - f.dy)) else vramPixel v x y := by
  have key : vramWf (copyRect f v) ∧ ∀ x y, x < 1024 → y < 512 → vramPixel (copyRect f v) x y =
      if f.dx ≤ x ∧ x < f.dx + f.w.toNat ∧ f.dy ≤ y ∧ y < f.dy + f.h.toNat ∧
          f.sx + (x - f.dx) < 1024 ∧ f.sy + (y - f.dy) < 512
      then vramPixel v (f.sx + (x - f.dx)) (f.sy + (y - f.dy)) else vramPixel v x y := by
    unfold copyRect
    refine foldl_range_inv (P := fun n (u : Store 16) => vramWf u ∧ ∀ x y, x < 1024 → y < 512 → vramPixel u x y =
      if f.dx ≤ x ∧ x < f.dx + f.w.toNat ∧ f.dy ≤ y ∧ y < f.dy + n ∧
          f.sx + (x - f.dx) < 1024 ∧ f.sy + (y - f.dy) < 512
      then vramPixel v (f.sx + (x - f.dx)) (f.sy + (y - f.dy)) else vramPixel v x y) _ _ _ ?_ ?_
    · exact ⟨hv, fun x y _ _ => by rw [if_neg (by omega)]⟩
    · intro j u hj ⟨hu, hp⟩
      have inner := foldl_range_inv (P := fun n (t : Store 16) => vramWf t ∧ ∀ x y, x < 1024 → y < 512 → vramPixel t x y =
          if f.dx ≤ x ∧ x < f.dx + n ∧ y = f.dy + j ∧ f.sx + (x - f.dx) < 1024 ∧ f.sy + j < 512
          then vramPixel v (f.sx + (x - f.dx)) (f.sy + j) else vramPixel u x y)
        (fun v i => copyPixel v (f.sx + i) (f.sy + j) (f.dx + i) (f.dy + j)) u f.w.toNat
        ⟨hu, fun x y _ _ => by rw [if_neg (by omega)]⟩ (by
          intro i t hi ⟨ht, hq⟩
          have hs := copyPixel_spec ht (f.sx + i) (f.sy + j) (f.dx + i) (f.dy + j)
          refine ⟨hs.1, fun x y hx hy => ?_⟩
          rw [hs.2 x y hx hy]
          by_cases h1 : x = f.dx + i ∧ y = f.dy + j ∧ f.sx + i < 1024 ∧ f.sy + j < 512
          · rw [if_pos h1, hq _ _ h1.2.2.1 h1.2.2.2, if_neg (by omega), hp _ _ h1.2.2.1 h1.2.2.2, if_neg (by omega),
              if_pos (by omega)]
            rw [show x - f.dx = i by omega]
          · rw [if_neg h1, hq x y hx hy]
            by_cases h2 : f.dx ≤ x ∧ x < f.dx + i ∧ y = f.dy + j ∧ f.sx + (x - f.dx) < 1024 ∧ f.sy + j < 512
            · rw [if_pos h2, if_pos (by omega)]
            · rw [if_neg h2, if_neg (by omega)])
      refine ⟨inner.1, fun x y hx hy => ?_⟩
      rw [inner.2 x y hx hy]
      by_cases h1 : f.dx ≤ x ∧ x < f.dx + f.w.toNat ∧ y = f.dy + j ∧ f.sx + (x - f.dx) < 1024 ∧ f.sy + j < 512
      · rw [if_pos h1, if_pos (by omega), show f.sy + (y - f.dy) = f.sy + j by omega]
      · rw [if_neg h1, hp x y hx hy]
        by_cases h2 : f.dx ≤ x ∧ x < f.dx + f.w.toNat ∧ f.dy ≤ y ∧ y < f.dy + j ∧
            f.sx + (x - f.dx) < 1024 ∧ f.sy + (y - f.dy) < 512
        · rw [if_pos h2, if_pos (by omega)]
        · rw [if_neg h2, if_neg (by omega)]
  exact key.2 x y hx hy

/-! ## A data word of a transfer -/

theorem transferWord_wf {g : Gpu} (h : vramWf g.vram) (w : Word) : vramWf (g.transferWord w).vram := by
  refine vramWf_write _ (vramWf_write _ h ?_ ?_) ?_ ?_ <;> simp only [Config.vramWidth, Config.vramHeight] <;> omega

/-- The two pixels of a data word (62_gpu.md R201). -/
theorem transferWord_pixel {g : Gpu} (h : vramWf g.vram) (w : Word) {x y : Nat} (hx : x < 1024) :
    vramPixel (g.transferWord w).vram x y =
      if x = min (g.xferX.toNat + g.cursor.toNat % g.xferW.toNat + 1) 1023 ∧
          y = min (g.xferY.toNat + g.cursor.toNat / g.xferW.toNat) 511 then highHalf w
      else if x = min (g.xferX.toNat + g.cursor.toNat % g.xferW.toNat) 1023 ∧
          y = min (g.xferY.toNat + g.cursor.toNat / g.xferW.toNat) 511 then lowHalf w
      else vramPixel g.vram x y := by
  unfold Gpu.transferWord clampedIndex
  dsimp only [Config.vramWidth, Config.vramHeight]
  have h1 : min (g.xferX.toNat + g.cursor.toNat % g.xferW.toNat) 1023 < 1024 := by omega
  have h2 : min (g.xferX.toNat + g.cursor.toNat % g.xferW.toNat + 1) 1023 < 1024 := by omega
  have h3 : min (g.xferY.toNat + g.cursor.toNat / g.xferW.toNat) 511 < 512 := by omega
  rw [vramPixel_write (vramWf_write _ h h1 h3) _ hx h2, vramPixel_write h _ hx h1]

end Sys2Proof.Machine
end

