-- ==== Sys2Proof/Laws/Parser.lean ====
section
/-! SUPPORT. The GPU's parser: one equation for each case of a command word, and that every word keeps VRAM's
canonical form and the parser's own invariant (62_gpu.md R196 to R204). -/

namespace Sys2Proof.Machine

/-! ## Dispatch -/

@[simp] theorem State.gpuDispatch_xferState (s : State) (q : List Word) : (s.gpuDispatch q).gpu.xferState = s.gpu.xferState := by
  unfold State.gpuDispatch; dsimp only
  repeat' split
  all_goals rfl

@[simp] theorem State.gpuDispatch_queue (s : State) (q : List Word) : (s.gpuDispatch q).gpu.queue = s.gpu.queue := by
  unfold State.gpuDispatch; dsimp only
  repeat' split
  all_goals rfl

theorem State.gpuDispatch_vramWf (s : State) (q : List Word) (h : vramWf s.gpu.vram) : vramWf (s.gpuDispatch q).gpu.vram := by
  unfold State.gpuDispatch; dsimp only
  repeat' split
  all_goals first
    | exact h
    | exact (fillRect_spec h _ _ _ _ _).1
    | exact copyRect_wf h _

@[simp] theorem State.completeTransfer_vram (s : State) : s.completeTransfer.gpu.vram = s.gpu.vram := by
  unfold State.completeTransfer; dsimp only; split <;> rfl
@[simp] theorem State.completeTransfer_queue (s : State) : s.completeTransfer.gpu.queue = s.gpu.queue := by
  unfold State.completeTransfer; dsimp only; split <;> rfl
@[simp] theorem State.completeTransfer_xferState (s : State) : s.completeTransfer.gpu.xferState = .idle := by
  unfold State.completeTransfer; dsimp only; split <;> rfl

/-! ## One command word, case by case -/

section
variable {s : State} {w : Word}

/-- A setup word in Idle, whatever was queued (62_gpu.md R198, R219). -/
theorem State.gpuWriteCommand_setup (hs : s.gpu.xferState = .idle) (hw : topByte w = Config.opXferSetup) :
    s.gpuWriteCommand w = { s with gpu := { s.gpu with queue := [w], xferState := .awaitingTransferSetup } } := by
  unfold State.gpuWriteCommand; rw [hs]; exact if_pos hw

/-- A word that does not complete its packet is queued (62_gpu.md R198). -/
theorem State.gpuWriteCommand_queue (hs : s.gpu.xferState = .idle) (hw : topByte w ≠ Config.opXferSetup)
    (hl : (s.gpu.queue ++ [w]).length ≠ packetLength (topByte (packetWord (s.gpu.queue ++ [w]) 0))) :
    s.gpuWriteCommand w = s.setQueue (s.gpu.queue ++ [w]) := by
  unfold State.gpuWriteCommand; rw [hs]
  show s.gpuIdle w = _
  unfold State.gpuIdle; rw [if_neg hw]; exact if_neg hl

/-- The last word of a packet executes it and empties the queue (62_gpu.md R198, R204). -/
theorem State.gpuWriteCommand_dispatch (hs : s.gpu.xferState = .idle) (hw : topByte w ≠ Config.opXferSetup)
    (hl : (s.gpu.queue ++ [w]).length = packetLength (topByte (packetWord (s.gpu.queue ++ [w]) 0))) :
    s.gpuWriteCommand w = (s.gpuDispatch (s.gpu.queue ++ [w])).setQueue [] := by
  unfold State.gpuWriteCommand; rw [hs]
  show s.gpuIdle w = _
  unfold State.gpuIdle; rw [if_neg hw]; exact if_pos hl

/-- The first descriptor word waits (62_gpu.md R199). -/
theorem State.gpuWriteCommand_await (hs : s.gpu.xferState = .awaitingTransferSetup) (hl : s.gpu.queue.length ≠ 2) :
    s.gpuWriteCommand w = s.setQueue (s.gpu.queue ++ [w]) := by
  unfold State.gpuWriteCommand; rw [hs]
  exact if_neg (by rw [List.length_append]; simpa using hl)

/-- The second begins the transfer, and ends it at once where there is nothing to transfer (62_gpu.md R199, R200). -/
theorem State.gpuWriteCommand_begin (hs : s.gpu.xferState = .awaitingTransferSetup) (hl : s.gpu.queue.length = 2) :
    s.gpuWriteCommand w =
      let s' := { s with gpu := s.gpu.beginTransfer (packetWord (s.gpu.queue ++ [w]) 1) (packetWord (s.gpu.queue ++ [w]) 2) }
      if s'.gpu.xferPixels = 0 then s'.completeTransfer else s' := by
  unfold State.gpuWriteCommand; rw [hs]
  exact if_pos (by rw [List.length_append, hl]; rfl)

/-- A data word (62_gpu.md R201). -/
theorem State.gpuWriteCommand_data (hs : s.gpu.xferState = .transferringPixels) :
    s.gpuWriteCommand w =
      let s' := { s with gpu := s.gpu.transferWord w }
      if s'.gpu.xferPixels ≤ s'.gpu.cursor.toNat then s'.completeTransfer else s' := by
  unfold State.gpuWriteCommand; rw [hs]; rfl

end

/-! ## What every word keeps -/

/-- Idle with an empty queue is a state of the parser. -/
theorem Gpu.parserOk_idle {g : Gpu} (h1 : g.xferState = .idle) (h2 : g.queue = []) : g.ParserOk := by
  unfold Gpu.ParserOk; rw [h1, h2]
  exact ⟨by decide, fun w hw => absurd hw (by simp)⟩

theorem State.gpuWriteCommand_inv (s : State) (w : Word) (hv : vramWf s.gpu.vram) (hp : s.gpu.ParserOk) :
    vramWf (s.gpuWriteCommand w).gpu.vram ∧ (s.gpuWriteCommand w).gpu.ParserOk := by
  cases hs : s.gpu.xferState with
  | idle =>
    have hp' : s.gpu.queue.length < packetLength (topByte (packetWord s.gpu.queue 0)) ∧
        ∀ u ∈ s.gpu.queue, topByte u ≠ Config.opXferSetup := by
      unfold Gpu.ParserOk at hp; rw [hs] at hp; exact hp
    by_cases hw : topByte w = Config.opXferSetup
    · rw [State.gpuWriteCommand_setup hs hw]
      exact ⟨hv, .inl rfl, hw⟩
    · by_cases hl : (s.gpu.queue ++ [w]).length = packetLength (topByte (packetWord (s.gpu.queue ++ [w]) 0))
      · rw [State.gpuWriteCommand_dispatch hs hw hl]
        exact ⟨s.gpuDispatch_vramWf _ hv, Gpu.parserOk_idle ((s.gpuDispatch_xferState _).trans hs) rfl⟩
      · rw [State.gpuWriteCommand_queue hs hw hl]
        refine ⟨hv, ?_⟩
        unfold Gpu.ParserOk
        rw [show (s.setQueue (s.gpu.queue ++ [w])).gpu.xferState = .idle from hs]
        refine ⟨?_, fun u hu => ?_⟩
        · show (s.gpu.queue ++ [w]).length < packetLength (topByte (packetWord (s.gpu.queue ++ [w]) 0))
          cases hq : s.gpu.queue with
          | nil =>
            rw [hq] at hl
            have h1 : 1 ≤ packetLength (topByte (packetWord ([] ++ [w]) 0)) := by
              unfold packetLength; repeat' split
              all_goals omega
            exact Nat.lt_of_le_of_ne h1 hl
          | cons u us =>
            rw [hq] at hl hp'
            have h1 := hp'.1
            exact Nat.lt_of_le_of_ne (by rw [List.length_append]; exact h1) hl
        · rcases List.mem_append.mp hu with h | h
          · exact hp'.2 u h
          · rw [List.mem_singleton.mp h]; exact hw
  | awaitingTransferSetup =>
    have hp' : (s.gpu.queue.length = 1 ∨ s.gpu.queue.length = 2) ∧ topByte (packetWord s.gpu.queue 0) = Config.opXferSetup := by
      unfold Gpu.ParserOk at hp; rw [hs] at hp; exact hp
    by_cases hl : s.gpu.queue.length = 2
    · rw [State.gpuWriteCommand_begin hs hl]
      dsimp only
      split
      · exact ⟨by rw [State.completeTransfer_vram]; exact hv,
          Gpu.parserOk_idle (State.completeTransfer_xferState _) ((State.completeTransfer_queue _).trans rfl)⟩
      · rename_i hz
        exact ⟨hv, rfl, Nat.pos_of_ne_zero hz, rfl⟩
    · rw [State.gpuWriteCommand_await hs hl]
      refine ⟨hv, ?_⟩
      unfold Gpu.ParserOk
      rw [show (s.setQueue (s.gpu.queue ++ [w])).gpu.xferState = .awaitingTransferSetup from hs]
      have h1 : s.gpu.queue.length = 1 := hp'.1.resolve_right hl
      refine ⟨.inr (by show (s.gpu.queue ++ [w]).length = 2; rw [List.length_append, h1]; rfl), ?_⟩
      show topByte (packetWord (s.gpu.queue ++ [w]) 0) = _
      have h2 := hp'.2
      cases hq : s.gpu.queue with
      | nil => rw [hq] at h1; exact absurd h1 (by simp)
      | cons u us => rw [hq] at h2; exact h2
  | transferringPixels =>
    have hp' : s.gpu.queue = [] ∧ s.gpu.cursor.toNat < s.gpu.xferPixels ∧ s.gpu.cursor.toNat % 2 = 0 := by
      unfold Gpu.ParserOk at hp; rw [hs] at hp; exact hp
    rw [State.gpuWriteCommand_data hs]
    dsimp only
    split
    · exact ⟨by rw [State.completeTransfer_vram]; exact transferWord_wf hv w,
        Gpu.parserOk_idle (State.completeTransfer_xferState _) ((State.completeTransfer_queue _).trans hp'.1)⟩
    · rename_i hz
      refine ⟨transferWord_wf hv w, ?_⟩
      unfold Gpu.ParserOk
      rw [show (s.gpu.transferWord w).xferState = .transferringPixels from hs]
      refine ⟨hp'.1, Nat.lt_of_not_le hz, ?_⟩
      show (s.gpu.cursor + 2#32).toNat % 2 = 0
      rw [BitVec.toNat_add, show (2#32).toNat = 2 from rfl]
      omega

theorem State.gpuWriteControl_inv (s : State) (w : Word) (hv : vramWf s.gpu.vram) (hp : s.gpu.ParserOk) :
    vramWf (s.gpuWriteControl w).gpu.vram ∧ (s.gpuWriteControl w).gpu.ParserOk := by
  unfold State.gpuWriteControl
  repeat' split
  all_goals exact ⟨hv, hp⟩

theorem State.memWrite_gpu_inv (s : State) (a : Word) (n : Width) (v : Word) (hv : vramWf s.gpu.vram) (hp : s.gpu.ParserOk) :
    vramWf (s.memWrite a n v).gpu.vram ∧ (s.memWrite a n v).gpu.ParserOk := by
  unfold State.memWrite
  split
  · exact ⟨hv, hp⟩
  · exact ⟨hv, hp⟩
  · split <;> exact ⟨hv, hp⟩
  · split
    · exact s.gpuWriteCommand_inv v hv hp
    · exact ⟨hv, hp⟩
  · split
    · exact s.gpuWriteControl_inv v hv hp
    · exact ⟨hv, hp⟩
  · exact ⟨hv, hp⟩

end Sys2Proof.Machine
end

