-- ==== Sys2Proof/Laws/PerInstr.lean ====
section
/-! SUPPORT. The statement made of every instruction as syntax: its word carries the fixed bits of its row of
spec/opcode_table.json, and the decoder looks at those bits (30_encoding.md R53 to R56). -/

namespace Sys2Proof.Laws

/-- `mask` and `match` of the instruction's row in spec/opcode_table.json. -/
def row : Instr → Word × Word
  | .sll _ _ _ => (0xFC00003F#32, 0x00000000#32)
  | .srl _ _ _ => (0xFC00003F#32, 0x00000002#32)
  | .sra _ _ _ => (0xFC00003F#32, 0x00000003#32)
  | .sllv _ _ _ => (0xFC00003F#32, 0x00000004#32)
  | .srlv _ _ _ => (0xFC00003F#32, 0x00000006#32)
  | .srav _ _ _ => (0xFC00003F#32, 0x00000007#32)
  | .syscall => (0xFC00003F#32, 0x0000000C#32)
  | .brk => (0xFC00003F#32, 0x0000000D#32)
  | .mult _ _ => (0xFC00003F#32, 0x00000018#32)
  | .div _ _ => (0xFC00003F#32, 0x0000001A#32)
  | .add _ _ _ => (0xFC00003F#32, 0x00000020#32)
  | .addu _ _ _ => (0xFC00003F#32, 0x00000021#32)
  | .sub _ _ _ => (0xFC00003F#32, 0x00000022#32)
  | .subu _ _ _ => (0xFC00003F#32, 0x00000023#32)
  | .and _ _ _ => (0xFC00003F#32, 0x00000024#32)
  | .or _ _ _ => (0xFC00003F#32, 0x00000025#32)
  | .xor _ _ _ => (0xFC00003F#32, 0x00000026#32)
  | .nor _ _ _ => (0xFC00003F#32, 0x00000027#32)
  | .slt _ _ _ => (0xFC00003F#32, 0x0000002A#32)
  | .j _ => (0xFC000000#32, 0x08000000#32)
  | .jal _ => (0xFC000000#32, 0x0C000000#32)
  | .beq _ _ _ => (0xFC000000#32, 0x10000000#32)
  | .bne _ _ _ => (0xFC000000#32, 0x14000000#32)
  | .addi _ _ _ => (0xFC000000#32, 0x20000000#32)
  | .slti _ _ _ => (0xFC000000#32, 0x28000000#32)
  | .lb _ _ _ => (0xFC000000#32, 0x80000000#32)
  | .lh _ _ _ => (0xFC000000#32, 0x84000000#32)
  | .lwl _ _ _ => (0xFC000000#32, 0x88000000#32)
  | .lw _ _ _ => (0xFC000000#32, 0x8C000000#32)
  | .lbu _ _ _ => (0xFC000000#32, 0x90000000#32)
  | .lhu _ _ _ => (0xFC000000#32, 0x94000000#32)
  | .lwr _ _ _ => (0xFC000000#32, 0x98000000#32)
  | .sb _ _ _ => (0xFC000000#32, 0xA0000000#32)
  | .sh _ _ _ => (0xFC000000#32, 0xA4000000#32)
  | .swl _ _ _ => (0xFC000000#32, 0xA8000000#32)
  | .sw _ _ _ => (0xFC000000#32, 0xAC000000#32)
  | .swr _ _ _ => (0xFC000000#32, 0xB8000000#32)
  | .mfc0 _ _ => (0xFFE00000#32, 0x40000000#32)
  | .mtc0 _ _ => (0xFFE00000#32, 0x40800000#32)
  | .eret => (0xFFE0003F#32, 0x42000018#32)
  | .addiu _ _ _ => (0xFC000000#32, 0x24000000#32)
  | .sltiu _ _ _ => (0xFC000000#32, 0x2C000000#32)
  | .andi _ _ _ => (0xFC000000#32, 0x30000000#32)
  | .ori _ _ _ => (0xFC000000#32, 0x34000000#32)
  | .xori _ _ _ => (0xFC000000#32, 0x38000000#32)
  | .lui _ _ => (0xFC000000#32, 0x3C000000#32)
  | .sltu _ _ _ => (0xFC00003F#32, 0x0000002B#32)
  | .multu _ _ => (0xFC00003F#32, 0x00000019#32)
  | .divu _ _ => (0xFC00003F#32, 0x0000001B#32)
  | .mfhi _ => (0xFC00003F#32, 0x00000010#32)
  | .mthi _ => (0xFC00003F#32, 0x00000011#32)
  | .mflo _ => (0xFC00003F#32, 0x00000012#32)
  | .mtlo _ => (0xFC00003F#32, 0x00000013#32)
  | .jr _ => (0xFC00003F#32, 0x00000008#32)
  | .jalr _ _ => (0xFC00003F#32, 0x00000009#32)
  | .blez _ _ => (0xFC000000#32, 0x18000000#32)
  | .bgtz _ _ => (0xFC000000#32, 0x1C000000#32)
  | .bltz _ _ => (0xFC1F0000#32, 0x04000000#32)
  | .bgez _ _ => (0xFC1F0000#32, 0x04010000#32)
  | .bltzal _ _ => (0xFC1F0000#32, 0x04100000#32)
  | .bgezal _ _ => (0xFC1F0000#32, 0x04110000#32)

/-- The word of `i` matches its row, whatever its operands; the row's mask lies inside the bits the decoder uses;
and every bit outside them is zero. -/
def EncodesRow.Statement (i : Instr) : Prop :=
  encode i &&& (row i).1 = (row i).2 ∧ usedBits i &&& (row i).1 = (row i).1 ∧ encode i &&& usedBits i = encode i

/-! ## Masks that keep the opcode fields only -/

theorem rType_and_cop0 (op funct : BitVec 6) (rs rt rd sa : Fin 32) :
    rType op rs rt rd sa funct &&& 0xFFE00000#32 = rType op rs 0 0 0 0#6 := by
  rw [show (0xFFE00000#32 : Word) = rMask true false false false false by decide, rType_and_rMask]; rfl

theorem rType_and_op (op funct : BitVec 6) (rs rt rd sa : Fin 32) :
    rType op rs rt rd sa funct &&& 0xFC00003F#32 = rType op 0 0 0 0 funct := by
  rw [usedBits_none, rType_and_rMask]; rfl

theorem rType_and_eret (op funct : BitVec 6) (rs rt rd sa : Fin 32) :
    rType op rs rt rd sa funct &&& 0xFFE0003F#32 = rType op rs 0 0 0 funct := by
  rw [usedBits_rs, rType_and_rMask]; rfl

theorem iType_and_op (op : BitVec 6) (rs rt : Fin 32) (imm : BitVec 16) :
    iType op rs rt imm &&& 0xFC000000#32 = iType op 0 0 0#16 := by
  have h : op &&& 0x3F#6 = op := and_keep6 op true
  rw [show (0xFC000000#32 : Word) = iType 0x3F#6 0 0 0#16 by decide, iType_and, h]
  simp

theorem iType_and_regimm (op : BitVec 6) (rs rt : Fin 32) (imm : BitVec 16) :
    iType op rs rt imm &&& 0xFC1F0000#32 = iType op 0 rt 0#16 := by
  have h : op &&& 0x3F#6 = op := and_keep6 op true
  have h' := and_keep rt true
  simp only [if_true] at h'
  rw [show (0xFC1F0000#32 : Word) = iType 0x3F#6 0 31 0#16 by decide, iType_and, h, h']
  simp

theorem jType_and_op (op : BitVec 6) (target : BitVec 26) : jType op target &&& 0xFC000000#32 = jType op 0#26 := by
  have h : op &&& 0x3F#6 = op := and_keep6 op true
  rw [show (0xFC000000#32 : Word) = jType 0x3F#6 0#26 by decide]
  refine (BitVec.and_append (w := 6)).trans ?_
  rw [h]; simp [jType]

/-! ## One lemma per instruction -/

theorem encodesRow (i : Instr) : EncodesRow.Statement i := by
  refine ⟨?_, ?_, ?_⟩
  · cases i <;> simp only [row, encode, rType_and_cop0, rType_and_op, rType_and_eret, iType_and_op, iType_and_regimm, jType_and_op] <;> decide
  · cases i <;> simp only [usedBits, row] <;> decide
  · cases i <;> simp [encode, usedBits, usedBits_shift, usedBits_three, usedBits_none, usedBits_two, usedBits_cop0, usedBits_rs, usedBits_rd, usedBits_jalr, usedBits_blez, and_usedBits_all, rType_and_rMask, iType_and_iMask]
    rw [usedBits_lui, iType_and_iMask]; rfl

theorem EncodesRow.sll (rd : Fin 32) (rt : Fin 32) (sa : Fin 32) : EncodesRow.Statement (.sll rd rt sa) := encodesRow _
theorem EncodesRow.srl (rd : Fin 32) (rt : Fin 32) (sa : Fin 32) : EncodesRow.Statement (.srl rd rt sa) := encodesRow _
theorem EncodesRow.sra (rd : Fin 32) (rt : Fin 32) (sa : Fin 32) : EncodesRow.Statement (.sra rd rt sa) := encodesRow _
theorem EncodesRow.sllv (rd : Fin 32) (rt : Fin 32) (rs : Fin 32) : EncodesRow.Statement (.sllv rd rt rs) := encodesRow _
theorem EncodesRow.srlv (rd : Fin 32) (rt : Fin 32) (rs : Fin 32) : EncodesRow.Statement (.srlv rd rt rs) := encodesRow _
theorem EncodesRow.srav (rd : Fin 32) (rt : Fin 32) (rs : Fin 32) : EncodesRow.Statement (.srav rd rt rs) := encodesRow _
theorem EncodesRow.syscall : EncodesRow.Statement (.syscall) := encodesRow _
theorem EncodesRow.brk : EncodesRow.Statement (.brk) := encodesRow _
theorem EncodesRow.mult (rs : Fin 32) (rt : Fin 32) : EncodesRow.Statement (.mult rs rt) := encodesRow _
theorem EncodesRow.div (rs : Fin 32) (rt : Fin 32) : EncodesRow.Statement (.div rs rt) := encodesRow _
theorem EncodesRow.add (rd : Fin 32) (rs : Fin 32) (rt : Fin 32) : EncodesRow.Statement (.add rd rs rt) := encodesRow _
theorem EncodesRow.addu (rd : Fin 32) (rs : Fin 32) (rt : Fin 32) : EncodesRow.Statement (.addu rd rs rt) := encodesRow _
theorem EncodesRow.sub (rd : Fin 32) (rs : Fin 32) (rt : Fin 32) : EncodesRow.Statement (.sub rd rs rt) := encodesRow _
theorem EncodesRow.subu (rd : Fin 32) (rs : Fin 32) (rt : Fin 32) : EncodesRow.Statement (.subu rd rs rt) := encodesRow _
theorem EncodesRow.and (rd : Fin 32) (rs : Fin 32) (rt : Fin 32) : EncodesRow.Statement (.and rd rs rt) := encodesRow _
theorem EncodesRow.or (rd : Fin 32) (rs : Fin 32) (rt : Fin 32) : EncodesRow.Statement (.or rd rs rt) := encodesRow _
theorem EncodesRow.xor (rd : Fin 32) (rs : Fin 32) (rt : Fin 32) : EncodesRow.Statement (.xor rd rs rt) := encodesRow _
theorem EncodesRow.nor (rd : Fin 32) (rs : Fin 32) (rt : Fin 32) : EncodesRow.Statement (.nor rd rs rt) := encodesRow _
theorem EncodesRow.slt (rd : Fin 32) (rs : Fin 32) (rt : Fin 32) : EncodesRow.Statement (.slt rd rs rt) := encodesRow _
theorem EncodesRow.j (target : BitVec 26) : EncodesRow.Statement (.j target) := encodesRow _
theorem EncodesRow.jal (target : BitVec 26) : EncodesRow.Statement (.jal target) := encodesRow _
theorem EncodesRow.beq (rs : Fin 32) (rt : Fin 32) (imm : BitVec 16) : EncodesRow.Statement (.beq rs rt imm) := encodesRow _
theorem EncodesRow.bne (rs : Fin 32) (rt : Fin 32) (imm : BitVec 16) : EncodesRow.Statement (.bne rs rt imm) := encodesRow _
theorem EncodesRow.addi (rt : Fin 32) (rs : Fin 32) (imm : BitVec 16) : EncodesRow.Statement (.addi rt rs imm) := encodesRow _
theorem EncodesRow.slti (rt : Fin 32) (rs : Fin 32) (imm : BitVec 16) : EncodesRow.Statement (.slti rt rs imm) := encodesRow _
theorem EncodesRow.lb (rt : Fin 32) (base : Fin 32) (offset : BitVec 16) : EncodesRow.Statement (.lb rt base offset) := encodesRow _
theorem EncodesRow.lh (rt : Fin 32) (base : Fin 32) (offset : BitVec 16) : EncodesRow.Statement (.lh rt base offset) := encodesRow _
theorem EncodesRow.lwl (rt : Fin 32) (base : Fin 32) (offset : BitVec 16) : EncodesRow.Statement (.lwl rt base offset) := encodesRow _
theorem EncodesRow.lw (rt : Fin 32) (base : Fin 32) (offset : BitVec 16) : EncodesRow.Statement (.lw rt base offset) := encodesRow _
theorem EncodesRow.lbu (rt : Fin 32) (base : Fin 32) (offset : BitVec 16) : EncodesRow.Statement (.lbu rt base offset) := encodesRow _
theorem EncodesRow.lhu (rt : Fin 32) (base : Fin 32) (offset : BitVec 16) : EncodesRow.Statement (.lhu rt base offset) := encodesRow _
theorem EncodesRow.lwr (rt : Fin 32) (base : Fin 32) (offset : BitVec 16) : EncodesRow.Statement (.lwr rt base offset) := encodesRow _
theorem EncodesRow.sb (rt : Fin 32) (base : Fin 32) (offset : BitVec 16) : EncodesRow.Statement (.sb rt base offset) := encodesRow _
theorem EncodesRow.sh (rt : Fin 32) (base : Fin 32) (offset : BitVec 16) : EncodesRow.Statement (.sh rt base offset) := encodesRow _
theorem EncodesRow.swl (rt : Fin 32) (base : Fin 32) (offset : BitVec 16) : EncodesRow.Statement (.swl rt base offset) := encodesRow _
theorem EncodesRow.sw (rt : Fin 32) (base : Fin 32) (offset : BitVec 16) : EncodesRow.Statement (.sw rt base offset) := encodesRow _
theorem EncodesRow.swr (rt : Fin 32) (base : Fin 32) (offset : BitVec 16) : EncodesRow.Statement (.swr rt base offset) := encodesRow _
theorem EncodesRow.mfc0 (rt : Fin 32) (rd : Fin 32) : EncodesRow.Statement (.mfc0 rt rd) := encodesRow _
theorem EncodesRow.mtc0 (rt : Fin 32) (rd : Fin 32) : EncodesRow.Statement (.mtc0 rt rd) := encodesRow _
theorem EncodesRow.eret : EncodesRow.Statement (.eret) := encodesRow _
theorem EncodesRow.addiu (rt : Fin 32) (rs : Fin 32) (imm : BitVec 16) : EncodesRow.Statement (.addiu rt rs imm) := encodesRow _
theorem EncodesRow.sltiu (rt : Fin 32) (rs : Fin 32) (imm : BitVec 16) : EncodesRow.Statement (.sltiu rt rs imm) := encodesRow _
theorem EncodesRow.andi (rt : Fin 32) (rs : Fin 32) (imm : BitVec 16) : EncodesRow.Statement (.andi rt rs imm) := encodesRow _
theorem EncodesRow.ori (rt : Fin 32) (rs : Fin 32) (imm : BitVec 16) : EncodesRow.Statement (.ori rt rs imm) := encodesRow _
theorem EncodesRow.xori (rt : Fin 32) (rs : Fin 32) (imm : BitVec 16) : EncodesRow.Statement (.xori rt rs imm) := encodesRow _
theorem EncodesRow.lui (rt : Fin 32) (imm : BitVec 16) : EncodesRow.Statement (.lui rt imm) := encodesRow _
theorem EncodesRow.sltu (rd : Fin 32) (rs : Fin 32) (rt : Fin 32) : EncodesRow.Statement (.sltu rd rs rt) := encodesRow _
theorem EncodesRow.multu (rs : Fin 32) (rt : Fin 32) : EncodesRow.Statement (.multu rs rt) := encodesRow _
theorem EncodesRow.divu (rs : Fin 32) (rt : Fin 32) : EncodesRow.Statement (.divu rs rt) := encodesRow _
theorem EncodesRow.mfhi (rd : Fin 32) : EncodesRow.Statement (.mfhi rd) := encodesRow _
theorem EncodesRow.mthi (rs : Fin 32) : EncodesRow.Statement (.mthi rs) := encodesRow _
theorem EncodesRow.mflo (rd : Fin 32) : EncodesRow.Statement (.mflo rd) := encodesRow _
theorem EncodesRow.mtlo (rs : Fin 32) : EncodesRow.Statement (.mtlo rs) := encodesRow _
theorem EncodesRow.jr (rs : Fin 32) : EncodesRow.Statement (.jr rs) := encodesRow _
theorem EncodesRow.jalr (rd : Fin 32) (rs : Fin 32) : EncodesRow.Statement (.jalr rd rs) := encodesRow _
theorem EncodesRow.blez (rs : Fin 32) (imm : BitVec 16) : EncodesRow.Statement (.blez rs imm) := encodesRow _
theorem EncodesRow.bgtz (rs : Fin 32) (imm : BitVec 16) : EncodesRow.Statement (.bgtz rs imm) := encodesRow _
theorem EncodesRow.bltz (rs : Fin 32) (imm : BitVec 16) : EncodesRow.Statement (.bltz rs imm) := encodesRow _
theorem EncodesRow.bgez (rs : Fin 32) (imm : BitVec 16) : EncodesRow.Statement (.bgez rs imm) := encodesRow _
theorem EncodesRow.bltzal (rs : Fin 32) (imm : BitVec 16) : EncodesRow.Statement (.bltzal rs imm) := encodesRow _
theorem EncodesRow.bgezal (rs : Fin 32) (imm : BitVec 16) : EncodesRow.Statement (.bgezal rs imm) := encodesRow _

end Sys2Proof.Laws
end

