-- ==== Sys2Proof/Tests/Slice0.lean ====
section
/-! SUPPORT. Tests. The expected results are those of 95_test_vectors.md (the section is named) or are worked by hand
from the rule named; the words of the decode tests are written out bit by bit from 30_encoding.md R51 to R55. -/

namespace Sys2Proof.Tests

open Sys2Proof.Machine

/-! ## WellFormed: the gate refuses each extension term, and lets each base term pass (48_mips1_extension.md R240) -/

def extensionTerms : List Instr :=
  [.addiu 1 2 3, .sltiu 1 2 3, .andi 1 2 3, .ori 1 2 3, .xori 1 2 3, .lui 1 2, .sltu 1 2 3, .multu 1 2, .divu 1 2,
    .mfhi 1, .mthi 1, .mflo 1, .mtlo 1] ++
  [.jr 1, .jalr 1 2, .blez 1 2, .bgtz 1 2, .bltz 1 2, .bgez 1 2, .bltzal 1 2, .bgezal 1 2]

theorem test_wf_refuses_extension : ∀ i ∈ extensionTerms, i.wf false = false ∧ i.wf true = true := by decide

theorem test_wf_passes_base : ∀ i ∈ ([.add 1 2 3, .sll 1 2 3, .div 1 2, .lw 1 2 3, .swr 1 2 3, .jal 1, .bne 1 2 3, .eret] : List Instr),
    i.wf false = true := by decide

/-! ## Decode: one word or more for every row -/

theorem test_decode_shifts :
    decode false 0b000000_00000_00010_00011_00100_000000#32 = .instr (.sll 3 2 4) ∧
    decode false 0b000000_00000_00010_00011_11111_000010#32 = .instr (.srl 3 2 31) ∧
    decode false 0b000000_00000_00010_00011_00001_000011#32 = .instr (.sra 3 2 1) ∧
    decode false 0b000000_00001_00010_00011_00000_000100#32 = .instr (.sllv 3 2 1) ∧
    decode false 0b000000_00001_00010_00011_00000_000110#32 = .instr (.srlv 3 2 1) ∧
    decode false 0b000000_00001_00010_00011_00000_000111#32 = .instr (.srav 3 2 1) := by decide

theorem test_decode_alu :
    decode false 0b000000_00001_00010_00011_00000_100000#32 = .instr (.add 3 1 2) ∧
    decode false 0b000000_00001_00010_00011_00000_100001#32 = .instr (.addu 3 1 2) ∧
    decode false 0b000000_00001_00010_00011_00000_100010#32 = .instr (.sub 3 1 2) ∧
    decode false 0b000000_00001_00010_00011_00000_100011#32 = .instr (.subu 3 1 2) ∧
    decode false 0b000000_00001_00010_00011_00000_100100#32 = .instr (.and 3 1 2) ∧
    decode false 0b000000_00001_00010_00011_00000_100101#32 = .instr (.or 3 1 2) ∧
    decode false 0b000000_00001_00010_00011_00000_100110#32 = .instr (.xor 3 1 2) ∧
    decode false 0b000000_00001_00010_00011_00000_100111#32 = .instr (.nor 3 1 2) ∧
    decode false 0b000000_00001_00010_00011_00000_101010#32 = .instr (.slt 3 1 2) ∧
    decode false 0b001000_00001_00010_1000000000000001#32 = .instr (.addi 2 1 0x8001#16) ∧
    decode false 0b001010_00001_00010_0111111111111111#32 = .instr (.slti 2 1 0x7FFF#16) := by decide

theorem test_decode_muldiv :
    decode false 0b000000_00001_00010_00000_00000_011000#32 = .instr (.mult 1 2) ∧
    decode false 0b000000_00001_00010_00000_00000_011010#32 = .instr (.div 1 2) := by decide

theorem test_decode_control :
    decode false 0b000010_00000000000000010000000001#32 = .instr (.j 0x401#26) ∧
    decode false 0b000011_11111111111111111111111110#32 = .instr (.jal 0x3FFFFFE#26) ∧
    decode false 0b000100_00001_00010_0000000000000011#32 = .instr (.beq 1 2 0x0003#16) ∧
    decode false 0b000101_00001_00010_1111111111111110#32 = .instr (.bne 1 2 0xFFFE#16) := by decide

theorem test_decode_loads :
    decode false 0b100000_00001_00010_0000000000000001#32 = .instr (.lb 2 1 1#16) ∧
    decode false 0b100001_00001_00010_0000000000000010#32 = .instr (.lh 2 1 2#16) ∧
    decode false 0b100010_00001_00010_0000000000000011#32 = .instr (.lwl 2 1 3#16) ∧
    decode false 0b100011_00001_00010_0000000000000100#32 = .instr (.lw 2 1 4#16) ∧
    decode false 0b100100_00001_00010_0000000000000101#32 = .instr (.lbu 2 1 5#16) ∧
    decode false 0b100101_00001_00010_0000000000000110#32 = .instr (.lhu 2 1 6#16) ∧
    decode false 0b100110_00001_00010_1111111111111111#32 = .instr (.lwr 2 1 0xFFFF#16) := by decide

theorem test_decode_stores :
    decode false 0b101000_00001_00010_0000000000000001#32 = .instr (.sb 2 1 1#16) ∧
    decode false 0b101001_00001_00010_0000000000000010#32 = .instr (.sh 2 1 2#16) ∧
    decode false 0b101010_00001_00010_0000000000000011#32 = .instr (.swl 2 1 3#16) ∧
    decode false 0b101011_00001_00010_0000000000000100#32 = .instr (.sw 2 1 4#16) ∧
    decode false 0b101110_00001_00010_1111111111111111#32 = .instr (.swr 2 1 0xFFFF#16) := by decide

theorem test_decode_system :
    decode false 0b000000_00000000000000000000_001100#32 = .instr .syscall ∧
    decode false 0b000000_11111111111111111111_001101#32 = .instr .brk ∧
    decode false 0b010000_00000_00010_01100_00000000000#32 = .instr (.mfc0 2 12) ∧
    decode false 0b010000_00100_00010_11111_00000000000#32 = .instr (.mtc0 2 31) ∧
    decode false 0b010000_10000_000000000000000_011000#32 = .instr .eret := by decide

theorem test_decode_extension_alu :
    decode true 0b001001_00001_00010_1111111111111111#32 = .instr (.addiu 2 1 0xFFFF#16) ∧
    decode true 0b001011_00001_00010_1000000000000000#32 = .instr (.sltiu 2 1 0x8000#16) ∧
    decode true 0b001100_00001_00010_1111111100000000#32 = .instr (.andi 2 1 0xFF00#16) ∧
    decode true 0b001101_00001_00010_0101011001111000#32 = .instr (.ori 2 1 0x5678#16) ∧
    decode true 0b001110_00001_00010_1111111111111111#32 = .instr (.xori 2 1 0xFFFF#16) ∧
    decode true 0b001111_11111_00010_1000000000000000#32 = .instr (.lui 2 0x8000#16) ∧
    decode true 0b000000_00001_00010_00011_00000_101011#32 = .instr (.sltu 3 1 2) ∧
    decode true 0b000000_00001_00010_00000_00000_011001#32 = .instr (.multu 1 2) ∧
    decode true 0b000000_00001_00010_00000_00000_011011#32 = .instr (.divu 1 2) ∧
    decode true 0b000000_00000_00000_00011_00000_010000#32 = .instr (.mfhi 3) ∧
    decode true 0b000000_00001_00000_00000_00000_010001#32 = .instr (.mthi 1) ∧
    decode true 0b000000_00000_00000_00011_00000_010010#32 = .instr (.mflo 3) ∧
    decode true 0b000000_00001_00000_00000_00000_010011#32 = .instr (.mtlo 1) := by decide

theorem test_decode_extension_control :
    decode true 0b000000_11111_00000_00000_00000_001000#32 = .instr (.jr 31) ∧
    decode true 0b000000_00001_00000_11111_00000_001001#32 = .instr (.jalr 31 1) ∧
    decode true 0b000110_00001_00000_0000000000000011#32 = .instr (.blez 1 3#16) ∧
    decode true 0b000111_00001_00000_0000000000000011#32 = .instr (.bgtz 1 3#16) ∧
    decode true 0b000001_00001_00000_0000000000000011#32 = .instr (.bltz 1 3#16) ∧
    decode true 0b000001_00001_00001_0000000000000011#32 = .instr (.bgez 1 3#16) ∧
    decode true 0b000001_00001_10000_0000000000000011#32 = .instr (.bltzal 1 3#16) ∧
    decode true 0b000001_00001_10001_0000000000000011#32 = .instr (.bgezal 1 3#16) := by decide

/-- The fields the decoder ignores, and the reserved words (95_test_vectors.md L2.12). -/
theorem test_decode_ignored_fields :
    decode false 0x00221FE0#32 = .instr (.add 3 1 2) ∧ decode false 0x03E21900#32 = .instr (.sll 3 2 4) ∧
    decode false 0x002228D8#32 = .instr (.mult 1 2) ∧ decode false 0x400267FF#32 = .instr (.mfc0 2 12) ∧
    decode false 0x421FFFD8#32 = .instr .eret := by decide

theorem test_decode_reserved : decode false 0x3C011234#32 = .reserved ∧ decode false 0x24010001#32 = .reserved ∧ decode false 0x00000008#32 = .reserved ∧
    decode false 0x0022182B#32 = .reserved ∧ decode false 0x04010001#32 = .reserved ∧ decode false 0x42000010#32 = .reserved ∧
    decode false 0x42200018#32 = .reserved ∧ decode false 0x43FFFFD8#32 = .reserved ∧ decode false 0x40400000#32 = .reserved := by decide

theorem test_decode_reserved_opcodes : decode false 0x44000000#32 = .reserved ∧ decode false 0x0000000F#32 = .reserved ∧ decode false 0x00000001#32 = .reserved ∧
    decode false 0xC0000000#32 = .reserved ∧ decode false 0x7C000000#32 = .reserved ∧ decode false 0xBC000000#32 = .reserved ∧
    decode false 0xFFFFFFFF#32 = .reserved := by decide

theorem test_decode_reserved_regimm : decode true 0x04220003#32 = .reserved ∧ decode true 0x042F0003#32 = .reserved ∧ decode true 0x04320003#32 = .reserved ∧
    decode true 0x043F0003#32 = .reserved := by decide

/-! ## One step of each instruction -/

/-- The state of 95_test_vectors.md: reset, the word at 0x8000_1000, the registers as listed, `MIPS1_EXT` = `ext`. -/
def start (w : Word) (rs : List (Reg × Word)) (ext : Bool := false) : State :=
  rs.foldl (fun s p => s.writeReg p.1 p.2)
    ({ State.reset with pc := 0x80001000#32, mips1Ext := ext }.memWrite 0x80001000#32 .word w)

/-- The state after one step. -/
def after (s : State) : State :=
  match step s with
  | .next t => t
  | .fault _ | .refused _ => s

/-- What one step refuses. -/
def refusal (s : State) : Option Refusal :=
  match step s with
  | .refused r => some r
  | .next _ | .fault _ => none

/-- Register `r` after one step. -/
def reg (r : Reg) (w : Word) (rs : List (Reg × Word)) (ext : Bool := false) : Word := (after (start w rs ext)).readReg r

/-- HI and LO after one step. -/
def hiLo (w : Word) (rs : List (Reg × Word)) (ext : Bool := false) : Word × Word :=
  ((after (start w rs ext)).hi, (after (start w rs ext)).lo)

/-- Did the step go on, and is a branch pending to where? -/
def seq (w : Word) (rs : List (Reg × Word)) (ext : Bool := false) : Word × Bool × Word :=
  let t := after (start w rs ext)
  (t.pc, t.inDelaySlot, t.nextPC)

/-- Result, Cause and EPC after one step. -/
def raised (w : Word) (rs : List (Reg × Word)) : StepResult × Word × Word :=
  let t := after (start w rs)
  (t.result, t.cause, t.epc)

/-! 95_test_vectors.md L2.1, L1.4. -/

theorem test_add : reg 3 0x00221820#32 [(1, 0x7FFFFFFF#32), (2, 0x80000000#32)] = 0xFFFFFFFF#32 ∧
    reg 1 0x00210820#32 [(1, 0x3FFFFFFF#32)] = 0x7FFFFFFE#32 := by decide
theorem test_add_overflow : raised 0x00221820#32 [(1, 0x7FFFFFFF#32), (2, 1#32)] =
      (.exception .integerOverflow, 0x30#32, 0x80001000#32) ∧
    reg 3 0x00221820#32 [(1, 0x7FFFFFFF#32), (2, 1#32), (3, 0x0BADF00D#32)] = 0x0BADF00D#32 := by decide
theorem test_addu : reg 3 0x00221821#32 [(1, 0x80000000#32), (2, 0xFFFFFFFF#32)] = 0x7FFFFFFF#32 := by decide
theorem test_sub : reg 3 0x00221822#32 [(1, 0x12345678#32), (2, 0x0F0F0F0F#32)] = 0x03254769#32 := by decide
theorem test_sub_overflow : raised 0x00221822#32 [(1, 0x80000000#32), (2, 1#32)] =
      (.exception .integerOverflow, 0x30#32, 0x80001000#32) ∧
    raised 0x00221822#32 [(1, 0#32), (2, 0x80000000#32)] = (.exception .integerOverflow, 0x30#32, 0x80001000#32) := by decide
theorem test_subu : reg 3 0x00221823#32 [(1, 0x80000000#32), (2, 0xFFFFFFFF#32)] = 0x80000001#32 := by decide
theorem test_and : reg 3 0x00221824#32 [(1, 0x12345678#32), (2, 0x0F0F0F0F#32)] = 0x02040608#32 := by decide
theorem test_or : reg 3 0x00221825#32 [(1, 0x12345678#32), (2, 0x0F0F0F0F#32)] = 0x1F3F5F7F#32 := by decide
theorem test_xor : reg 3 0x00221826#32 [(1, 0x12345678#32), (2, 0x0F0F0F0F#32)] = 0x1D3B5977#32 := by decide
theorem test_nor : reg 3 0x00221827#32 [(1, 0x12345678#32), (2, 0x0F0F0F0F#32)] = 0xE0C0A080#32 := by decide
theorem test_slt : reg 3 0x0022182A#32 [(1, 0x80000000#32), (2, 1#32)] = 1#32 ∧
    reg 3 0x0022182A#32 [(1, 0x7FFFFFFF#32), (2, 0x80000000#32)] = 0#32 := by decide
theorem test_addi : reg 2 0x20228000#32 [] = 0xFFFF8000#32 ∧ reg 2 0x2022FFFF#32 [(1, 0x7FFFFFFF#32)] = 0x7FFFFFFE#32 := by decide
theorem test_addi_overflow : raised 0x2022FFFF#32 [(1, 0x80000000#32)] =
    (.exception .integerOverflow, 0x30#32, 0x80001000#32) := by decide
theorem test_slti : reg 2 0x28228000#32 [(1, 0xFFFF7FFF#32)] = 1#32 ∧ reg 2 0x28228000#32 [(1, 0xFFFF8000#32)] = 0#32 := by decide

/-- 95_test_vectors.md L1.1. -/
theorem test_register_zero : reg 0 0x20000005#32 [] = 0#32 ∧ reg 0 0x00220021#32 [(1, 3#32), (2, 4#32)] = 0#32 ∧
    raised 0x00220020#32 [(1, 0x7FFFFFFF#32), (2, 1#32)] = (.exception .integerOverflow, 0x30#32, 0x80001000#32) := by decide

/-! 95_test_vectors.md L2.2. -/

theorem test_sll : reg 3 0x00021FC0#32 [(2, 0x80000001#32)] = 0x80000000#32 ∧ reg 3 0x00021900#32 [(2, 0x12345678#32)] = 0x23456780#32 := by decide
theorem test_srl : reg 3 0x00021FC2#32 [(2, 0x80000001#32)] = 1#32 ∧ reg 3 0x00021842#32 [(2, 0x80000001#32)] = 0x40000000#32 := by decide
theorem test_sra : reg 3 0x00021FC3#32 [(2, 0x80000001#32)] = 0xFFFFFFFF#32 ∧ reg 3 0x00021903#32 [(2, 0x12345678#32)] = 0x01234567#32 := by decide
theorem test_sllv : reg 3 0x00221804#32 [(2, 0x80000001#32), (1, 0x20#32)] = 0x80000001#32 ∧
    reg 3 0x00221804#32 [(2, 0x12345678#32), (1, 0x104#32)] = 0x23456780#32 := by decide
theorem test_srlv : reg 3 0x00221806#32 [(2, 0x80000001#32), (1, 0x21#32)] = 0x40000000#32 := by decide
theorem test_srav : reg 3 0x00221807#32 [(2, 0x80000001#32), (1, 0x21#32)] = 0xC0000000#32 := by decide

/-! 95_test_vectors.md L2.3, L1.6. -/

theorem test_mult : hiLo 0x00220018#32 [(1, 0x12345678#32), (2, 0x9ABCDEF0#32)] = (0xF8CC93D6#32, 0x242D2080#32) ∧
    hiLo 0x00220018#32 [(1, 0x80000000#32), (2, 0x80000000#32)] = (0x40000000#32, 0#32) := by decide
theorem test_div : hiLo 0x0022001A#32 [(1, 0xFFFFFFF9#32), (2, 2#32)] = (0xFFFFFFFF#32, 0xFFFFFFFD#32) ∧
    hiLo 0x0022001A#32 [(1, 0x80000000#32), (2, 0xFFFFFFFF#32)] = (0#32, 0x80000000#32) := by decide
theorem test_div_zero : let s := (start 0x0022001A#32 [(1, 7#32)]).writeHiLo 0x1111#32 0x2222#32
    (after s).hi = 0x1111#32 ∧ (after s).lo = 0x2222#32 ∧ (after s).result = .ok ∧
    (after s).diag = [.divideByZero 0x80001000#32] := by decide

/-! 95_test_vectors.md L2.4, L1.3. -/

/-- The bytes DE AD BE EF 80 FF 7F 01 from 0x100 on. -/
def loads (w : Word) (rs : List (Reg × Word)) : State :=
  ((start w rs).memWrite 0x100#32 .word 0xDEADBEEF#32).memWrite 0x104#32 .word 0x80FF7F01#32

theorem test_lb : (after (loads 0x80220000#32 [(1, 0x100#32)])).readReg 2 = 0xFFFFFFDE#32 ∧
    (after (loads 0x8022FFFF#32 [(1, 0x100#32)])).readReg 2 = 0#32 := by decide
theorem test_lbu : (after (loads 0x90220004#32 [(1, 0x100#32)])).readReg 2 = 0x80#32 := by decide
theorem test_lh : (after (loads 0x84220004#32 [(1, 0x100#32)])).readReg 2 = 0xFFFF80FF#32 ∧
    (after (loads 0x84220006#32 [(1, 0x100#32)])).readReg 2 = 0x7F01#32 := by decide
theorem test_lhu : (after (loads 0x94220000#32 [(1, 0x100#32)])).readReg 2 = 0xDEAD#32 := by decide
theorem test_lw : (after (loads 0x8C210000#32 [(1, 0x100#32)])).readReg 1 = 0xDEADBEEF#32 ∧
    (after (loads 0x8C227FFC#32 [(1, 0xFFFF8104#32)])).readReg 2 = 0xDEADBEEF#32 := by decide
theorem test_lw_misaligned : let t := after (loads 0x8C220002#32 [(1, 0x100#32), (2, 0x55555555#32)])
    t.readReg 2 = 0x55555555#32 ∧ t.epc = 0x80001000#32 ∧ t.cause = 0x10#32 ∧ t.badVAddr = 0x102#32 ∧
    t.status = 2#32 ∧ t.pc = 0x80000080#32 := by decide
theorem test_lw_unmapped : let t := after (start 0x8C22FFFC#32 [(2, 5#32)])
    t.readReg 2 = 0#32 ∧ t.diag = [.unmappedRead 0xFFFFFFFC#32 4] := by decide
theorem test_sb : (after (loads 0xA0220001#32 [(1, 0x100#32), (2, 0x12345678#32)])).memRead 0x100#32 .word = 0xDE78BEEF#32 := by decide
theorem test_sh : (after (loads 0xA4220002#32 [(1, 0x100#32), (2, 0x12345678#32)])).memRead 0x100#32 .word = 0xDEAD5678#32 := by decide
theorem test_sh_misaligned : let t := after (loads 0xA4220001#32 [(1, 0x100#32), (2, 0x12345678#32)])
    t.memRead 0x100#32 .word = 0xDEADBEEF#32 ∧ t.cause = 0x14#32 ∧ t.badVAddr = 0x101#32 := by decide
theorem test_sw : (after (loads 0xAC220000#32 [(1, 0x100#32), (2, 0x12345678#32)])).memRead 0xA0000100#32 .word = 0x12345678#32 := by decide

/-! 95_test_vectors.md L2.5. -/

/-- The bytes 11 22 33 44 55 66 77 88 from 0x100 on, x1 = 0x100, x2 = 0xAABB_CCDD. -/
def lanes (w : Word) : State :=
  ((start w [(1, 0x100#32), (2, 0xAABBCCDD#32)]).memWrite 0x100#32 .word 0x11223344#32).memWrite 0x104#32 .word 0x55667788#32

theorem test_lwl : (after (lanes 0x88220001#32)).readReg 2 = 0x223344DD#32 ∧ (after (lanes 0x88220007#32)).readReg 2 = 0x88BBCCDD#32 := by decide
theorem test_lwr : (after (lanes 0x98220001#32)).readReg 2 = 0xAABB1122#32 ∧ (after (lanes 0x98220004#32)).readReg 2 = 0xAABBCC55#32 := by decide
theorem test_swl : (after (lanes 0xA8220001#32)).memRead 0x100#32 .word = 0x11AABBCC#32 ∧
    (after (lanes 0xA8220007#32)).memRead 0x104#32 .word = 0x556677AA#32 := by decide
theorem test_swr : (after (lanes 0xB8220001#32)).memRead 0x100#32 .word = 0xCCDD3344#32 ∧
    (after (lanes 0xB8220004#32)).memRead 0x104#32 .word = 0xDD667788#32 := by decide

/-! 95_test_vectors.md L2.6. -/

theorem test_j : seq 0x0BFFFFFF#32 [] = (0x80001004#32, true, 0x8FFFFFFC#32) := by decide
theorem test_jal : seq 0x0C000800#32 [] = (0x80001004#32, true, 0x80002000#32) ∧ reg 31 0x0C000800#32 [] = 0x80001008#32 := by decide
theorem test_beq : seq 0x10228000#32 [(1, 7#32), (2, 7#32)] = (0x80001004#32, true, 0x7FFE1000#32) ∧
    seq 0x10220003#32 [(1, 5#32), (2, 6#32)] = (0x80001004#32, false, 0#32) := by decide
theorem test_bne : seq 0x1422FFFE#32 [(1, 1#32)] = (0x80001004#32, true, 0x80000FF8#32) ∧
    seq 0x14220003#32 [(1, 5#32), (2, 5#32)] = (0x80001004#32, false, 0#32) := by decide
/-- A jump in the delay slot of a jump (95_test_vectors.md L1.5 (b), step 2). -/
theorem test_nested_delay_slot :
    let t := after { start 0x08000C00#32 [] with nextPC := 0x80002000#32, inDelaySlot := true }
    t.pc = 0x80002000#32 ∧ t.inDelaySlot = true ∧ t.nextPC = 0x80003000#32 := by decide

/-! 95_test_vectors.md L2.7. -/

theorem test_syscall : raised 0x03FFFFCC#32 [] = (.exception .syscall, 0x20#32, 0x80001000#32) := by decide
theorem test_break : raised 0x0000000D#32 [] = (.exception .brk, 0x24#32, 0x80001000#32) := by decide
theorem test_mfc0 : (after ((start 0x40037000#32 []).writeC0 14 0x80001003#32)).readReg 3 = 0x80001003#32 := by decide
theorem test_mtc0 : (after (start 0x4082F800#32 [(2, 0x5678#32)])).readC0 31 = 0x5678#32 ∧
    (after ((start 0x40826000#32 [(2, 0x401#32)]).writeC0 13 0x400#32)).result = .exception .interrupt := by decide
theorem test_eret : let t := after (((start 0x42000018#32 []).writeC0 12 0x403#32).writeC0 14 0x80002000#32)
    t.status = 0x401#32 ∧ t.pc = 0x80002000#32 ∧ t.epc = 0x80002000#32 ∧ t.result = .ok := by decide
theorem test_eret_interrupt : let t := after ((((start 0x42000018#32 []).writeC0 12 0x403#32).writeC0 13 0x400#32).writeC0 14 0x80002000#32)
    t.result = .exception .interrupt ∧ t.epc = 0x80002000#32 ∧ t.cause = 0#32 ∧ t.status = 0x403#32 := by decide
theorem test_reserved : raised 0x3C011234#32 [] = (.exception .reservedInstruction, 0x28#32, 0x80001000#32) := by decide
theorem test_misaligned_fetch : let t := after { start 0#32 [] with pc := 0x80001002#32 }
    t.epc = 0x80001002#32 ∧ t.badVAddr = 0x80001002#32 ∧ t.cause = 0x10#32 := by decide
theorem test_gte_refused : refusal (start 0x4A000001#32 []) = some (.gteOpcode 0x4A000001#32) ∧
    refusal (start 0xC8000000#32 []) = some (.gteOpcode 0xC8000000#32) := by decide
/-- The interrupted branch is executed again; the target of a completed one is kept. -/
theorem test_interrupt_epc :
    (after (((start 0x10000003#32 []).writeC0 12 0x401#32).writeC0 13 0x400#32)).epc = 0x80001000#32 ∧
    (after (((start 0x14000003#32 []).writeC0 12 0x401#32).writeC0 13 0x400#32)).epc = 0x80001004#32 := by decide
/-- The tick of a SYSCALL's step sets its bit after entry cleared Cause. -/
theorem test_syscall_and_timer :
    let s := (start 0x0000000C#32 []).writeC0 12 0x801#32
    let t := after { s with timers := s.timers.set 0 { counter := 4#16, target := 5#16, mode := 0x410#14, irqPending := false } }
    t.cause = 0x820#32 ∧ t.status = 0x803#32 ∧ t.result = .exception .syscall ∧ t.timers[0].counter = 0#16 := by decide

/-! 95_test_vectors.md L2.8, L2.10. -/

theorem test_timer_store : let s := start 0xA4220000#32 [(1, 0x1F801100#32), (2, 4#32)]
    let t := after { s with timers := s.timers.set 0 { counter := 0#16, target := 5#16, mode := 0x410#14, irqPending := false } }
    t.timers[0].counter = 0#16 ∧ t.cause = 0x800#32 := by decide
theorem test_timer_mode_width :
    (State.reset.memWrite 0x1F801104#32 .word 0xFFFFFFFF#32).memRead 0x1F801104#32 .half = 0x3FFF#32 := by decide
theorem test_timer_wrap : let s := start 0#32 []
    let t := after { s with timers := s.timers.set 0 { counter := 0xFFFF#16, target := 0#16, mode := 0x410#14, irqPending := false } }
    t.timers[0].counter = 0#16 ∧ t.cause = 0x800#32 := by decide
theorem test_regions : region 0x801FFFFC#32 = .ram 0x1FFFFC ∧ region 0xA0200000#32 = .unmapped ∧
    region 0xBFC7FFFC#32 = .bios 0x7FFFC ∧ region 0x9FC00000#32 = .unmapped ∧ region 0x1F80118C#32 = .timer 2 0x2C ∧
    region 0x1F801190#32 = .unmapped ∧ region 0xBF801100#32 = .unmapped ∧ region 0x1F801814#32 = .gp1 := by decide

/-! 95_test_vectors.md L2.9: the extension. -/

theorem test_addiu : reg 2 0x2422FFFF#32 [(1, 0x80000000#32)] true = 0x7FFFFFFF#32 := by decide
theorem test_sltiu : reg 2 0x2C22FFFF#32 [(1, 5#32)] true = 1#32 ∧ reg 2 0x2C228000#32 [(1, 0xFFFF7FFF#32)] true = 1#32 := by decide
theorem test_andi : reg 2 0x3022FFFF#32 [(1, 0xFFFFFFFF#32)] true = 0xFFFF#32 := by decide
theorem test_ori : reg 2 0x3422FFFF#32 [] true = 0xFFFF#32 := by decide
theorem test_xori : reg 2 0x3822FFFF#32 [(1, 0x12345678#32)] true = 0x1234A987#32 := by decide
theorem test_lui : reg 2 0x3FE28000#32 [(31, 0x55#32)] true = 0x80000000#32 := by decide
theorem test_sltu : reg 3 0x0022182B#32 [(1, 1#32), (2, 0xFFFFFFFF#32)] true = 1#32 := by decide
theorem test_multu : hiLo 0x00220019#32 [(1, 0x12345678#32), (2, 0x9ABCDEF0#32)] true = (0x0B00EA4E#32, 0x242D2080#32) := by decide
theorem test_divu : hiLo 0x0022001B#32 [(1, 0x80000000#32), (2, 0xFFFFFFFF#32)] true = (0x80000000#32, 0#32) := by decide
theorem test_divu_zero : (after (start 0x0022001B#32 [(1, 5#32)] true)).diag = [.divideByZero 0x80001000#32] := by decide
theorem test_mfhi : (after ((start 0x00001810#32 [] true).writeHiLo 0xAAAA5555#32 0x12344321#32)).readReg 3 = 0xAAAA5555#32 := by decide
theorem test_mflo : (after ((start 0x00001812#32 [] true).writeHiLo 0xAAAA5555#32 0x12344321#32)).readReg 3 = 0x12344321#32 := by decide
theorem test_mthi : let t := after ((start 0x00200011#32 [(1, 0xCAFE0001#32)] true).writeHiLo 1#32 2#32)
    t.hi = 0xCAFE0001#32 ∧ t.lo = 2#32 := by decide
theorem test_mtlo : let t := after ((start 0x00200013#32 [(1, 0xCAFE0001#32)] true).writeHiLo 1#32 2#32)
    t.hi = 1#32 ∧ t.lo = 0xCAFE0001#32 := by decide
theorem test_jr : seq 0x03E00008#32 [(31, 0x80000106#32)] true = (0x80001004#32, true, 0x80000106#32) := by decide
theorem test_jalr : seq 0x00200809#32 [(1, 0x80002000#32)] true = (0x80001004#32, true, 0x80002000#32) ∧
    reg 1 0x00200809#32 [(1, 0x80002000#32)] true = 0x80001008#32 := by decide
theorem test_blez : (seq 0x18200003#32 [] true).2 = (true, 0x8000100C#32) ∧ (seq 0x18200003#32 [(1, 1#32)] true).2 = (false, 0#32) := by decide
theorem test_bgtz : (seq 0x1C200003#32 [(1, 1#32)] true).2 = (true, 0x8000100C#32) ∧ (seq 0x1C200003#32 [] true).2 = (false, 0#32) := by decide
theorem test_bltz : (seq 0x04200003#32 [(1, 0x80000000#32)] true).2 = (true, 0x8000100C#32) ∧ (seq 0x04200003#32 [] true).2 = (false, 0#32) := by decide
theorem test_bgez : (seq 0x04210003#32 [] true).2 = (true, 0x8000100C#32) ∧ (seq 0x04210003#32 [(1, 0x80000000#32)] true).2 = (false, 0#32) := by decide
theorem test_bltzal : (seq 0x07F00003#32 [(31, 0xFFFFFFFF#32)] true).2 = (true, 0x8000100C#32) ∧
    reg 31 0x04300003#32 [(1, 1#32)] true = 0x80001008#32 := by decide
theorem test_bgezal : (seq 0x04310003#32 [] true).2 = (true, 0x8000100C#32) ∧
    reg 31 0x04310003#32 [(1, 0x80000000#32)] true = 0x80001008#32 := by decide

/-! 95_test_vectors.md L2.11, L1.7. -/

theorem test_gpu_fill : let t := State.reset.gpuWriteCommands [0x02FF8040#32, 0x00020003#32, 0x00020004#32]
    t.gpu.pixel 3 2 = 0x7E08#16 ∧ t.gpu.pixel 6 3 = 0x7E08#16 ∧ t.gpu.pixel 7 2 = 0#16 ∧ t.gpu.vram.length = 8 := by decide
theorem test_gpu_fill_clipped :
    (State.reset.gpuWriteCommands [0x02FFFFFF#32, 0x01FF03FE#32, 0x00030004#32]).gpu.vram =
      [(511 * 1024 + 1022, 0x7FFF#16), (511 * 1024 + 1023, 0x7FFF#16)] := by decide
theorem test_gpu_area : (State.reset.gpuWriteCommand 0xE3012345#32).gpu.areaTop = 72#10 ∧
    (State.reset.gpuWriteCommand 0xE3012345#32).gpu.areaLeft = 837#10 ∧
    (State.reset.gpuWriteCommand 0xE4077E7F#32).gpu.areaBottom = 479#10 := by decide
theorem test_gpu_offset : (State.reset.gpuWriteCommand 0xE53FFC00#32).gpu.offsetX.toInt = -1024 ∧
    (State.reset.gpuWriteCommand 0xE53FFC00#32).gpu.offsetY.toInt = -1 := by decide
theorem test_gpu_flat_triangle :
    (State.reset.gpuWriteCommands [0x200000FF#32, 0x00100020#32, 0xFFF0FFE0#32, 0x80007FFF#32]).render =
      [.drawFlatTriangle ⟨32#16, 16#16⟩ ⟨0xFFE0#16, 0xFFF0#16⟩ ⟨0x7FFF#16, 0x8000#16⟩ 0x0000FF#24] := by decide
/-- An odd width takes one pixel beyond the rectangle. -/
theorem test_gpu_transfer_odd :
    let t := State.reset.gpuWriteCommands [0xA0000000#32, 0#32, 0x00010003#32, 0x22221111#32, 0x44443333#32]
    t.gpu.pixel 2 0 = 0x3333#16 ∧ t.gpu.pixel 3 0 = 0x4444#16 ∧ t.gpu.xferState = .idle := by decide
/-- Saturation at the edges of VRAM. -/
theorem test_gpu_transfer_clamped :
    let t := State.reset.gpuWriteCommands [0xA0000000#32, 0x01FF03FE#32, 0x00020004#32, 0x00020001#32, 0x00040003#32,
      0x00060005#32, 0x00080007#32]
    t.gpu.pixel 1022 511 = 5#16 ∧ t.gpu.pixel 1023 511 = 8#16 ∧ t.gpu.xferState = .idle := by decide
/-- An empty transfer ends at once, with the interrupt. -/
theorem test_gpu_transfer_empty :
    let t := (State.reset.gpuWriteControl 0x0A000000#32).gpuWriteCommands [0xA0000000#32, 0x00050005#32, 0x00000004#32]
    t.gpu.xferState = .idle ∧ t.cause = 0x100#32 ∧ t.gpu.irqFlag = true := by decide
theorem test_gpu_port_store : let t := after (start 0xAC220000#32 [(1, 0x1F801810#32), (2, 0xE6000001#32)])
    t.gpu.maskBit = true ∧ t.diag = [] := by decide

/-! ## The host's two questions (log 1, log 17) -/

theorem test_table_word : decodeTableWord 32 0x00221820 = some (.add 3 1 2) ∧ decodeTableWord 32 0x3C021234 = some (.lui 2 0x1234#16) := by decide
theorem test_with_fetch_word : (after (State.reset.withFetchWord 32 0x20010007)).readReg 1 = 7#32 ∧
    (after (State.reset.withFetchWord 32 0x3C021234)).readReg 2 = 0x12340000#32 := by decide

/-! ## Witnesses: a state and operands that meet the hypotheses of each statement together, clause by clause -/

/-- The state after stages 1 to 3. -/
def executed (s : State) : State :=
  match execFetched s with
  | .next t => t
  | .fault _ | .refused _ => s

theorem witness_EncodeThenDecode : (Instr.swr 31 31 0xFFFF#16).wf false = true ∧ (Instr.sll 0 0 31).wf false = true ∧
    (Instr.bgezal 31 0xFFFF#16).wf true = true := by decide

theorem witness_DecodeReadsUsedBitsOnly :
    decode false 0x00221FE0#32 = .instr (.add 3 1 2) ∧
    0x00221FE0#32 &&& usedBits (.add 3 1 2) = encode (.add 3 1 2) ∧ (Instr.add 3 1 2).wf false = true := by decide

theorem witness_ExtensionGate :
    (decode true 0x3C021234#32 = .instr (.lui 2 0x1234#16) ∧ (Instr.lui 2 0x1234#16).isExt = true) ∧
    (decode true 0x00221820#32 = .instr (.add 3 1 2) ∧ (Instr.add 3 1 2).isExt = false) ∧
    decode true 0xFFFFFFFF#32 = .reserved ∧ decode true 0xE8000000#32 = .gte := by decide

/-- In RAM, at the reset address in the BIOS, and at an address that reads as unmapped. -/
theorem witness_StepRunsDecodedInstruction :
    ((start 0x00221820#32 []).Executes (.add 3 1 2) ∧ isStorage (start 0x00221820#32 []).pc) ∧
    (State.reset.Executes (.sll 0 0 0) ∧ isStorage State.reset.pc) ∧
    { State.reset with pc := 0xFFFFFFFC#32 }.Executes (.sll 0 0 0) :=
  ⟨⟨⟨by decide, by decide⟩, .inl ⟨0x1000, by decide⟩⟩, ⟨⟨by decide, by decide⟩, .inr ⟨0, by decide⟩⟩, by decide, by decide⟩

theorem witness_ReservedWordRaises : let s := start 0xFFFFFFFF#32 []
    s.pc.toNat % 4 = 0 ∧ decode s.mips1Ext s.fetchWord = .reserved := by decide

theorem witness_EveryStepCompletesExceptGte :
    ((start 0x48000000#32 []).pc.toNat % 4 = 0 ∧ fieldOp (start 0x48000000#32 []).fetchWord = 0x12#6) ∧
    fieldOp (start 0xC8000000#32 []).fetchWord = 0x32#6 ∧ fieldOp (start 0xE8000000#32 []).fetchWord = 0x3A#6 ∧
    (let s := start 0x4C000000#32 []
     ¬(s.pc.toNat % 4 = 0 ∧ (fieldOp s.fetchWord = 0x12#6 ∨ fieldOp s.fetchWord = 0x32#6 ∨ fieldOp s.fetchWord = 0x3A#6))) ∧
    ¬{ start 0x48000000#32 [] with pc := 0x80001001#32 }.pc.toNat % 4 = 0 := by decide

theorem witness_PcUpdate (s : State) :
    (∃ t, exec .syscall s = .next t ∧ t.result ≠ .ok) ∧ (∃ t, exec .eret s = .next t ∧ t.result = .ok) ∧
    (∃ t, exec (.addu 3 1 2) s = .next t ∧ t.result = .ok ∧ t.inDelaySlot = false) ∧
    (∃ t, exec (.j 0#26) s = .next t ∧ t.result = .ok ∧ t.inDelaySlot = true) :=
  ⟨⟨_, rfl, fun h => nomatch (State.raise_result s .syscall).symm.trans h⟩, ⟨_, rfl, rfl⟩, ⟨_, rfl, rfl, rfl⟩, ⟨_, rfl, rfl, rfl⟩⟩

/-- A step with line `n` pending and enabled. -/
def withLine (w : Word) (status cause : Word) : State := ((start w []).writeC0 12 status).writeC0 13 cause

theorem witness_InterruptPoll :
    (let s := withLine 0#32 0x8001#32 0x8000#32
     let u := (executed s).markStepped.forceZero.tickTimers
     execFetched s = .next (executed s) ∧ u.status.getLsbD 0 = true ∧ u.status.getLsbD 1 = false ∧ LinePending u) ∧
    (let s := withLine 0#32 0x0103#32 0x0100#32
     let u := (executed s).markStepped.forceZero.tickTimers
     execFetched s = .next (executed s) ∧ ¬(u.status.getLsbD 0 = true ∧ u.status.getLsbD 1 = false ∧ LinePending u)) :=
  ⟨⟨rfl, by decide, by decide, 7, by decide, by decide, by decide⟩, rfl, fun h => absurd h.2.1 (by decide)⟩

/-- An interrupt after a taken branch, one after another instruction, a plain step, and an exception. -/
theorem witness_OneExceptionPerStep :
    (let s := withLine 0x10000003#32 0x0101#32 0x0100#32
     execFetched s = .next (executed s) ∧ step s = .next (after s) ∧ (executed s).result = .ok ∧
       (executed s).inDelaySlot = true ∧ (after s).result = .exception .interrupt) ∧
    (let s := withLine 0#32 0x0101#32 0x0100#32
     execFetched s = .next (executed s) ∧ step s = .next (after s) ∧ (executed s).result = .ok ∧
       (executed s).inDelaySlot = false ∧ (after s).result = .exception .interrupt) ∧
    (let s := start 0#32 []
     execFetched s = .next (executed s) ∧ step s = .next (after s) ∧ (after s).result = .ok) ∧
    (let s := withLine 0x0000000C#32 0x0101#32 0x0100#32
     execFetched s = .next (executed s) ∧ step s = .next (after s) ∧ (executed s).result = .exception .syscall) :=
  ⟨⟨rfl, rfl, by decide, by decide, by decide⟩, ⟨rfl, rfl, by decide, by decide, by decide⟩, ⟨rfl, rfl, by decide⟩,
    rfl, rfl, by decide⟩

/-- A state in the middle of a transfer's setup, about to store a descriptor word to the command port. -/
def midSetup : State :=
  (start 0xAC220000#32 [(1, 0x1F801810#32), (2, 0x00020002#32)]).gpuWriteCommand 0xA0000000#32

theorem midSetup_inv : midSetup.Inv :=
  ⟨by decide, by decide, by decide, by decide, by decide, .inl rfl, by decide⟩

theorem witness_StepKeepsInvariant : midSetup.Inv ∧ step midSetup = .next (after midSetup) := ⟨midSetup_inv, rfl⟩

theorem witness_HostActionsKeepInvariant : midSetup.Inv ∧
    (∃ t, hostAct .cpuReset midSetup = .next t) ∧ (∃ t, hostAct .gpuReset midSetup = .next t) ∧
    (∃ t, hostAct (.setIRQ 7 true) midSetup = .next t) ∧
    (∃ t, hostAct (.loadBios (List.replicate 524288 1#8)) midSetup = .next t) ∧
    (∃ t, hostAct (.writeCommand 0#32) midSetup = .next t) ∧ (∃ t, hostAct (.writeControl 0#32) midSetup = .next t) :=
  ⟨midSetup_inv, ⟨_, rfl⟩, ⟨_, rfl⟩, ⟨_, rfl⟩, ⟨_, State.loadBios_next List.length_replicate (by decide)⟩, ⟨_, rfl⟩, ⟨_, rfl⟩⟩

theorem witness_RegisterZero (s : State) :
    step (start 0x20000005#32 []) = .next (after (start 0x20000005#32 [])) ∧
    ∃ t, exec (.addu 0 1 2) s = .next t := ⟨rfl, _, rfl⟩

theorem witness_BiosAndConfigNeverChange : step (start 0x20000005#32 []) = .next (after (start 0x20000005#32 [])) := rfl

theorem witness_StorageChangesOnlyByStores :
    (let s := start 0xAC020100#32 [(2, 0xDEADBEEF#32)]
     step s = .next (after s) ∧ (after s).ram ≠ s.ram) ∧
    (let s := start 0xAC220000#32 [(1, 0x1F801810#32), (2, 0xE6000001#32)]
     step s = .next (after s) ∧ (after s).gpu ≠ s.gpu) := ⟨⟨rfl, by decide⟩, rfl, by decide⟩

theorem witness_ExlClearedOnlyByEretOrMtc0 :
    (let s := withLine 0x42000018#32 2#32 0#32
     s.status.getLsbD 1 = true ∧ step s = .next (after s) ∧ (after s).status.getLsbD 1 = false) ∧
    (let s := withLine 0x40826000#32 2#32 0#32
     s.status.getLsbD 1 = true ∧ step s = .next (after s) ∧ (after s).status.getLsbD 1 = false) ∧
    (let s := withLine 0#32 2#32 0#32
     s.status.getLsbD 1 = true ∧ step s = .next (after s) ∧ ¬s.Executes .eret ∧ ∀ rt, ¬s.Executes (.mtc0 rt 12)) :=
  ⟨⟨by decide, rfl, by decide⟩, ⟨by decide, rfl, by decide⟩, by decide, rfl, fun h => absurd h.2 (by decide),
    fun rt h => nomatch (show Decoded.instr (.sll 0 0 0) = .instr (.mtc0 rt 12) from h.2)⟩

theorem witness_PcStaysAligned : let s := { start 0x08000C00#32 [] with nextPC := 0xFFFFFFFC#32, inDelaySlot := true }
    s.pc.toNat % 4 = 0 ∧ (s.inDelaySlot = true → s.nextPC.toNat % 4 = 0) ∧ step s = .next (after s) ∧
    ¬s.Executes .eret ∧ (∀ rs, ¬s.Executes (.jr rs)) ∧ ∀ rd rs, ¬s.Executes (.jalr rd rs) :=
  ⟨by decide, by decide, rfl, fun h => absurd h.2 (by decide), fun rs h => (nomatch (show Decoded.instr (.j 0xC00#26) = .instr (.jr rs) from h.2)),
    fun rd rs h => nomatch (show Decoded.instr (.j 0xC00#26) = .instr (.jalr rd rs) from h.2)⟩

theorem witness_OverflowRule :
    (let a := (start 0#32 [(1, 0x7FFFFFFF#32), (2, 1#32)]).readReg 1
     let b := (start 0#32 [(1, 0x7FFFFFFF#32), (2, 1#32)]).readReg 2
     a.getLsbD 31 = b.getLsbD 31 ∧ (a + b).getLsbD 31 ≠ a.getLsbD 31) ∧
    (let a := (start 0#32 [(1, 0x80000000#32)]).readReg 1
     let c := BitVec.ofInt 32 (0xFFFF#16).toInt
     a.getLsbD 31 = c.getLsbD 31 ∧ (a + c).getLsbD 31 ≠ a.getLsbD 31) ∧
    (let a := (start 0#32 [(2, 0x80000000#32)]).readReg 1
     let b := (start 0#32 [(2, 0x80000000#32)]).readReg 2
     a.getLsbD 31 ≠ b.getLsbD 31 ∧ (a - b).getLsbD 31 ≠ a.getLsbD 31) := by decide

theorem witness_AddSubResults :
    (let s := start 0#32 [(1, 0x7FFFFFFE#32), (2, 1#32)]
     ¬OutOfRange ((s.readReg 1).toInt + (s.readReg 2).toInt)) ∧
    (let s := start 0#32 [(1, 0x80000001#32)]
     ¬OutOfRange ((s.readReg 1).toInt + (0xFFFF#16).toInt)) ∧
    (let s := start 0#32 [(1, 0xFFFFFFFF#32), (2, 0x80000000#32)]
     ¬OutOfRange ((s.readReg 1).toInt - (s.readReg 2).toInt)) := by unfold OutOfRange; decide

theorem witness_DivideSigned :
    (let s := start 0#32 [(1, 0x80000000#32), (2, 1#32)]
     s.readReg 2 ≠ 0#32 ∧ ¬(s.readReg 1 = 0x80000000#32 ∧ s.readReg 2 = 0xFFFFFFFF#32)) ∧
    (let s := start 0#32 [(1, 0x80000000#32), (2, 0xFFFFFFFF#32)]
     s.readReg 2 ≠ 0#32 ∧ s.readReg 1 = 0x80000000#32 ∧ s.readReg 2 = 0xFFFFFFFF#32) := by decide

theorem witness_DivideByZero : (start 0x0020001A#32 [(1, 7#32)]).readReg 0 = 0#32 := by decide

theorem witness_DivideUnsigned : (start 0#32 [(2, 1#32)]).readReg 2 ≠ 0#32 ∧ (start 0#32 [(1, 5#32)]).readReg 2 = 0#32 := by decide

/-- Both ends of every region, and the addresses just outside (20_memory.md R30, R33 to R35, R43). -/
theorem witness_AddressMap :
    (region 0#32 = .ram 0 ∧ region 0xE01FFFFF#32 = .ram 0x1FFFFF ∧ region 0x00200000#32 = .unmapped) ∧
    (region 0xBFBFFFFF#32 = .unmapped ∧ region 0xBFC00000#32 = .bios 0 ∧ region 0xBFC7FFFF#32 = .bios 0x7FFFF ∧ region 0xBFC80000#32 = .unmapped) ∧
    (region 0x1F8010FF#32 = .unmapped ∧ region 0x1F801100#32 = .timer 0 0 ∧ region 0x1F80112F#32 = .timer 0 0x2F ∧
      region 0x1F801130#32 = .timer 1 0 ∧ region 0x1F80118F#32 = .timer 2 0x2F) ∧
    (region 0x1F801810#32 = .gp0 ∧ region 0x1F801811#32 = .unmapped ∧ region 0x1F801814#32 = .gp1) := by decide

theorem isStorage_ends : isStorage 0x801FFFFC#32 ∧ isStorage 0x801FFFFE#32 ∧ isStorage 0xBFC7FFFC#32 ∧ isStorage 0xBFC00000#32 :=
  ⟨.inl ⟨0x1FFFFC, by decide⟩, .inl ⟨0x1FFFFE, by decide⟩, .inr ⟨0x7FFFC, by decide⟩, .inr ⟨0, by decide⟩⟩

theorem witness_BigEndian :
    (isStorage 0x801FFFFC#32 ∧ (0x801FFFFC#32).toNat % 4 = 0) ∧ (isStorage 0xBFC7FFFC#32 ∧ (0xBFC7FFFC#32).toNat % 4 = 0) ∧
    (isStorage 0x801FFFFE#32 ∧ (0x801FFFFE#32).toNat % 2 = 0) ∧
    (region 0x801FFFFC#32 = .ram 0x1FFFFC ∧ Memory.wf Config.ramSize (start 0#32 []).ram = true ∧ (0x801FFFFC#32).toNat % 4 = 0) ∧
    (region 0x801FFFFE#32 = .ram 0x1FFFFE ∧ (0x801FFFFE#32).toNat % 2 = 0) ∧ region 0x801FFFFF#32 = .ram 0x1FFFFF :=
  ⟨⟨isStorage_ends.1, by decide⟩, ⟨isStorage_ends.2.2.1, by decide⟩, ⟨isStorage_ends.2.1, by decide⟩, by decide⟩

theorem witness_LoadResults :
    (let a := (start 0#32 [(1, 0x80200000#32)]).readReg 1 + BitVec.ofInt 32 (0xFFFE#16).toInt
     isStorage a ∧ a.toNat % 2 = 0) ∧
    (let a := (start 0#32 [(1, 0x80200000#32)]).readReg 1 + BitVec.ofInt 32 (0xFFFC#16).toInt
     a.toNat % 4 = 0) := ⟨⟨.inl ⟨0x1FFFFE, by decide⟩, by decide⟩, by decide⟩

theorem witness_MisalignedAccessRaises :
    (let a := (start 0#32 [(1, 0x100#32)]).readReg 1 + BitVec.ofInt 32 (1#16).toInt
     a.toNat % 2 ≠ 0 ∧ a.toNat % 4 ≠ 0) ∧
    (let a := (start 0#32 [(1, 0x100#32)]).readReg 1 + BitVec.ofInt 32 (0xFFFE#16).toInt
     a.toNat % 4 ≠ 0) ∧ { State.reset with pc := 2#32 }.pc.toNat % 4 ≠ 0 := by decide

/-- The pairs in both orders at an unaligned address, and at the last word of RAM. -/
theorem witness_UnalignedPairs :
    (let s := lanes 0#32
     (∀ k, k < 4 → isStorage (s.ea 1 1#16 + BitVec.ofNat 32 k)) ∧
     (∃ t, exec (.lwl 2 1 1#16) s = .next t ∧ t.ea 1 4#16 = s.ea 1 1#16 + 3#32) ∧
     (∃ t, exec (.lwr 2 1 4#16) s = .next t ∧ s.ea 1 4#16 = s.ea 1 1#16 + 3#32 ∧ t.ea 1 1#16 = s.ea 1 1#16) ∧
     Memory.wf Config.ramSize s.ram = true ∧ (∃ t, exec (.swl 2 1 1#16) s = .next t) ∧ ∃ t, exec (.swr 2 1 4#16) s = .next t) ∧
    (∀ k, k < 4 → isStorage ((start 0#32 [(1, 0x801FFFFC#32)]).ea 1 0#16 + BitVec.ofNat 32 k)) ∧
    (∀ k, k < 4 → ∃ o, region ((lanes 0#32).ea 1 1#16 + BitVec.ofNat 32 k) = .ram o) ∧
    ∀ k, k < 4 → ∃ o, region ((start 0#32 [(1, 0x801FFFFC#32)]).ea 1 0#16 + BitVec.ofNat 32 k) = .ram o := by
  refine ⟨⟨fun k hk => .inl ⟨0x101 + k, ?_⟩, ⟨_, rfl, by decide⟩, ⟨_, rfl, by decide, by decide⟩, by decide, ⟨_, rfl⟩, _, rfl⟩,
    fun k hk => .inl ⟨0x1FFFFC + k, ?_⟩, fun k hk => ⟨0x101 + k, ?_⟩, fun k hk => ⟨0x1FFFFC + k, ?_⟩⟩
  all_goals
    have : k = 0 ∨ k = 1 ∨ k = 2 ∨ k = 3 := by omega
    rcases this with rfl | rfl | rfl | rfl <;> decide

theorem witness_RamStores : Memory.wf Config.ramSize (start 0#32 [(1, 0x80200000#32)]).ram = true ∧
    (let s := start 0#32 [(1, 0x80200000#32)]
     let a := fun (offset : BitVec 16) => s.readReg 1 + BitVec.ofInt 32 offset.toInt
     region (a 0xFFFF#16) = .ram 0x1FFFFF ∧ (region (a 0xFFFE#16) = .ram 0x1FFFFE ∧ (a 0xFFFE#16).toNat % 2 = 0) ∧
     region (a 0xFFFC#16) = .ram 0x1FFFFC ∧ (a 0xFFFC#16).toNat % 4 = 0) := by decide

theorem witness_UnalignedStores : Memory.wf Config.ramSize (start 0#32 [(1, 0x80200000#32)]).ram = true ∧
    (let s := start 0#32 [(1, 0x80200000#32)]
     region (s.readReg 1 + BitVec.ofInt 32 (0xFFFF#16).toInt) = .ram 0x1FFFFF ∧
     region (s.readReg 0 + BitVec.ofInt 32 (0#16).toInt) = .ram 0) := by decide

theorem witness_StoresGoThroughTheBus :
    ((start 0#32 [(1, 0x1F801100#32)]).ea 1 2#16).toNat % 2 = 0 ∧ ((start 0#32 [(1, 0x1F801100#32)]).ea 1 8#16).toNat % 4 = 0 := by decide

theorem witness_TimerRegisters : region 0x1F801100#32 = .timer 0 0 ∧ region 0x1F801134#32 = .timer 1 4 ∧
    region 0x1F801168#32 = .timer 2 8 ∧ Width.half ≠ .byte ∧ Width.word ≠ .byte ∧ region 0x1F80118C#32 = .timer 2 0x2C ∧
    region 0x1F801101#32 = .timer 0 1 := by decide

theorem witness_BusOutsideRam : region 0x1F801810#32 = .gp0 ∧ region 0x1F801814#32 = .gp1 ∧ region 0x1F801818#32 = .unmapped ∧
    Width.half ≠ .word ∧ Width.byte ≠ .word ∧ region 0xBFC00000#32 = .bios 0 ∧ region 0xBFC7FFFF#32 = .bios 0x7FFFF := by decide

theorem witness_StoreThenLoadThroughAlias :
    let s := start 0xAC220000#32 [(1, 0x801FFFFC#32), (2, 0xCAFEBABE#32), (4, 0xE01FFFFC#32)]
    Memory.wf Config.ramSize s.ram = true ∧ region (s.ea 1 0#16) = .ram 0x1FFFFC ∧ 0x1FFFFC % 4 = 0 ∧
    ∃ t, exec (.sw 2 1 0#16) s = .next t ∧ (t.ea 4 0#16).toNat % 0x20000000 = 0x1FFFFC :=
  ⟨by decide, by decide, rfl, _, rfl, by decide⟩

/-- A timer that matches in the step and one that does not, and the Cause bits on both sides of the timers' lines. -/
theorem witness_TimersTickAndAssert :
    (let s := { start 0#32 [] with timers := (start 0#32 []).timers.set 2 { counter := 0xFFFF#16, target := 0#16, mode := 0x410#14, irqPending := false } }
     execFetched s = .next (executed s) ∧ step s = .next (after s) ∧
     s.timers[2].counter + 1#16 = s.timers[2].target ∧ s.timers[0].counter + 1#16 ≠ s.timers[0].target) ∧
    (10 < 32 ∧ (10 < 11 ∨ 14 ≤ 10)) ∧ (14 < 32 ∧ (14 < 11 ∨ 14 ≤ 14)) :=
  ⟨⟨rfl, rfl, by decide, by decide⟩, by decide, by decide⟩

theorem witness_TimerPeriod :
    (let t : Timer := { counter := 0#16, target := 1#16, mode := 0x410#14, irqPending := false }
     t.mode.getLsbD 4 = true ∧ t.mode.getLsbD 10 = true ∧ t.irqPending = false ∧ t.counter.toNat < t.target.toNat) ∧
    (let t : Timer := { counter := 0xFFFE#16, target := 0xFFFF#16, mode := 0x3FFF#14, irqPending := false }
     t.mode.getLsbD 4 = true ∧ t.mode.getLsbD 10 = true ∧ t.irqPending = false ∧ t.counter.toNat < t.target.toNat) := by decide

theorem witness_PortWordsTouchOnlyTheGpu : (0x02123456#32 : Word).extractLsb' 24 8 = 0x02#8 ∧
    (0x0AFFFFFF#32 : Word).extractLsb' 24 8 = 0x0A#8 ∧
    ((0x0B000000#32 : Word).extractLsb' 24 8 ≠ 0x02#8 ∧ (0x0B000000#32 : Word).extractLsb' 24 8 ≠ 0x0A#8) := by decide

/-- The 2 x 1 transfer in the last row and the last two columns. -/
theorem witness_TransferFillsItsRectangle :
    let w1 : Word := 0x01FF03FE#32
    let w2 : Word := 0x00010002#32
    let W := (w2.extractLsb' 0 16).toNat
    let H := (w2.extractLsb' 16 16).toNat
    State.reset.gpu.xferState = .idle ∧ (0xA0FFFFFF#32 : Word).extractLsb' 24 8 = 0xA0#8 ∧ W % 2 = 0 ∧ 0 < W * H ∧
    (w1.extractLsb' 0 16).toNat + W ≤ 1024 ∧ (w1.extractLsb' 16 16).toNat + H ≤ 512 ∧
    Store.wf (1024 * 512) State.reset.gpu.vram = true ∧ 2 * [0x22221111#32].length = W * H ∧ 0 < [0x22221111#32].length := by decide

theorem witness_TransferLength :
    let N := fun (w2 : Word) => (w2.extractLsb' 0 16).toNat * (w2.extractLsb' 16 16).toNat
    State.reset.gpu.xferState = .idle ∧ (0xA0000000#32 : Word).extractLsb' 24 8 = 0xA0#8 ∧
    ([] : List Word).length = (N 0x00000004#32 + 1) / 2 ∧ ([] : List Word).length < (N 0x00010001#32 + 1) / 2 ∧
    [0#32].length = (N 0x00010001#32 + 1) / 2 := by decide

theorem witness_TransferWordWritesTwoPixels :
    let s := State.reset.gpuWriteCommands [0xA0000000#32, 0x01FF03FE#32, 0x00020004#32, 0x00020001#32]
    s.gpu.xferState = .transferringPixels ∧ Store.wf (1024 * 512) s.gpu.vram = true ∧ 1023 < 1024 ∧ 511 < 512 := by decide

theorem witness_FillWritesItsRectangle : State.reset.gpu.xferState = .idle ∧ State.reset.gpu.queue = [] ∧
    (0x02FFFFFF#32 : Word).extractLsb' 24 8 = 0x02#8 ∧ (0x01FF03FE#32 : Word).extractLsb' 24 8 ≠ 0xA0#8 ∧
    (0x00030004#32 : Word).extractLsb' 24 8 ≠ 0xA0#8 ∧ Store.wf (1024 * 512) State.reset.gpu.vram = true := by decide

/-- A row copied one column to the right sees its own earlier writes (62_gpu.md R205). -/
theorem test_copy_overlap :
    let v := copyRect { sx := 0, sy := 0, dx := 1, dy := 0, w := 2, h := 1 } [(0, 0x1111#16), (1, 0x2222#16)]
    Store.read v (pixelIndex 1 0) = 0x1111#16 ∧ Store.read v (pixelIndex 2 0) = 0x1111#16 := by decide

/-- A pixel of a copy whose rectangles overlap, and four forms of two rectangles that just do not overlap. -/
theorem witness_CopyMovesPixels :
    (State.reset.gpu.xferState = .idle ∧ State.reset.gpu.queue = [] ∧ (0x80000000#32 : Word).extractLsb' 24 8 = 0x80#8 ∧
      (0#32 : Word).extractLsb' 24 8 ≠ 0xA0#8) ∧
    Store.wf (1024 * 512) (State.reset.gpuWriteCommands [0x02FFFFFF#32, 0#32, 0x00010001#32]).gpu.vram = true ∧
    (let f : CopyFields := { sx := 0, sy := 0, dx := 1, dy := 0, w := 2#16, h := 1#16 }
     1 < f.w.toNat * f.h.toNat) ∧
    (let f : CopyFields := { sx := 0, sy := 0, dx := 2, dy := 0, w := 2#16, h := 1#16 }
     f.sx + f.w.toNat ≤ f.dx) ∧
    (let f : CopyFields := { sx := 2, sy := 0, dx := 0, dy := 0, w := 2#16, h := 1#16 }
     f.dx + f.w.toNat ≤ f.sx) ∧
    (let f : CopyFields := { sx := 0, sy := 0, dx := 0, dy := 1, w := 2#16, h := 1#16 }
     f.sy + f.h.toNat ≤ f.dy) ∧
    (let f : CopyFields := { sx := 0, sy := 1, dx := 0, dy := 0, w := 2#16, h := 1#16 }
     f.dy + f.h.toNat ≤ f.sy) := by decide

theorem witness_CommandsWithoutVram : State.reset.gpu.xferState = .idle ∧ State.reset.gpu.queue = [] ∧
    (let op := fun (w : Word) => w.extractLsb' 24 8
     op 0xE3019032#32 = 0xE3#8 ∧ op 0xE40FFFFF#32 = 0xE4#8 ∧ op 0xE53FFC00#32 = 0xE5#8 ∧ op 0xE6FFFFFF#32 = 0xE6#8 ∧
     op 0#32 = 0x00#8 ∧ op 0xFF000000#32 ∉ [0x00#8, 0x02#8, 0x20#8, 0x24#8, 0x80#8, 0xA0#8, 0xE3#8, 0xE4#8, 0xE5#8, 0xE6#8] ∧
     op 0x200000FF#32 = 0x20#8 ∧ op 0x24808080#32 = 0x24#8 ∧
     (op 0x00100020#32 ≠ 0xA0#8 ∧ op 0xFFF0FFE0#32 ≠ 0xA0#8 ∧ op 0x80007FFF#32 ≠ 0xA0#8)) := by decide

theorem witness_SetupWordRestartsParser :
    (let s := State.reset.gpuWriteCommands [0x200000FF#32, 0x00100020#32]
     s.gpu.xferState = .idle ∧ (0xA0000000#32 : Word).extractLsb' 24 8 = 0xA0#8 ∧ (0x01000000#32 : Word).extractLsb' 24 8 ≠ 0xA0#8 ∧
     (s.gpu.queue ++ [0x01000000#32]).length ≠ packetLength (topByte (packetWord (s.gpu.queue ++ [0x01000000#32]) 0))) ∧
    (let s := State.reset.gpuWriteCommands [0x200000FF#32, 0x00100020#32, 0xFFF0FFE0#32]
     s.gpu.xferState = .idle ∧
     (s.gpu.queue ++ [0x01000000#32]).length = packetLength (topByte (packetWord (s.gpu.queue ++ [0x01000000#32]) 0))) := by decide

theorem witness_ResetState : region 0#32 ≠ .unmapped ∧ region 0xBFC7FFFF#32 ≠ .unmapped ∧ region 0x1F801814#32 ≠ .unmapped := by decide

theorem witness_HostResetsAndBiosImage : (List.replicate 524288 1#8).length = 524288 ∧ ([] : List Byte).length ≠ 524288 ∧
    State.reset.stepped = false ∧ (after (start 0x20000005#32 [])).stepped = true :=
  ⟨List.length_replicate, by decide, rfl, by decide⟩

/-- No image is taken once a step is (00_scope.md R7), not even after the CPU's Reset. -/
theorem test_image_only_before_first_step :
    hostAct (.loadBios (List.replicate 524288 1#8)) (after (start 0x20000005#32 [])).cpuReset = .refused .biosImageAfterFirstStep :=
  State.loadBios_stepped List.length_replicate (by decide)

end Sys2Proof.Tests
end

/-! PROOFS. The statements of 00_scope.md: what the host may do between two steps, and what every step keeps of the
configuration. -/

namespace Sys2Proof.Machine

/-! ## The BIOS image as a memory -/

/-- An image placed from offset `k` on is canonical and ends where the buffer ends. -/
theorem imageFrom_wfFrom (image : List Byte) {hi k : Nat} (h : k + image.length ≤ hi) :
    Store.wfFrom hi k (imageFrom k image) = true := by
  induction image generalizing k with
  | nil => rfl
  | cons b bs ih =>
    rw [List.length_cons] at h
    have hbs : Store.wfFrom hi (k + 1) (imageFrom (k + 1) bs) = true := ih (by omega)
    rw [imageFrom]
    split
    · exact Store.wfFrom_weaken hbs (Nat.le_succ k)
    · rename_i hb
      have hk : k < hi := by omega
      simp [Store.wfFrom, hk, hbs, show b ≠ 0#8 from hb]

/-- The item at offset `k + j` is byte `j` of the buffer; past its end both read 0. -/
theorem read_imageFrom (image : List Byte) (k j : Nat) : Store.read (imageFrom k image) (k + j) = image.getD j 0#8 := by
  induction image generalizing k j with
  | nil => rfl
  | cons b bs ih =>
    rw [imageFrom]
    cases j with
    | zero =>
      split
      · rename_i hb
        rw [hb]
        exact Store.read_below (imageFrom_wfFrom bs (le_refl _)) (Nat.lt_succ_self k)
      · exact if_pos rfl
    | succ j =>
      have htail : Store.read (imageFrom (k + 1) bs) (k + (j + 1)) = bs.getD j 0#8 := by
        rw [← ih (k + 1) j]; congr 1; omega
      rw [List.getD_cons_succ, ← htail]
      split
      · rfl
      · exact if_neg (by omega)

theorem imageMemory_wf {image : List Byte} (h : image.length = Config.biosSize) :
    Memory.wf Config.biosSize (imageMemory image) = true := imageFrom_wfFrom image (by omega)

theorem read_imageMemory (image : List Byte) (k : Nat) : Store.read (imageMemory image) k = image.getD k 0#8 := by
  rw [imageMemory, ← read_imageFrom image 0 k, Nat.zero_add]

/-- The address of byte `k` of the BIOS (20_memory.md R34). -/
theorem region_biosBase_add {k : Nat} (hk : k < 0x80000) : region (0xBFC00000#32 + BitVec.ofNat 32 k) = .bios k := by
  rw [region_bios_iff, BitVec.toNat_add, BitVec.toNat_ofNat, BitVec.toNat_ofNat]
  omega

/-- An image is taken only where it has the right length and no step is taken yet, and it becomes the BIOS. -/
theorem State.loadBios_eq_next {s t : State} {image : List Byte} (h : s.loadBios image = .next t) :
    image.length = Config.biosSize ∧ s.stepped = false ∧ t = { s with bios := imageMemory image } := by
  by_cases hl : image.length = Config.biosSize
  · rcases Bool.eq_false_or_eq_true s.stepped with hs | hs
    · rw [State.loadBios_stepped hl hs] at h; cases h
    · rw [State.loadBios_next hl hs] at h; cases h; exact ⟨hl, hs, rfl⟩
  · rw [State.loadBios_length hl] at h; cases h

/-! ## The invariant under the host's actions -/

/-- The invariant speaks of the registers, the memories, the timers and the GPU only. -/
theorem State.Inv.of_sameStorage {s t : State} (h : s.Inv) (hregs : t.regs = s.regs) (hram : t.ram = s.ram)
    (hbios : t.bios = s.bios) (htimers : t.timers = s.timers) (hgpu : vramWf t.gpu.vram ∧ t.gpu.ParserOk) : t.Inv where
  zero := hregs ▸ h.zero
  ram := hram ▸ h.ram
  bios := hbios ▸ h.bios
  vram := hgpu.1
  pending := htimers ▸ h.pending
  parser := hgpu.2

/-- A Reset gives registers, RAM and timers their power-on values; what it leaves kept the invariant before. -/
theorem State.cpuReset_inv {s : State} (h : s.Inv) : s.cpuReset.Inv where
  zero := rfl
  ram := rfl
  bios := h.bios
  vram := h.vram
  pending := show ∀ i : Fin 3, State.reset.timers[i].irqPending = false by decide
  parser := h.parser

theorem State.gpuReset_inv {s : State} (h : s.Inv) : s.gpuReset.Inv :=
  h.of_sameStorage rfl rfl rfl rfl ⟨rfl, Gpu.parserOk_idle rfl rfl⟩

theorem State.setIRQ_inv {s : State} (h : s.Inv) (line : Fin 8) (b : Bool) : (s.setIRQ line b).Inv :=
  h.of_sameStorage rfl rfl rfl rfl ⟨h.vram, h.parser⟩

theorem State.loadBios_inv {s t : State} {image : List Byte} (h : s.Inv) (ht : s.loadBios image = .next t) : t.Inv := by
  obtain ⟨hl, -, rfl⟩ := State.loadBios_eq_next ht
  exact { h with bios := imageMemory_wf hl }

/-- Settles O13, action by action: each leaves the storage it does not set as it was, and sets what it sets to a
canonical value. -/
theorem hostActionsKeepInvariant : Obligations.HostActionsKeepInvariant := by
  intro a s t h ht
  cases a with
  | cpuReset => cases ht; exact State.cpuReset_inv h
  | gpuReset => cases ht; exact State.gpuReset_inv h
  | setIRQ line b => cases ht; exact State.setIRQ_inv h line b
  | loadBios image => exact State.loadBios_inv h ht
  | writeCommand w =>
    cases ht
    exact h.of_sameStorage (by simp) (by simp) (by simp) (by simp) (s.gpuWriteCommand_inv w h.vram h.parser)
  | writeControl w =>
    cases ht
    exact h.of_sameStorage (by simp) (by simp) (by simp) (by simp) (s.gpuWriteControl_inv w h.vram h.parser)

/-! ## What every step keeps -/

/-- Settles O15: stages 1 to 3 write neither the image nor the configuration and only append to the streams, and
stages 4 to 6 touch none of them but the mark, which they set. -/
theorem biosAndConfigNeverChange : Obligations.BiosAndConfigNeverChange := by
  intro s t h
  obtain ⟨m, hm, rfl⟩ := step_next.mp h
  obtain ⟨hbios, hext, -⟩ := execFetched_frame hm
  obtain ⟨hdiag, hrender⟩ := execFetched_grows hm
  simp only [State.finishStep_bios, State.finishStep_mips1Ext, State.finishStep_stepped, State.finishStep_diag,
    State.finishStep_render]
  exact ⟨hbios, hext, trivial, hdiag, hrender⟩

/-! ## The Resets and the BIOS image -/

theorem State.cpuReset_readC0 (s : State) (n : Slot) : s.cpuReset.readC0 n = 0#32 := by
  simp [State.readC0, State.cpuReset, State.reset]

/-- Byte `k` of a supplied image reads at `BIOS_BASE + k` (20_memory.md R36). -/
theorem State.readByte_suppliedImage (s : State) (image : List Byte) {k : Nat} (hk : k < 524288) :
    State.readByte { s with bios := imageMemory image } (0xBFC00000#32 + BitVec.ofNat 32 k) = image.getD k 0#8 := by
  rw [State.readByte_bios _ (region_biosBase_add hk)]
  exact read_imageMemory image k

/-- Settles O60: the Resets field by field, then the three cases of an image. -/
theorem hostResetsAndBiosImage : Obligations.HostResetsAndBiosImage := by
  intro s image
  refine ⟨⟨s.cpuReset, rfl, rfl, rfl, rfl, rfl, rfl, rfl, s.cpuReset_readC0, rfl, rfl, rfl, rfl, rfl, rfl, rfl, rfl, rfl⟩,
    rfl, fun hl hs => ?_, State.loadBios_stepped, State.loadBios_length⟩
  exact ⟨_, State.loadBios_next hl hs, rfl, fun k hk => s.readByte_suppliedImage image hk⟩

end Sys2Proof.Machine

/-! PROOFS. The statements of 10_state.md: the reset state, the invariant under a step, register 0, and EXL. -/

namespace Sys2Proof.Machine

/-! ## The invariant under a step -/

/-- The part of `State.Inv` that stages 1 to 3 must keep: register 0 and `IRQPending` are set anew by stages 4 and 5. -/
structure State.StorageInv (s : State) : Prop where
  ram    : Memory.wf Config.ramSize s.ram = true
  bios   : Memory.wf Config.biosSize s.bios = true
  vram   : vramWf s.gpu.vram
  parser : s.gpu.ParserOk

theorem State.Inv.storageInv {s : State} (h : s.Inv) : s.StorageInv := ⟨h.ram, h.bios, h.vram, h.parser⟩

theorem State.StorageInv.of_eq {s t : State} (h : s.StorageInv) (hram : t.ram = s.ram) (hbios : t.bios = s.bios)
    (hgpu : t.gpu = s.gpu) : t.StorageInv where
  ram := hram ▸ h.ram
  bios := hbios ▸ h.bios
  vram := hgpu ▸ h.vram
  parser := hgpu ▸ h.parser

/-- An aligned bus write stays inside RAM, and what reaches a port leaves the GPU in order. -/
theorem State.StorageInv.memWrite {s : State} (h : s.StorageInv) {a : Word} {n : Width} (ha : aligned n a = true)
    (v : Word) : (s.memWrite a n v).StorageInv where
  ram := s.memWrite_ram_wf v h.ram ha
  bios := (s.memWrite_bios a n v).symm ▸ h.bios
  vram := (s.memWrite_gpu_inv a n v h.vram h.parser).1
  parser := (s.memWrite_gpu_inv a n v h.vram h.parser).2

theorem State.StorageInv.noteRead {s : State} (h : s.StorageInv) (a : Word) (n : Width) : (s.noteRead a n).StorageInv :=
  h.of_eq (by simp) (by simp) (by simp)

theorem Effect.storageInv {i : Instr} {s u : State} (hu : Effect i s u) (h : s.StorageInv) : u.StorageInv := by
  cases hu with
  | none => exact h
  | reg | load => exact h.of_eq (by simp) (by simp) (by simp)
  | hiLo | divideByZero | cop0 => exact h.of_eq rfl rfl rfl
  | store a n v _ hal => exact h.memWrite hal v
  | storeMerged a v _ hal => exact (h.noteRead a .word).memWrite hal v

theorem State.StorageInv.enter {s : State} (h : s.StorageInv) (e : Exc) (epc bad : Word) :
    (s.enter e epc bad).StorageInv := h.of_eq (by simp) (by simp) (by simp)

theorem Ends.storageInv {i : Instr} {s m : State} (hm : Ends i s m) (h : s.StorageInv) : m.StorageInv := by
  cases hm with
  | advance u hu => exact (hu.storageInv h).of_eq rfl rfl rfl
  | branch u x hu => exact (hu.storageInv h).of_eq rfl rfl rfl
  | raise e bad => exact h.enter e s.pc bad
  | ret => exact h.of_eq rfl rfl rfl

/-- Stages 1 to 3 keep the storage in order, whether they execute an instruction or raise. -/
theorem execFetched_storageInv {s m : State} (hm : execFetched s = .next m) (h : s.StorageInv) : m.StorageInv := by
  have hf : s.fetched.StorageInv := h.noteRead s.pc .word
  rcases execFetched_next hm with ⟨i, -, he⟩ | ⟨-, -, rfl⟩ | ⟨-, rfl⟩
  · exact he.storageInv hf
  · exact hf.enter _ _ _
  · exact h.enter _ _ _

/-- Stage 5 turns every pending edge into its line, so none is left over (61_timers.md R186). -/
theorem State.finishStep_irqPending (s : State) (cia : Word) (i : Fin 3) :
    (s.finishStep cia).timers[i].irqPending = false := by
  rw [State.finishStep, State.pollInterrupts_timers, State.tickTimers_timer]

/-- Stage 4 (40_step_sequencer.md R60). -/
theorem State.finishStep_regs_zero (s : State) (cia : Word) : (s.finishStep cia).regs[0] = 0#32 := by
  simp only [State.finishStep_regs, Vector.getElem_set_self]

/-- Stages 4 to 6 complete the invariant, whatever register 0 and the timers held before. -/
theorem State.StorageInv.inv_finishStep {s : State} (h : s.StorageInv) (cia : Word) : (s.finishStep cia).Inv where
  zero := s.finishStep_regs_zero cia
  ram := (s.finishStep_ram cia).symm ▸ h.ram
  bios := (s.finishStep_bios cia).symm ▸ h.bios
  vram := (s.finishStep_gpu cia).symm ▸ h.vram
  pending := s.finishStep_irqPending cia
  parser := (s.finishStep_gpu cia).symm ▸ h.parser

/-- Settles O12: stages 1 to 3 keep the memories and the parser in order, and stages 4 to 6 set the rest anew. -/
theorem stepKeepsInvariant : Obligations.StepKeepsInvariant := by
  intro s t h ht
  obtain ⟨m, hm, rfl⟩ := step_next.mp ht
  exact (execFetched_storageInv hm h.storageInv).inv_finishStep s.pc

/-! ## Register 0 -/

theorem State.writeReg_zero (s : State) (v : Word) : s.writeReg 0 v = s := if_pos rfl

/-- Settles O14: stage 4 stores the zero, and the register file reads 0 and drops writes there in any state. -/
theorem registerZero : Obligations.RegisterZero := by
  refine ⟨fun s t ht => ?_, fun s v => ⟨s.readReg_zero, s.writeReg_zero v⟩, fun _ _ t _ => t.readReg_zero⟩
  obtain ⟨m, -, rfl⟩ := step_next.mp ht
  exact ⟨m.finishStep_regs_zero s.pc, State.readReg_zero _⟩

/-! ## EXL -/

/-- Exception entry sets EXL (60_exceptions.md R150). -/
theorem State.enter_exl (s : State) (e : Exc) (epc bad : Word) : (s.enter e epc bad).status.getLsbD 1 = true := by
  obtain ⟨-, -, hstatus, -⟩ := enters_enter s e epc bad
  rw [hstatus 1 (by decide)]; rfl

/-- Of all effects only that of an MTC0 to Status, from a register with bit 1 clear, clears EXL. -/
theorem Effect.exl_cleared {i : Instr} {s u : State} (hu : Effect i s u) (hs : s.status.getLsbD 1 = true)
    (h : u.status.getLsbD 1 = false) : ∃ rt, i = .mtc0 rt 12 ∧ (s.readReg rt).getLsbD 1 = false := by
  rcases hu.status with he | ⟨rt, hi, he⟩
  · rw [he, hs] at h; cases h
  · exact ⟨rt, hi, he ▸ h⟩

theorem Ends.exl_cleared {i : Instr} {s m : State} (hm : Ends i s m) (hs : s.status.getLsbD 1 = true)
    (h : m.status.getLsbD 1 = false) : i = .eret ∨ ∃ rt, i = .mtc0 rt 12 ∧ (s.readReg rt).getLsbD 1 = false := by
  cases hm with
  | advance u hu => exact .inr (hu.exl_cleared hs h)
  | branch u x hu => exact .inr (hu.exl_cleared hs h)
  | raise e bad => rw [State.enter_exl] at h; cases h
  | ret hi => exact .inl hi

/-- Stages 1 to 3 clear EXL only by executing ERET, or MTC0 to Status (10_state.md R22; 46_system.md R134, R135). -/
theorem execFetched_exl_cleared {s m : State} (hm : execFetched s = .next m) (hs : s.status.getLsbD 1 = true)
    (h : m.status.getLsbD 1 = false) :
    s.Executes .eret ∨ ∃ rt, s.Executes (.mtc0 rt 12) ∧ (s.readReg rt).getLsbD 1 = false := by
  rcases execFetched_next hm with ⟨i, hi, he⟩ | ⟨-, -, rfl⟩ | ⟨-, rfl⟩
  · rcases he.exl_cleared (by rwa [State.fetched_status]) h with rfl | ⟨rt, rfl, hrt⟩
    · exact .inl hi
    · exact .inr ⟨rt, hi, by rwa [State.fetched_readReg] at hrt⟩
  · rw [State.enter_exl] at h; cases h
  · rw [State.enter_exl] at h; cases h

/-- Only the poll of stage 6 enters Interrupt (60_exceptions.md R162). -/
theorem execFetched_result_ne_interrupt {s m : State} (hm : execFetched s = .next m) :
    m.result ≠ .exception .interrupt := by
  rcases execFetched_next hm with ⟨i, -, he⟩ | ⟨-, -, rfl⟩ | ⟨-, rfl⟩
  · rcases he.result with hok | ⟨e, bad, hne, rfl⟩
    · rw [hok]; nofun
    · rw [State.enter_result]
      exact fun hc => hne (StepResult.exception.inj hc)
  · rw [State.enter_result]; nofun
  · rw [State.enter_result]; nofun

/-- With EXL set the poll delivers nothing (60_exceptions.md R162, R166). -/
theorem State.finishStep_of_exl {s : State} (h : s.status.getLsbD 1 = true) (cia : Word) :
    s.finishStep cia = s.markStepped.forceZero.tickTimers := by
  refine if_neg fun hr => ?_
  obtain ⟨-, hexl, -⟩ := (State.interruptReady_iff _).mp hr
  rw [State.tickTimers_status, State.forceZero_status, State.markStepped_status, h] at hexl
  cases hexl

theorem State.finishStep_status_of_exl {s : State} (h : s.status.getLsbD 1 = true) (cia : Word) :
    (s.finishStep cia).status = s.status := by simp [State.finishStep_of_exl h]

theorem State.finishStep_result_of_exl {s : State} (h : s.status.getLsbD 1 = true) (cia : Word) :
    (s.finishStep cia).result = s.result := by simp [State.finishStep_of_exl h]

/-- Settles O17: while stages 1 to 3 leave EXL set, stages 4 to 6 leave Status and the result alone; and only ERET and
MTC0 to Status clear it in stages 1 to 3. -/
theorem exlClearedOnlyByEretOrMtc0 : Obligations.ExlClearedOnlyByEretOrMtc0 := by
  intro s t hs ht
  obtain ⟨m, hm, rfl⟩ := step_next.mp ht
  cases hexl : m.status.getLsbD 1 with
  | false =>
    have hcleared := execFetched_exl_cleared hm hs hexl
    refine ⟨fun _ => hcleared, fun heret hmtc0 => ?_⟩
    rcases hcleared with h | ⟨rt, h, -⟩
    · exact absurd h heret
    · exact absurd h (hmtc0 rt)
  | true =>
    rw [State.finishStep_status_of_exl hexl, State.finishStep_result_of_exl hexl, hexl]
    exact ⟨nofun, fun _ _ => execFetched_result_ne_interrupt hm⟩

/-! ## The reset state -/

/-- Settles O11, field by field. -/
theorem resetHasInvariant : Obligations.ResetHasInvariant where
  zero := rfl
  ram := rfl
  bios := rfl
  vram := rfl
  pending := by decide
  parser := Gpu.parserOk_idle rfl rfl

theorem State.reset_readReg (r : Reg) : State.reset.readReg r = if r = 29 then 0x801FFFF0#32 else 0#32 := by
  revert r; decide

theorem State.reset_readC0 (n : Slot) : State.reset.readC0 n = 0#32 := by simp [State.readC0, State.reset]

/-- RAM and the default BIOS image list no byte, and no other address reads anything but 0 as a byte. -/
theorem State.reset_readByte (a : Word) : State.reset.readByte a = 0#8 := by
  cases h : region a with
  | ram o => exact State.readByte_ram _ h
  | bios o => exact State.readByte_bios _ h
  | timer | gp0 | gp1 | unmapped => simp [State.readByte, State.memRead, State.busRead, h, Timer.readField]

theorem State.reset_timer (i : Fin 3) : State.reset.timers[i] = Timer.reset := by simp [State.reset]

/-- Settles O59: the arrays by their lemmas, every other field by the definition of the reset state. -/
theorem resetState : Obligations.ResetState := by
  refine ⟨rfl, rfl, rfl, rfl, rfl, State.reset_readReg, State.reset_readC0, fun a _ => State.reset_readByte a,
    fun i => ?_, fun x y => Store.read_nil _, ?_⟩
  · rw [State.reset_timer]; exact ⟨rfl, rfl, rfl, rfl⟩
  · exact ⟨rfl, rfl, rfl, rfl, rfl, rfl, rfl, rfl, rfl, rfl, rfl, rfl, rfl, rfl, rfl, rfl, rfl, rfl⟩

end Sys2Proof.Machine

/-! PROOFS. The statements of 20_memory.md: the address decoder, big-endian access, RAM through its aliases, misaligned
access, the bus outside RAM, and what may change storage. -/

namespace Sys2Proof.Machine

/-! ## The address decoder -/

/-- The command port, at its one address (20_memory.md R37). -/
theorem region_gp0_iff (a : Word) : region a = .gp0 ↔ a = 0x1F801810#32 := by
  constructor
  · intro h
    unfold region at h
    split_ifs at h
    assumption
  · rintro rfl; decide

/-- The control port, at its one address (20_memory.md R37). -/
theorem region_gp1_iff (a : Word) : region a = .gp1 ↔ a = 0x1F801814#32 := by
  constructor
  · intro h
    unfold region at h
    split_ifs at h
    assumption
  · rintro rfl; decide

/-- Unmapped is exactly what no other region takes (20_memory.md R30, R38). -/
theorem region_unmapped_iff (a : Word) : region a = .unmapped ↔
    0x200000 ≤ a.toNat % 2 ^ 29 ∧ ¬(0xBFC00000 ≤ a.toNat ∧ a.toNat < 0xBFC80000) ∧
      ¬(0x1F801100 ≤ a.toNat ∧ a.toNat < 0x1F801190) ∧ a ≠ 0x1F801810#32 ∧ a ≠ 0x1F801814#32 := by
  constructor
  · intro h
    have other : ∀ r, r ≠ .unmapped → region a ≠ r := fun r hr e => hr (e.symm.trans h)
    refine ⟨?_, ?_, ?_, ?_, ?_⟩
    · by_contra hlt
      exact other (.ram (a.toNat % 2 ^ 29)) nofun ((region_ram_iff a _).mpr (by omega))
    · rintro ⟨hlo, hhi⟩
      exact other (.bios (a.toNat - 0xBFC00000)) nofun ((region_bios_iff a _).mpr (by omega))
    · rintro ⟨hlo, hhi⟩
      exact other (.timer ⟨(a.toNat - 0x1F801100) / 0x30, by omega⟩ ((a.toNat - 0x1F801100) % 0x30)) nofun
        ((region_timer_iff a _ _).mpr (by dsimp only; omega))
    · exact fun e => other .gp0 nofun ((region_gp0_iff a).mpr e)
    · exact fun e => other .gp1 nofun ((region_gp1_iff a).mpr e)
  · rintro ⟨hram, hbios, htimer, hgp0, hgp1⟩
    cases h : region a with
    | ram o => have := (region_ram_iff a o).mp h; omega
    | bios o => have := (region_bios_iff a o).mp h; omega
    | timer i f => have := (region_timer_iff a i f).mp h; omega
    | gp0 => exact absurd ((region_gp0_iff a).mp h) hgp0
    | gp1 => exact absurd ((region_gp1_iff a).mp h) hgp1
    | unmapped => rfl

/-- Settles O30, region by region. -/
theorem addressMap : Obligations.AddressMap := fun a =>
  ⟨region_ram_iff a, region_bios_iff a, region_timer_iff a, region_gp0_iff a, region_gp1_iff a, region_unmapped_iff a⟩

/-! ## Big-endian access -/

section
variable (s : State) {a : Word} {o : Nat} (n : Width) (v : Word)
variable (hr : region a = .ram o) (hw : Memory.wf Config.ramSize s.ram = true) (ha : aligned n a = true)
include hr hw ha

/-- Byte `k` of what a bus write stored, through every address that resolves to it (20_memory.md R33, R40). -/
theorem State.readByte_memWrite_at {b : Word} {k : Nat} (hk : k < n.bytes) (hb : region b = .ram (o + k)) :
    (s.memWrite a n v).readByte b = byteLane v (4 - n.bytes + k) := by
  rw [s.readByte_memWrite hr n v hw ha, if_pos ⟨k, hk, hb⟩, hb]
  dsimp only
  rw [Nat.add_sub_cancel_left, storedBytes_getD n v k hk]

/-- A bus write to RAM leaves every byte but those it stored. -/
theorem State.readByte_memWrite_ne {b : Word} (hb : ∀ k, k < n.bytes → region b ≠ .ram (o + k)) :
    (s.memWrite a n v).readByte b = s.readByte b := by
  rw [s.readByte_memWrite hr n v hw ha, if_neg]
  rintro ⟨k, hk, e⟩
  exact hb k hk e

end

/-- What an aligned word write leaves in every byte (20_memory.md R40). -/
theorem State.readByte_memWrite_word (s : State) {a : Word} {o : Nat} (v : Word) (hr : region a = .ram o)
    (hw : Memory.wf Config.ramSize s.ram = true) (ha : a.toNat % 4 = 0) (b : Word) :
    (s.memWrite a .word v).readByte b =
      if region b = .ram o then v.extractLsb' 24 8 else if region b = .ram (o + 1) then v.extractLsb' 16 8
      else if region b = .ram (o + 2) then v.extractLsb' 8 8 else if region b = .ram (o + 3) then v.extractLsb' 0 8
      else s.readByte b := by
  have ha := (aligned_iff .word a).mpr ha
  have lane := fun k => s.readByte_memWrite_at (b := b) (k := k) .word v hr hw ha
  split_ifs with h0 h1 h2 h3
  · exact lane 0 (by decide) h0
  · exact lane 1 (by decide) h1
  · exact lane 2 (by decide) h2
  · exact lane 3 (by decide) h3
  · refine s.readByte_memWrite_ne .word v hr hw ha fun k hk => ?_
    have hk : k = 0 ∨ k = 1 ∨ k = 2 ∨ k = 3 := by simp only [Width.bytes] at hk; omega
    rcases hk with rfl | rfl | rfl | rfl <;> assumption

/-- What an aligned halfword write leaves in every byte (20_memory.md R40). -/
theorem State.readByte_memWrite_half (s : State) {a : Word} {o : Nat} (v : Word) (hr : region a = .ram o)
    (hw : Memory.wf Config.ramSize s.ram = true) (ha : a.toNat % 2 = 0) (b : Word) :
    (s.memWrite a .half v).readByte b =
      if region b = .ram o then v.extractLsb' 8 8 else if region b = .ram (o + 1) then v.extractLsb' 0 8
      else s.readByte b := by
  have ha := (aligned_iff .half a).mpr ha
  have lane := fun k => s.readByte_memWrite_at (b := b) (k := k) .half v hr hw ha
  split_ifs with h0 h1
  · exact lane 0 (by decide) h0
  · exact lane 1 (by decide) h1
  · refine s.readByte_memWrite_ne .half v hr hw ha fun k hk => ?_
    have hk : k = 0 ∨ k = 1 := by simp only [Width.bytes] at hk; omega
    rcases hk with rfl | rfl <;> assumption

/-- What a byte write leaves in every byte (20_memory.md R40). -/
theorem State.readByte_memWrite_byte (s : State) {a : Word} {o : Nat} (v : Word) (hr : region a = .ram o)
    (hw : Memory.wf Config.ramSize s.ram = true) (b : Word) :
    (s.memWrite a .byte v).readByte b = if region b = .ram o then v.extractLsb' 0 8 else s.readByte b := by
  have ha := (aligned_iff .byte a).mpr (Nat.mod_one _)
  split_ifs with h0
  · exact s.readByte_memWrite_at .byte v hr hw ha (k := 0) (by decide) h0
  · refine s.readByte_memWrite_ne .byte v hr hw ha fun k hk => ?_
    rwa [Nat.lt_one_iff.mp hk]

/-- Settles O31: the reads, then the writes width by width. -/
theorem bigEndian : Obligations.BigEndian := fun s a v =>
  ⟨rfl, s.memRead_word, s.memRead_half, s.memRead_byte a, fun _ hr hw =>
    ⟨s.readByte_memWrite_word v hr hw, s.readByte_memWrite_half v hr hw, s.readByte_memWrite_byte v hr hw⟩⟩

/-! ## RAM through its aliases -/

/-- A word written to RAM reads back through every address of its offset (20_memory.md R33). -/
theorem State.memRead_memWrite_word (s : State) {a b : Word} {o : Nat} (v : Word) (ha : region a = .ram o)
    (hb : region b = .ram o) (hw : Memory.wf Config.ramSize s.ram = true) (ho : o % 4 = 0) :
    (s.memWrite a .word v).memRead b .word = v := by
  have ha4 : a.toNat % 4 = 0 := (region_ram_mod ha).1 ▸ ho
  have hb4 : b.toNat % 4 = 0 := (region_ram_mod hb).1 ▸ ho
  have lane : ∀ k, k < 4 → (s.memWrite a .word v).readByte (b + BitVec.ofNat 32 k) = byteLane v k := fun k hk => by
    rw [s.readByte_memWrite_at .word v ha hw ((aligned_iff _ _).mpr ha4) hk (region_ram_add hb (by omega))]
    simp [Width.bytes]
  have lane0 := lane 0 (by decide)
  rw [BitVec.add_zero] at lane0
  rw [State.memRead_word _ (.inl ⟨o, hb⟩) hb4, lane0, lane 1 (by decide), lane 2 (by decide), lane 3 (by decide)]
  exact wordOfBytes_bytesOfWord v

theorem storeAligned_of_aligned {s : State} {n : Width} {a : Word} (v : Word) (ha : aligned n a = true) :
    storeAligned s n v a = .next (s.memWrite a n v).advance := if_pos ha

/-- An aligned load is a load. -/
theorem loadsTo_of_loadAligned {i : Instr} {s : State} {n : Width} {extend : Word → Word} {rt : Reg} {a : Word}
    (h : exec i s = loadAligned s n extend rt a) (ha : aligned n a = true) :
    LoadsTo i s rt (extend (s.memRead a n)) a n := loadsTo_of_loadValue (h.trans (if_pos ha))

/-- Settles O41: the store completes because its address is aligned, and the word it leaves is what the other address
reads. -/
theorem storeThenLoadThroughAlias : Obligations.StoreThenLoadThroughAlias := by
  intro s t rt base rt' base' offset offset' o hw hr ho ht hb
  have hs : aligned .word (s.ea base offset) = true := (aligned_iff _ _).mpr ((region_ram_mod hr).1 ▸ ho)
  have hb : region (t.ea base' offset') = .ram o := (region_ram_iff _ _).mpr ⟨hb, (region_ram_mod hr).2⟩
  have hl : aligned .word (t.ea base' offset') = true := (aligned_iff _ _).mpr ((region_ram_mod hb).1 ▸ ho)
  have hv : t.memRead (t.ea base' offset') .word = s.readReg rt := by
    have ht := (storeAligned_of_aligned (s.readReg rt) hs).symm.trans ht
    cases ht
    rw [State.advance_memRead, s.memRead_memWrite_word _ hr hb hw ho]
  exact hv ▸ loadsTo_of_loadAligned (n := .word) (extend := lowBits .word) rfl hl

/-! ## Misaligned access -/

/-- A load that fails the alignment check raises (20_memory.md R41). -/
theorem raisesAddress_of_loadAligned {i : Instr} {s : State} {n : Width} {extend : Word → Word} {rt : Reg} {a : Word}
    (h : exec i s = loadAligned s n extend rt a) (ha : a.toNat % n.bytes ≠ 0) :
    RaisesAddress i s .addressErrorLoad 4 a :=
  raisesAddress_of (h.trans (if_neg (mt (aligned_iff n a).mp ha))) rfl

/-- A store that fails the alignment check raises (20_memory.md R41). -/
theorem raisesAddress_of_storeAligned {i : Instr} {s : State} {n : Width} {v a : Word}
    (h : exec i s = storeAligned s n v a) (ha : a.toNat % n.bytes ≠ 0) :
    RaisesAddress i s .addressErrorStore 5 a :=
  raisesAddress_of (h.trans (if_neg (mt (aligned_iff n a).mp ha))) rfl

/-- A step from a misaligned program counter fetches nothing and raises (40_step_sequencer.md R61). -/
theorem step_of_misaligned_pc {s : State} (h : s.pc.toNat % 4 ≠ 0) :
    step s = .next ((s.enter .addressErrorLoad s.pc s.pc).finishStep s.pc) :=
  step_next.mpr ⟨_, if_neg (mt (aligned_iff .word s.pc).mp h), rfl⟩

/-- Settles O33, instruction by instruction, then the fetch. -/
theorem misalignedAccessRaises : Obligations.MisalignedAccessRaises := by
  intro s rt base offset a
  refine ⟨fun h => ⟨?_, ?_, ?_⟩, fun h => ⟨?_, ?_⟩, fun h => ?_⟩
  · exact raisesAddress_of_loadAligned (n := .half) rfl h
  · exact raisesAddress_of_loadAligned (n := .half) rfl h
  · exact raisesAddress_of_storeAligned (n := .half) rfl h
  · exact raisesAddress_of_loadAligned (n := .word) rfl h
  · exact raisesAddress_of_storeAligned (n := .word) rfl h
  · exact ⟨_, step_of_misaligned_pc h, badVAddr_enter s _ _ _ rfl, enters_enter s .addressErrorLoad s.pc s.pc⟩

/-! ## The bus outside RAM -/

/-- Ports and unmapped addresses answer no read (20_memory.md R31, R37). -/
theorem State.busRead_eq_none (s : State) {a : Word} (h : region a = .gp0 ∨ region a = .gp1 ∨ region a = .unmapped)
    (n : Width) : s.busRead a n = none := by
  rcases h with h | h | h <;> simp [State.busRead, h]

theorem State.memRead_of_busRead_none {s : State} {a : Word} {n : Width} (h : s.busRead a n = none) :
    s.memRead a n = 0#32 := by rw [State.memRead, h]; rfl

theorem State.noteRead_of_busRead_none {s : State} {a : Word} {n : Width} (h : s.busRead a n = none) :
    s.noteRead a n = s.emit (.unmappedRead a n.bytes) := by unfold State.noteRead; rw [h]

theorem State.memWrite_gp0_word (s : State) {a : Word} (h : region a = .gp0) (v : Word) :
    s.memWrite a .word v = s.gpuWriteCommand v := by simp [State.memWrite, h]

theorem State.memWrite_gp1_word (s : State) {a : Word} (h : region a = .gp1) (v : Word) :
    s.memWrite a .word v = s.gpuWriteControl v := by simp [State.memWrite, h]

/-- A write that nothing takes leaves one event (20_memory.md R37 to R39). -/
theorem State.memWrite_dropped (s : State) {a : Word} {n : Width}
    (h : region a = .unmapped ∨ (region a = .gp0 ∨ region a = .gp1) ∧ n ≠ .word) (v : Word) :
    s.memWrite a n v = s.emit (.unmappedWrite a n.bytes (lowBits n v)) := by
  rcases h with h | ⟨h | h, hn⟩
  · simp [State.memWrite, h]
  · simp [State.memWrite, h, hn]
  · simp [State.memWrite, h, hn]

/-- The BIOS takes no write (20_memory.md R34). -/
theorem State.memWrite_bios_region (s : State) {a : Word} {o : Nat} (h : region a = .bios o) (n : Width) (v : Word) :
    s.memWrite a n v = s.emit (.biosWriteRejected a n.bytes (lowBits n v)) := by simp [State.memWrite, h]

/-- Settles O40: what each region answers to a read and to a write. -/
theorem busOutsideRam : Obligations.BusOutsideRam := by
  intro s a v n
  refine ⟨fun h => ?_, fun h => s.memWrite_gp0_word h v, fun h => s.memWrite_gp1_word h v, fun h => ?_, fun o h => ?_⟩
  · have hnone := s.busRead_eq_none h n
    exact ⟨State.memRead_of_busRead_none hnone, State.noteRead_of_busRead_none hnone⟩
  · exact ⟨lowBits n v, lowBits_getLsbD n v, s.memWrite_dropped h v⟩
  · exact ⟨s.noteRead_of_bios h n, lowBits n v, lowBits_getLsbD n v, s.memWrite_bios_region h n v⟩

/-! ## What changes storage -/

/-- However an instruction ends, RAM and the GPU are as its effect left them. -/
theorem Ends.effect {i : Instr} {s m : State} (h : Ends i s m) : ∃ u, Effect i s u ∧ m.ram = u.ram ∧ m.gpu = u.gpu := by
  cases h with
  | advance u hu => exact ⟨u, hu, rfl, rfl⟩
  | branch u x hu => exact ⟨u, hu, rfl, rfl⟩
  | raise e bad => exact ⟨s, .none, s.enter_ram e s.pc bad, s.enter_gpu e s.pc bad⟩
  | ret => exact ⟨s, .none, rfl, rfl⟩

/-- Stages 1 to 3 leave RAM and the GPU as the effect of the executed instruction did, or as they were. -/
theorem execFetched_effect {s m : State} (h : execFetched s = .next m) :
    (∃ i u, s.Executes i ∧ Effect i s.fetched u ∧ m.ram = u.ram ∧ m.gpu = u.gpu) ∨ (m.ram = s.ram ∧ m.gpu = s.gpu) := by
  rcases execFetched_next h with ⟨i, hi, he⟩ | ⟨-, -, rfl⟩ | ⟨-, rfl⟩
  · obtain ⟨u, hu, hm⟩ := he.effect
    exact .inl ⟨i, u, hi, hu, hm⟩
  · exact .inr ⟨by simp, by simp⟩
  · exact .inr ⟨by simp, by simp⟩

/-- Settles O16: stages 4 to 6 touch neither RAM nor the GPU, and of all effects only a store changes them. -/
theorem storageChangesOnlyByStores : Obligations.StorageChangesOnlyByStores := by
  intro s t ht
  obtain ⟨m, hm, rfl⟩ := step_next.mp ht
  rw [State.finishStep_ram, State.finishStep_gpu]
  rcases execFetched_effect hm with ⟨i, u, hi, hu, hram, hgpu⟩ | ⟨hram, hgpu⟩
  · have hstores := hu.stores
    rw [storeAddress_fetched, State.fetched_ram, State.fetched_gpu] at hstores
    rw [hram, hgpu]
    exact ⟨fun h => let ⟨a, o, ha⟩ := hstores.1 h; ⟨i, a, o, hi, ha⟩,
      fun h => let ⟨a, ha, hport⟩ := hstores.2 h; ⟨i, a, hi, ha, hport⟩⟩
  · exact ⟨fun h => absurd hram h, fun h => absurd hgpu h⟩

end Sys2Proof.Machine

/-! PROOFS. The statements of 30_encoding.md: which words decode to an instruction, and that its own word does. -/

namespace Sys2Proof

/-! ## The used bits are whole fields -/

/-- The bits of an instruction's word that the decoder looks at, field by field (30_encoding.md R51, R56). -/
def fieldMask : Instr → Word
  | .sll _ _ _ | .srl _ _ _ | .sra _ _ _ => rMask false true true true true
  | .sllv _ _ _ | .srlv _ _ _ | .srav _ _ _ => rMask true true true false true
  | .syscall | .brk => rMask false false false false true
  | .mult _ _ | .div _ _ | .multu _ _ | .divu _ _ => rMask true true false false true
  | .add _ _ _ | .addu _ _ _ | .sub _ _ _ | .subu _ _ _ | .and _ _ _ | .or _ _ _ | .xor _ _ _ | .nor _ _ _
  | .slt _ _ _ | .sltu _ _ _ => rMask true true true false true
  | .j _ | .jal _ => 0xFFFFFFFF#32
  | .beq _ _ _ | .bne _ _ _ | .addi _ _ _ | .slti _ _ _ | .addiu _ _ _ | .sltiu _ _ _
  | .andi _ _ _ | .ori _ _ _ | .xori _ _ _ => iMask true true
  | .lb _ _ _ | .lh _ _ _ | .lwl _ _ _ | .lw _ _ _ | .lbu _ _ _ | .lhu _ _ _ | .lwr _ _ _
  | .sb _ _ _ | .sh _ _ _ | .swl _ _ _ | .sw _ _ _ | .swr _ _ _ => iMask true true
  | .mfc0 _ _ | .mtc0 _ _ => rMask true true true false false
  | .eret => rMask true false false false true
  | .lui _ _ => iMask false true
  | .mfhi _ | .mflo _ => rMask false false true false true
  | .mthi _ | .mtlo _ | .jr _ => rMask true false false false true
  | .jalr _ _ => rMask true false true false true
  | .blez _ _ | .bgtz _ _ => iMask true false
  | .bltz _ _ | .bgez _ _ | .bltzal _ _ | .bgezal _ _ => iMask true true

/-- The hexadecimal masks of the model cut no field in two. -/
theorem usedBits_eq_fieldMask (i : Instr) : usedBits i = fieldMask i := by
  cases i <;> simp only [usedBits, fieldMask] <;> decide

section
variable {op funct : BitVec 6} {rs rt rd sa : Fin 32} {imm : BitVec 16} {target : BitVec 26} {w : Word}

/-- The fields a mask keeps are those of the R-format word; those it drops are zero there. The fields the decoder
dispatches on are compared as numbers, as the decoder compares them. -/
@[simp] theorem and_rMask_eq_rType_iff (a b c d e : Bool) : w &&& rMask a b c d e = rType op rs rt rd sa funct ↔
    (fieldOp w).toNat = op.toNat ∧ (if a then fieldRs w else 0) = rs ∧ (if b then fieldRt w else 0) = rt ∧
      (if c then fieldRd w else 0) = rd ∧ (if d then fieldSa w else 0) = sa ∧
      (if e then fieldFunct w else 0#6).toNat = funct.toNat := by
  rw [and_rMask, BitVec.toNat_inj, BitVec.toNat_inj]
  constructor
  · exact rType_inj
  · rintro ⟨rfl, rfl, rfl, rfl, rfl, rfl⟩
    rfl

@[simp] theorem and_iMask_eq_iType_iff (a b : Bool) : w &&& iMask a b = iType op rs rt imm ↔
    (fieldOp w).toNat = op.toNat ∧ (if a then fieldRs w else 0) = rs ∧ (if b then fieldRt w else 0) = rt ∧
      fieldImm w = imm := by
  rw [and_iMask, BitVec.toNat_inj]
  constructor
  · exact iType_inj
  · rintro ⟨rfl, rfl, rfl, rfl⟩
    rfl

@[simp] theorem and_usedBits_all_eq_jType_iff : w &&& 0xFFFFFFFF#32 = jType op target ↔
    (fieldOp w).toNat = op.toNat ∧ fieldTarget w = target := by
  rw [and_usedBits_all, BitVec.toNat_inj]
  constructor
  · rintro rfl
    exact ⟨fieldOp_jType .., fieldTarget_jType ..⟩
  · rintro ⟨rfl, rfl⟩
    exact (jType_fields w).symm

end

section
variable {ext : Bool} {w : Word} {i : Instr}

/-! ## A decoded instruction is recognised, and the word's used bits are its encoding -/

/-- What the decoder may answer for a word: an instruction only if it is recognised and the used bits are its encoding. -/
def Decoded.Reads (ext : Bool) (w : Word) : Decoded → Prop
  | .instr i => w &&& usedBits i = encode i ∧ i.wf ext = true
  | .reserved | .gte => True

@[simp] theorem Decoded.reads_instr :
    (Decoded.instr i).Reads ext w ↔ w &&& fieldMask i = encode i ∧ i.wf ext = true := by
  rw [Decoded.Reads, usedBits_eq_fieldMask]

@[simp] theorem Decoded.reads_reserved : Decoded.reserved.Reads ext w := trivial

@[simp] theorem Decoded.reads_gte : Decoded.gte.Reads ext w := trivial

/-- A machine with the extension recognises every instruction, so a gated entry need only have the right word. -/
@[simp] theorem Decoded.reads_gated : (gated ext i).Reads ext w ↔ (ext = true → w &&& fieldMask i = encode i) := by
  cases ext <;> simp [gated, Instr.wf]

theorem decodeSpecial_reads (hop : (fieldOp w).toNat = 0x00) : (decodeSpecial ext w).Reads ext w := by
  unfold decodeSpecial
  split <;> simp [fieldMask, encode, Instr.wf, Instr.isExt, *]

theorem decodeRegimm_reads (hop : (fieldOp w).toNat = 0x01) : (decodeRegimm ext w).Reads ext w := by
  unfold decodeRegimm
  split <;> simp [fieldMask, encode, Fin.ext_iff, *]

theorem decodeCop0_reads (hop : (fieldOp w).toNat = 0x10) : (decodeCop0 w).Reads ext w := by
  unfold decodeCop0
  split
  case h_3 hrs => split <;> simp [fieldMask, encode, Instr.wf, Instr.isExt, Fin.ext_iff, *]
  all_goals simp [fieldMask, encode, Instr.wf, Instr.isExt, Fin.ext_iff, *]

theorem decode_reads (ext : Bool) (w : Word) : (decode ext w).Reads ext w := by
  unfold decode
  split
  case h_1 hop => exact decodeSpecial_reads hop
  case h_2 hop => exact decodeRegimm_reads hop
  case h_17 hop => exact decodeCop0_reads hop
  all_goals simp [fieldMask, encode, Instr.wf, Instr.isExt, *]

/-! ## A word whose used bits are the encoding decodes to the instruction -/

@[simp] theorem gated_eq_instr_iff {j : Instr} : gated ext i = .instr j ↔ ext = true ∧ i = j := by
  cases ext <;> simp [gated]

/-- Each instruction's fields lead the decoder to its own entry, which the gate lets pass. -/
theorem decode_of_and_usedBits (hw : w &&& usedBits i = encode i) (hi : i.wf ext = true) :
    decode ext w = .instr i := by
  rw [usedBits_eq_fieldMask] at hw
  cases i
  all_goals
    simp [fieldMask, encode] at hw
    simp [Instr.wf, Instr.isExt] at hi
    simp [decode, decodeSpecial, decodeRegimm, decodeCop0, BitVec.toNat_eq, hw, hi]

end

/-! ## The two statements -/

/-- Settles O2: the decoder answers an instruction only where the used bits are its encoding, branch by branch of its
tables, and answers it wherever they are, instruction by instruction. -/
theorem decodeReadsUsedBitsOnly : Obligations.DecodeReadsUsedBitsOnly := by
  intro ext w i
  constructor
  · intro h
    have hreads := decode_reads ext w
    rwa [h] at hreads
  · rintro ⟨hw, hi⟩
    exact decode_of_and_usedBits hw hi

theorem decodeBytes_bytesOfWord (ext : Bool) (w : Word) (rest : List Byte) :
    decodeBytes ext (bytesOfWord w ++ rest) = some (decode ext w, rest) := by
  simp [decodeBytes, bytesOfWord, wordOfBytes_bytesOfWord]

/-- Settles O1: an encoding has no bit outside the used ones, so it decodes to its instruction. -/
theorem encodeThenDecode : Obligations.EncodeThenDecode := by
  intro ext i rest hi
  obtain ⟨-, -, hused⟩ := Laws.encodesRow i
  rw [decodeBytes_bytesOfWord, decode_of_and_usedBits hused hi]

end Sys2Proof

/-! PROOFS. The statements of 40_step_sequencer.md: what a step executes, and the PC update of stage 3. -/

namespace Sys2Proof.Machine

/-! ## The PC update -/

/-- Settles O8, ending by ending: no effect touches the sequencer, so the PC update starts from the latches as they
stood when the step began. -/
theorem pcUpdate : Obligations.PcUpdate := by
  intro i s t h
  cases exec_ends h with
  | advance u hu hi =>
    obtain ⟨-, hnext, -⟩ := hu.seq
    exact ⟨fun hr => absurd rfl hr, fun _ he => absurd he hi, fun _ _ => hu.followingPc, fun _ => hnext, nofun⟩
  | branch u x hu hi =>
    have hne : i ≠ .eret := by rintro rfl; exact hi
    exact ⟨fun hr => absurd rfl hr, fun _ he => absurd he hne, fun _ _ => hu.followingPc, nofun, fun _ => hi⟩
  | raise e bad =>
    have hnext := s.enter_nextPC e s.pc bad
    exact ⟨fun _ => ⟨rfl, rfl, hnext⟩, nofun, nofun, fun _ => hnext, nofun⟩
  | ret hi =>
    exact ⟨fun hr => absurd rfl hr, fun _ _ => ⟨rfl, rfl, rfl⟩, fun _ hne => absurd hi hne, fun _ => rfl, nofun⟩

/-! ## Fetch, decode, execute -/

/-- A fetch from RAM or from the BIOS has no effect (20_memory.md R31). -/
theorem State.fetched_of_isStorage {s : State} (h : isStorage s.pc) : s.fetched = s := by
  obtain ⟨o, ho⟩ | ⟨o, ho⟩ := h
  · exact s.noteRead_of_ram ho .word
  · exact s.noteRead_of_bios ho .word

/-- Stages 1 to 3 execute the decoded instruction on the state after the fetch (40_step_sequencer.md R61, R62). -/
theorem execFetched_of_executes {s : State} {i : Instr} (h : s.Executes i) : execFetched s = exec i s.fetched := by
  obtain ⟨hpc, hdecode⟩ := h
  rw [execFetched, if_pos ((aligned_iff .word s.pc).mpr hpc), hdecode]

/-- Settles O5: `exec` is total, a step is `execFetched` and then stages 4 to 6, and the fetch is one aligned bus read. -/
theorem stepRunsDecodedInstruction : Obligations.StepRunsDecodedInstruction := by
  intro s i hi
  obtain ⟨t, ht⟩ := exec_total i s.fetched
  have hstep : step s = .next (t.finishStep s.pc) := step_next.mpr ⟨t, (execFetched_of_executes hi).trans ht, rfl⟩
  obtain ⟨hpc, -⟩ := hi
  exact ⟨⟨t, ht, hstep⟩, s.noteRead_eq s.pc .word, fun h => ⟨State.fetched_of_isStorage h, s.memRead_word h hpc⟩⟩

end Sys2Proof.Machine

/-! PROOFS. The statements of 41_alu.md: the overflow rule, and what each arithmetic, logic and compare instruction
writes. -/

namespace Sys2Proof.Machine

/-! ## The overflow rule -/

theorem overflowAdd_iff_signs (a b r : Word) :
    overflowAdd a b r = true ↔ a.getLsbD 31 = b.getLsbD 31 ∧ r.getLsbD 31 ≠ a.getLsbD 31 := by simp [overflowAdd]

theorem overflowSub_iff_signs (a b r : Word) :
    overflowSub a b r = true ↔ a.getLsbD 31 ≠ b.getLsbD 31 ∧ r.getLsbD 31 ≠ a.getLsbD 31 := by simp [overflowSub]

/-- An overflow raises and leaves the destination (41_alu.md R71). -/
theorem raises_of_writeUnlessOverflow {i : Instr} {s : State} {rd : Reg} {v : Word} {overflow : Bool}
    (h : exec i s = writeUnlessOverflow s rd v overflow) (ho : overflow = true) : Raises i s .integerOverflow 12 :=
  raises_of (h.trans (if_pos ho)) rfl

/-- Without an overflow the result is written (41_alu.md R70). -/
theorem writesTo_of_writeUnlessOverflow {i : Instr} {s : State} {rd : Reg} {v : Word} {overflow : Bool}
    (h : exec i s = writeUnlessOverflow s rd v overflow) (ho : ¬overflow = true) : WritesTo i s rd v :=
  writesTo_of_writeResult (h.trans (if_neg ho))

/-- Settles O19: the model's overflow tests are the rule of the signs, and they hold exactly out of range. -/
theorem overflowRule : Obligations.OverflowRule := by
  intro s rd rs rt imm a b c
  refine ⟨fun hab hr => ?_, fun hac hr => ?_, fun hab hr => ?_, ?_, ?_, ?_⟩
  · exact raises_of_writeUnlessOverflow (rd := rd) rfl ((overflowAdd_iff_signs a b _).mpr ⟨hab, hr⟩)
  · exact raises_of_writeUnlessOverflow (rd := rd) rfl ((overflowAdd_iff_signs a c _).mpr ⟨hac, hr⟩)
  · exact raises_of_writeUnlessOverflow (rd := rd) rfl ((overflowSub_iff_signs a b _).mpr ⟨hab, hr⟩)
  · exact (overflowAdd_iff a b).symm.trans (overflowAdd_iff_signs a b _)
  · exact (overflowAdd_iff a c).symm.trans (overflowAdd_iff_signs a c _)
  · exact (overflowSub_iff a b).symm.trans (overflowSub_iff_signs a b _)

/-! ## Results that fit -/

/-- A sum in range is exact and passes the overflow test (41_alu.md R70, R71). -/
theorem writesTo_of_add_inRange {i : Instr} {s : State} {rd : Reg} {a b : Word}
    (h : exec i s = writeUnlessOverflow s rd (a + b) (overflowAdd a b (a + b))) (hr : ¬OutOfRange (a.toInt + b.toInt)) :
    ∃ v, v.toInt = a.toInt + b.toInt ∧ WritesTo i s rd v :=
  ⟨a + b, add_toInt_of hr, writesTo_of_writeUnlessOverflow h (mt (overflowAdd_iff a b).mp hr)⟩

/-- A difference in range is exact and passes the overflow test (41_alu.md R70, R71). -/
theorem writesTo_of_sub_inRange {i : Instr} {s : State} {rd : Reg} {a b : Word}
    (h : exec i s = writeUnlessOverflow s rd (a - b) (overflowSub a b (a - b))) (hr : ¬OutOfRange (a.toInt - b.toInt)) :
    ∃ v, v.toInt = a.toInt - b.toInt ∧ WritesTo i s rd v :=
  ⟨a - b, sub_toInt_of hr, writesTo_of_writeUnlessOverflow h (mt (overflowSub_iff a b).mp hr)⟩

/-- Settles O20: ADDI is ADD of the immediate's sign extension, whose value is the immediate's. -/
theorem addSubResults : Obligations.AddSubResults := by
  intro s rd rs rt imm
  rw [← sext16_toInt imm]
  exact ⟨writesTo_of_add_inRange rfl, writesTo_of_add_inRange rfl, writesTo_of_sub_inRange rfl⟩

/-! ## Results modulo 2^32 -/

/-- A sign-extended immediate read as an unsigned number (00_scope.md R12). -/
theorem sext16_toNat (imm : BitVec 16) :
    ((sext16 imm).toNat : Int) = if imm.toInt < 0 then imm.toInt + 2 ^ 32 else imm.toInt := by
  have hlt := (sext16 imm).isLt
  rw [← sext16_toInt imm, BitVec.toInt_eq_toNat_cond]
  split <;> split <;> omega

/-- Settles O21: the words add and subtract modulo 2^32, and an immediate differs from its sign extension by a
multiple of 2^32. -/
theorem modularArithmetic : Obligations.ModularArithmetic := by
  intro s rd rs rt imm
  refine ⟨⟨_, BitVec.toNat_add _ _, writesTo_of_writeResult rfl⟩, ⟨_, ?_, writesTo_of_writeResult rfl⟩,
    ⟨_, ?_, writesTo_of_writeResult rfl⟩⟩
  · have hlt := (s.readReg rt).isLt
    rw [BitVec.toNat_sub]
    omega
  · have himm := sext16_toNat imm
    rw [BitVec.toNat_add]
    split at himm <;> omega

/-! ## Logic -/

/-- A zero-extended immediate has no bit above bit 15 (00_scope.md R12). -/
theorem zext16_getLsbD (imm : BitVec 16) (j : Nat) : (zext16 imm).getLsbD j = (decide (j < 16) && imm.getLsbD j) := by
  rw [zext16, BitVec.getLsbD_setWidth]
  by_cases hj : j < 16
  · simp [hj, show j < 32 by omega]
  · simp [hj, imm.getLsbD_of_ge j (by omega)]

/-- Settles O22, instruction by instruction: each result bit is the operation on the operands' bits. -/
theorem bitwiseLogic : Obligations.BitwiseLogic := by
  intro s rd rs rt imm a b
  refine ⟨⟨_, fun j _ => ?_, writesTo_of_writeResult rfl⟩, ⟨_, fun j _ => ?_, writesTo_of_writeResult rfl⟩,
    ⟨_, fun j _ => ?_, writesTo_of_writeResult rfl⟩, ⟨_, fun j hj => ?_, writesTo_of_writeResult rfl⟩,
    ⟨_, fun j _ => ?_, writesTo_of_writeResult rfl⟩, ⟨_, fun j _ => ?_, writesTo_of_writeResult rfl⟩,
    ⟨_, fun j _ => ?_, writesTo_of_writeResult rfl⟩, ⟨_, fun j hj => ?_, writesTo_of_writeResult rfl⟩⟩
  · exact BitVec.getLsbD_and
  · exact BitVec.getLsbD_or
  · exact BitVec.getLsbD_xor
  · simp [a, b, hj]
  · rw [BitVec.getLsbD_and, zext16_getLsbD, Bool.and_assoc]
  · rw [BitVec.getLsbD_or, zext16_getLsbD]
  · rw [BitVec.getLsbD_xor, zext16_getLsbD]
  · have hlow : j - 16 < 16 := by omega
    have hshift : (!decide (j < 16)) = decide (16 ≤ j) := by rw [← decide_not, decide_eq_decide, not_lt]
    rw [BitVec.getLsbD_shiftLeft, zext16_getLsbD, decide_eq_true hj, decide_eq_true hlow, hshift, Bool.true_and,
      Bool.true_and]

/-! ## Comparisons -/

/-- `writeResult` of a comparison writes 1 where it holds and 0 where it does not (41_alu.md R81). -/
theorem writesTo_of_flagWord {i : Instr} {s : State} {rd : Reg} {c : Bool} {p : Prop} [Decidable p]
    (h : exec i s = writeResult s rd (flagWord c)) (hc : c = true ↔ p) :
    WritesTo i s rd (if p then 1#32 else 0#32) := by
  have hv : flagWord c = if p then 1#32 else 0#32 := if_congr hc rfl rfl
  exact hv ▸ writesTo_of_writeResult h

/-- Settles O23: each comparison is of the operands' values, and a sign-extended immediate's signed value is the
immediate's own. -/
theorem comparisons : Obligations.Comparisons := by
  intro s rd rs rt imm
  refine ⟨writesTo_of_flagWord rfl decide_eq_true_iff, writesTo_of_flagWord rfl ?_,
    writesTo_of_flagWord rfl decide_eq_true_iff, writesTo_of_flagWord rfl ?_⟩
  · rw [lessSigned, sext16_toInt, decide_eq_true_iff]
  · rw [lessUnsigned, decide_eq_true_iff, ← sext16_toNat, Nat.cast_lt]

/-! ## Example words -/

/-- Settles O4: the decoder computes on each of the words. -/
theorem wordsOfTheSpec : Obligations.WordsOfTheSpec := by
  unfold Obligations.WordsOfTheSpec
  decide

end Sys2Proof.Machine

/-! PROOFS. The statement of 42_shift.md: what each shift writes, bit by bit, and as floor division. -/

namespace Sys2Proof.Machine

/-! ## The bits of a shifted word -/

/-- Zeros enter at bit 0 (42_shift.md R86). -/
theorem shiftLeft_getLsbD (a : Word) (k j : Nat) (hj : j < 32) :
    (a <<< k).getLsbD j = (decide (k ≤ j) && a.getLsbD (j - k)) := by
  have hkeep : (!decide (j < k)) = decide (k ≤ j) := by rw [← decide_not, decide_eq_decide, not_lt]
  rw [BitVec.getLsbD_shiftLeft, decide_eq_true hj, hkeep, Bool.true_and]

/-- Zeros enter at bit 31 (42_shift.md R87). -/
theorem ushiftRight_getLsbD (a : Word) (k j : Nat) :
    (a >>> k).getLsbD j = (decide (j + k < 32) && a.getLsbD (j + k)) := by
  rw [BitVec.getLsbD_ushiftRight, Nat.add_comm k j]
  by_cases hin : j + k < 32
  · rw [decide_eq_true hin, Bool.true_and]
  · rw [decide_eq_false hin, Bool.false_and, a.getLsbD_of_ge _ (not_lt.mp hin)]

/-- Copies of bit 31 enter at bit 31 (42_shift.md R88). -/
theorem sshiftRight_getLsbD (a : Word) (k j : Nat) (hj : j < 32) :
    (a.sshiftRight k).getLsbD j = a.getLsbD (min (j + k) 31) := by
  have hword : (!decide (32 ≤ j)) = true := by rw [decide_eq_false (not_le.mpr hj), Bool.not_false]
  rw [BitVec.getLsbD_sshiftRight, hword, Bool.true_and, Nat.add_comm k j]
  split
  next hin => rw [Nat.min_eq_left (by omega)]
  next hout => rw [Nat.min_eq_right (by omega), BitVec.msb_eq_getLsbD_last]

/-- An arithmetic shift right is floor division of the signed value (42_shift.md R88). -/
theorem sshiftRight_toInt (a : Word) (k : Nat) : (a.sshiftRight k).toInt = a.toInt / 2 ^ k := by
  rw [BitVec.toInt_sshiftRight, Int.shiftRight_eq_div_pow, Nat.cast_pow, Nat.cast_ofNat]

/-! ## The six shifts -/

/-- Settles O24: the fixed and the variable form of each shift write the same shifted word, by the field and by
`shiftAmount`. -/
theorem shifts : Obligations.Shifts := by
  intro s rd rs rt sa a n left right arith
  exact ⟨⟨_, shiftLeft_getLsbD a sa, writesTo_of_writeResult rfl⟩,
    ⟨_, fun j _ => ushiftRight_getLsbD a sa j, writesTo_of_writeResult rfl⟩,
    ⟨_, sshiftRight_getLsbD a sa, sshiftRight_toInt a sa, writesTo_of_writeResult rfl⟩,
    ⟨_, shiftLeft_getLsbD a n, writesTo_of_writeResult rfl⟩,
    ⟨_, fun j _ => ushiftRight_getLsbD a n j, writesTo_of_writeResult rfl⟩,
    ⟨_, sshiftRight_getLsbD a n, sshiftRight_toInt a n, writesTo_of_writeResult rfl⟩⟩

end Sys2Proof.Machine

/-! PROOFS. The statements of 43_muldiv.md: the products of MULT and MULTU, and DIV with and without a divisor of zero. -/

namespace Sys2Proof.Machine

/-! ## Products -/

/-- The signed product of two words fits in 64 bits (43_muldiv.md R94). -/
theorem toInt_signedProduct (a b : Word) : (BitVec.ofInt 64 (a.toInt * b.toInt)).toInt = a.toInt * b.toInt := by
  have hlo := BitVec.le_toInt_mul_toInt (x := a) (y := b)
  have hhi := BitVec.toInt_mul_toInt_le (x := a) (y := b)
  exact BitVec.toInt_ofInt_eq_self (by decide) (by omega) (by omega)

/-- The unsigned product of two words fits in 64 bits (48_mips1_extension.md R248). -/
theorem toNat_unsignedProduct (a b : Word) : (BitVec.ofNat 64 (a.toNat * b.toNat)).toNat = a.toNat * b.toNat := by
  have hfit : a.toNat * b.toNat < 2 ^ 32 * 2 ^ 32 := Nat.mul_lt_mul'' a.isLt b.isLt
  exact (BitVec.toNat_ofNat _ _).trans (Nat.mod_eq_of_lt hfit)

/-- `productResult` answers a next state whose HI and LO join to the product (43_muldiv.md R94). -/
theorem setsHiLo_of_productResult {i : Instr} {s : State} {q : BitVec 64} (h : exec i s = productResult s q) :
    ∃ hi lo : Word, (hi ++ lo : BitVec 64) = q ∧ SetsHiLo i s hi lo :=
  ⟨_, _, BitVec.extractLsb'_append_extractLsb', setsHiLo_of h⟩

/-- Settles O25: HI and LO join to the 64-bit product, and neither product overflows 64 bits. -/
theorem multiplyResults : Obligations.MultiplyResults := by
  intro s rs rt
  constructor
  · obtain ⟨hi, lo, hq, hset⟩ := setsHiLo_of_productResult (i := .mult rs rt) (s := s) rfl
    exact ⟨hi, lo, hq ▸ toInt_signedProduct _ _, hset⟩
  · obtain ⟨hi, lo, hq, hset⟩ := setsHiLo_of_productResult (i := .multu rs rt) (s := s) rfl
    exact ⟨hi, lo, hq ▸ toNat_unsignedProduct _ _, hset⟩

/-! ## How a division ends -/

/-- With a divisor other than zero, `divideResult` writes HI and LO and nothing else (43_muldiv.md R95). -/
theorem setsHiLo_of_divideResult {i : Instr} {s : State} {d r q : Word} (h : exec i s = divideResult s d r q)
    (hd : d ≠ 0#32) : SetsHiLo i s r q :=
  setsHiLo_of (h.trans (if_neg hd))

/-- With a divisor of zero, `divideResult` emits its event and changes nothing else (43_muldiv.md R96). -/
theorem emits_of_divideResult_zero {i : Instr} {s : State} {d r q : Word} (h : exec i s = divideResult s d r q)
    (hd : d = 0#32) :
    ∃ t, exec i s = .next t ∧ SameHiLo s t ∧ t.diag = s.diag ++ [.divideByZero s.pc] ∧ t.render = s.render ∧
      SameRegs [] s t ∧ SameCop0 [] s t ∧ SameMemory s t ∧ SameDevices s t ∧ SameConfig s t ∧ GoesOn s t :=
  ⟨_, h.trans (if_pos hd), ⟨rfl, rfl⟩, rfl, rfl, .of_eq rfl _, .of_eq rfl _, .of_eq rfl rfl rfl, ⟨rfl, rfl⟩, ⟨rfl, rfl⟩,
    goesOn_advance_of rfl rfl rfl⟩

/-! ## Division of signed words -/

/-- The model's DIV is the division of words that truncates toward zero (43_muldiv.md R95). -/
theorem exec_div (s : State) (rs rt : Reg) :
    exec (.div rs rt) s = divideResult s (s.readReg rt) ((s.readReg rs).srem (s.readReg rt))
      ((s.readReg rs).sdiv (s.readReg rt)) := by
  have hquot (a b : Word) : BitVec.ofInt 32 (a.toInt.tdiv b.toInt) = a.sdiv b :=
    BitVec.eq_of_toInt_eq ((BitVec.toInt_ofInt _).trans (BitVec.toInt_sdiv a b).symm)
  have hrem (a b : Word) : BitVec.ofInt 32 (a.toInt - a.toInt.tdiv b.toInt * b.toInt) = a.srem b := by
    rw [mul_comm, ← Int.tmod_def, ← BitVec.toInt_srem, BitVec.ofInt_toInt]
  rw [← hquot, ← hrem]
  rfl

/-- Dividend, quotient, divisor and remainder, where the quotient fits (43_muldiv.md R95). -/
theorem sdiv_mul_add_srem {a b : Word} (hfit : ¬(a = 0x80000000#32 ∧ b = 0xFFFFFFFF#32)) :
    a.toInt = (a.sdiv b).toInt * b.toInt + (a.srem b).toInt := by
  rw [BitVec.toInt_sdiv_of_ne_or_ne a b (not_and_or.mp hfit), BitVec.toInt_srem, Int.tdiv_mul_add_tmod]

/-- The remainder is smaller in size than the divisor (43_muldiv.md R95). -/
theorem abs_srem_lt (a : Word) {b : Word} (hb : b ≠ 0#32) : |(a.srem b).toInt| < |b.toInt| := by
  have hpos : 0 < b.toInt.natAbs := Int.natAbs_pos.mpr fun h => hb (BitVec.eq_of_toInt_eq h)
  rw [Int.abs_eq_natAbs, Int.abs_eq_natAbs, BitVec.toInt_srem, Int.natAbs_tmod]
  exact Int.ofNat_lt.mpr (Nat.mod_lt _ hpos)

/-- The remainder is zero or has the dividend's sign (43_muldiv.md R95). -/
theorem srem_sign (a b : Word) : (a.srem b).toInt = 0 ∨ ((a.srem b).toInt < 0 ↔ a.toInt < 0) := by
  have hsign := Int.sign_tmod a.toInt b.toInt
  rw [← BitVec.toInt_srem] at hsign
  split at hsign
  next => exact .inl (Int.sign_eq_zero_iff_zero.mp hsign)
  next => exact .inr (by rw [← Int.sign_eq_neg_one_iff_neg, hsign, Int.sign_eq_neg_one_iff_neg])

/-- Settles O26: DIV writes `srem` and `sdiv`; they divide the signed values but in the corner, which computes. -/
theorem divideSigned : Obligations.DivideSigned := by
  intro s rs rt hdivisor
  have hset := setsHiLo_of_divideResult (exec_div s rs rt) hdivisor
  refine ⟨fun hfit => ⟨_, _, hset, sdiv_mul_add_srem hfit, abs_srem_lt _ hdivisor, srem_sign _ _⟩, fun hrs hrt => ?_⟩
  have hrem : (0x80000000#32).srem 0xFFFFFFFF#32 = 0#32 := by decide
  have hquot : (0x80000000#32).sdiv 0xFFFFFFFF#32 = 0x80000000#32 := by decide
  rwa [hrs, hrt, hrem, hquot] at hset

/-- Settles O27: DIV ends by `divideResult`, which leaves all but its event and the sequencer. -/
theorem divideByZero : Obligations.DivideByZero :=
  fun s rs rt hzero => emits_of_divideResult_zero (exec_div s rs rt) hzero

end Sys2Proof.Machine

/-! PROOFS. The statements of 44_loadstore.md: the aligned loads, the unaligned ones lane by lane, the stores as bus
writes and as bytes of RAM, and the pairs that move a word at any address. -/

namespace Sys2Proof.Machine

/-! ## Aligned loads -/

/-- Settles O32: each load extends what the bus reads; a halfword of storage is its two bytes. -/
theorem loadResults : Obligations.LoadResults := by
  intro s rt base offset a
  have half (ha : a.toNat % 2 = 0) : LoadsTo (.lh rt base offset) s rt (sextHalf (s.memRead a .half)) a .half :=
    loadsTo_of_loadAligned rfl ((aligned_iff .half a).mpr ha)
  refine ⟨loadsTo_of_loadValue (extend := sextByte) rfl, loadsTo_of_loadValue (extend := lowBits .byte) rfl,
    fun ha => ⟨half ha, ?_⟩, fun ha => ?_, fun hs ha => ?_⟩
  · have hlhu : LoadsTo (.lhu rt base offset) s rt (lowBits .half (s.memRead a .half)) a .half :=
      loadsTo_of_loadAligned rfl ((aligned_iff .half a).mpr ha)
    rwa [s.half_zext a] at hlhu
  · exact loadsTo_of_loadAligned (extend := lowBits .word) rfl ((aligned_iff .word a).mpr ha)
  · have hlh := half ha
    rwa [s.memRead_half hs ha, sextHalf, BitVec.setWidth_setWidth_of_le _ (by decide), BitVec.setWidth_eq] at hlh

/-! ## Unaligned loads -/

section
variable (s : State) (rt base : Reg) (offset : BitVec 16)

/-- LWL loads the merge of the aligned word into the register (44_loadstore.md R110). -/
theorem loadsTo_lwl : LoadsTo (.lwl rt base offset) s rt
    (mergeLwl (s.memRead (alignedWord (s.ea base offset)) .word) (s.readReg rt) (byteInWord (s.ea base offset)))
    (alignedWord (s.ea base offset)) .word :=
  loadsTo_of_loadValue (extend := fun m => mergeLwl m (s.readReg rt) (byteInWord (s.ea base offset))) rfl

/-- LWR loads the merge of the aligned word into the register (44_loadstore.md R111). -/
theorem loadsTo_lwr : LoadsTo (.lwr rt base offset) s rt
    (mergeLwr (s.memRead (alignedWord (s.ea base offset)) .word) (s.readReg rt) (byteInWord (s.ea base offset)))
    (alignedWord (s.ea base offset)) .word :=
  loadsTo_of_loadValue (extend := fun m => mergeLwr m (s.readReg rt) (byteInWord (s.ea base offset))) rfl

end

/-- Settles O34: what LWL and LWR load is their merge, which is given lane by lane. -/
theorem unalignedLoads : Obligations.UnalignedLoads := by
  intro s rt base offset a b wa m g
  have hwa : alignedWord a = wa := alignedWord_eq_sub a
  refine ⟨⟨mergeLwl m g b, fun j hj => mergeLwl_lane m g b j (byteInWord_lt a) hj, ?_⟩,
    ⟨mergeLwr m g b, fun j hj => mergeLwr_lane m g b j (byteInWord_lt a) hj, ?_⟩⟩
  · have hlwl := loadsTo_lwl s rt base offset
    rwa [show alignedWord (s.ea base offset) = wa from hwa] at hlwl
  · have hlwr := loadsTo_lwr s rt base offset
    rwa [show alignedWord (s.ea base offset) = wa from hwa] at hlwr

/-! ## Stores as bus writes -/

/-- Settles O38: each store is its bus write by definition, and the merged word is given lane by lane. -/
theorem storesGoThroughTheBus : Obligations.StoresGoThroughTheBus := by
  intro s rt base offset a
  refine ⟨rfl, fun ha => ?_, fun ha => ?_, ⟨_, rfl, fun j hj => ?_⟩, ⟨_, rfl, fun j hj => ?_⟩⟩
  · exact storeAligned_of_aligned _ ((aligned_iff .half a).mpr ha)
  · exact storeAligned_of_aligned _ ((aligned_iff .word a).mpr ha)
  · exact mergeSwl_lane _ _ _ j (byteInWord_lt a) hj
  · exact mergeSwr_lane _ _ _ j (byteInWord_lt a) hj

/-! ## Aligned stores to RAM -/

/-- Only the bytes that `StoresTo` counts matter. -/
theorem StoresTo.congr {i : Instr} {s : State} {a : Word} {n : Nat} {f g : Nat → Byte} (h : StoresTo i s a n f)
    (hfg : ∀ k, k < n → f k = g k) : StoresTo i s a n g := by
  obtain ⟨t, ht, hbytes, hrest⟩ := h
  exact ⟨t, ht, fun k hk => (hbytes k hk).trans (hfg k hk), hrest⟩

/-- A word written to RAM, as a store of its four lanes (20_memory.md R40). -/
theorem storesTo_memWrite_word {i : Instr} {s : State} {a v : Word} {o : Nat}
    (h : exec i s = .next (s.memWrite a .word v).advance) (hw : Memory.wf Config.ramSize s.ram = true)
    (hr : region a = .ram o) (ha : aligned .word a = true) : StoresTo i s a 4 (byteLane v) :=
  (storesTo_memWrite h hw hr ha).congr fun k _ => congrArg _ (Nat.zero_add k)

/-- Settles O36: each store is one bus write to RAM, whose bytes are the register's low lanes. -/
theorem ramStores : Obligations.RamStores := by
  intro s rt base offset o hw a hr
  refine ⟨?_, fun ha => ?_, fun ha => ?_⟩
  · refine (storesTo_memWrite (n := .byte) rfl hw hr ((aligned_iff _ _).mpr (Nat.mod_one _))).congr fun k hk => ?_
    rw [Nat.lt_one_iff.mp hk]
    rfl
  · have ha := (aligned_iff .half a).mpr ha
    exact storesTo_memWrite (n := .half) (storeAligned_of_aligned _ ha) hw hr ha
  · have ha := (aligned_iff .word a).mpr ha
    exact storesTo_memWrite_word (storeAligned_of_aligned _ ha) hw hr ha

/-! ## Unaligned stores to RAM -/

/-- What a byte reads depends on its address only through the region and the offset there (20_memory.md R33). -/
theorem State.readByte_congr_region (s : State) {a b : Word} (h : region a = region b) : s.readByte a = s.readByte b := by
  simp only [State.readByte, State.memRead, State.busRead, h]

/-- A byte of storage is a lane of the aligned word that holds it, named by any address in that word. -/
theorem State.readByte_eq_lane (s : State) {a b : Word} (hs : isStorage b) (hword : b.toNat / 4 = a.toNat / 4) :
    s.readByte b = byteLane (s.memRead (alignedWord a) .word) (b.toNat % 4) := by
  have he : alignedWord b = alignedWord a := by
    apply BitVec.eq_of_toNat_eq
    rw [alignedWord_toNat, alignedWord_toNat]
    omega
  rw [s.readByte_lane hs, he]

/-- Offsets from an address add up. -/
theorem word_add_add_ofNat (a : Word) (p k : Nat) :
    a + BitVec.ofNat 32 p + BitVec.ofNat 32 k = a + BitVec.ofNat 32 (p + k) := by
  rw [BitVec.add_assoc, BitVec.ofNat_add]

/-- A store that puts back what some of its bytes held is a store of the others. -/
theorem StoresTo.narrow {i : Instr} {s : State} {a : Word} {n : Nat} {f : Nat → Byte} (h : StoresTo i s a n f)
    (p r : Nat) (hfit : p + r ≤ n)
    (hsame : ∀ k, k < n → k < p ∨ p + r ≤ k → f k = s.readByte (a + BitVec.ofNat 32 k)) :
    StoresTo i s (a + BitVec.ofNat 32 p) r (fun k => f (p + k)) := by
  obtain ⟨t, ht, hbytes, hframe, hrest⟩ := h
  refine ⟨t, ht, fun k hk => ?_, fun b hb => ?_, hrest⟩
  · rw [word_add_add_ofNat]
    exact hbytes (p + k) (by omega)
  · by_cases hin : ∃ k, k < n ∧ region b = region (a + BitVec.ofNat 32 k)
    · obtain ⟨k, hk, hregion⟩ := hin
      have hout : k < p ∨ p + r ≤ k := by
        by_contra hin
        refine hb (k - p) (by omega) ?_
        rw [word_add_add_ofNat, Nat.add_sub_of_le (by omega), hregion]
      rw [t.readByte_congr_region hregion, hbytes k hk, hsame k hk hout, s.readByte_congr_region hregion]
    · exact hframe b fun k hk hregion => hin ⟨k, hk, hregion⟩

/-- `storeMerged` to RAM stores the four lanes of the merged word (44_loadstore.md R109). -/
theorem storesTo_of_storeMerged {i : Instr} {s : State} {merge : Word → Word → Nat → Word} {rt : Reg} {a : Word}
    {o : Nat} (h : exec i s = storeMerged s merge rt a) (hw : Memory.wf Config.ramSize s.ram = true)
    (hr : region a = .ram o) :
    StoresTo i s (alignedWord a) 4
      (byteLane (merge (s.memRead (alignedWord a) .word) (s.readReg rt) (byteInWord a))) := by
  have hra := region_alignedWord hr
  rw [storeMerged, s.noteRead_of_ram hra] at h
  exact storesTo_memWrite_word h hw hra (alignedWord_aligned a)

/-- Byte `k` of the word that holds a RAM address is lane `k` of that word. -/
theorem State.readByte_alignedWord_add (s : State) {a : Word} {o k : Nat} (hr : region a = .ram o) (hk : k < 4) :
    s.readByte (alignedWord a + BitVec.ofNat 32 k) = byteLane (s.memRead (alignedWord a) .word) k := by
  have hmod := alignedWord_toNat a
  have hadd := word_add_toNat (alignedWord a) k (by omega)
  have hram := region_ram_add (region_alignedWord hr) (show (alignedWord a).toNat % 4 + k < 4 by omega)
  rw [s.readByte_eq_lane (a := a) (.inl ⟨_, hram⟩) (by omega), hadd, show ((alignedWord a).toNat + k) % 4 = k by omega]

section
variable {s : State} (rt : Reg) {base : Reg} {offset : BitVec 16} {a : Word} {o : Nat}
variable (hw : Memory.wf Config.ramSize s.ram = true) (ha : s.ea base offset = a) (hr : region a = .ram o)
include hw ha hr

/-- SWL to RAM stores the register's high lanes from the address to the end of its word (44_loadstore.md R112). -/
theorem storesTo_swl : StoresTo (.swl rt base offset) s a (4 - a.toNat % 4) (byteLane (s.readReg rt)) := by
  have hb := byteInWord_lt a
  have hstart : alignedWord a + BitVec.ofNat 32 (byteInWord a) = a := by
    rw [alignedWord_eq_sub]
    exact BitVec.sub_add_cancel _ _
  have hword := storesTo_of_storeMerged (i := .swl rt base offset) (merge := mergeSwl) (rt := rt) (ha ▸ rfl) hw hr
  have hleft := hword.narrow (byteInWord a) (4 - byteInWord a) (by omega) fun k hk hout => by
    rw [s.readByte_alignedWord_add hr hk, mergeSwl_lane _ _ _ k hb hk, if_pos (by omega)]
  rw [hstart] at hleft
  refine hleft.congr fun k hk => ?_
  rw [mergeSwl_lane _ _ _ _ hb (by omega), if_neg (by omega), Nat.add_sub_cancel_left]

/-- SWR to RAM stores the register's low lanes from the start of the word to the address (44_loadstore.md R113). -/
theorem storesTo_swr : StoresTo (.swr rt base offset) s (alignedWord a) (a.toNat % 4 + 1)
    (fun k => byteLane (s.readReg rt) (3 - a.toNat % 4 + k)) := by
  have hb := byteInWord_lt a
  have hword := storesTo_of_storeMerged (i := .swr rt base offset) (merge := mergeSwr) (rt := rt) (ha ▸ rfl) hw hr
  have hright := hword.narrow 0 (byteInWord a + 1) (by omega) fun k hk hout => by
    rw [s.readByte_alignedWord_add hr hk, mergeSwr_lane _ _ _ k hb hk, if_neg (by omega)]
  rw [BitVec.add_zero] at hright
  refine hright.congr fun k hk => ?_
  rw [mergeSwr_lane _ _ _ _ hb (by omega), if_pos (by omega)]
  exact congrArg _ (by unfold byteInWord at *; omega)

end

/-- Settles O37: each store writes back its merged word, whose other lanes are the bytes that were there. -/
theorem unalignedStores : Obligations.UnalignedStores := by
  intro s rt base offset o hw a b hr
  have hwa : alignedWord a = a - BitVec.ofNat 32 b := alignedWord_eq_sub a
  exact ⟨storesTo_swl rt hw rfl hr, hwa ▸ storesTo_swr rt hw rfl hr⟩

/-! ## The pairs -/

/-- Byte `k` from `a` on is in the word of `a`, where the left instruction moves it, or in the word of `a + 3`, where the
right one does (44_loadstore.md R114). -/
theorem pair_covers (a : Word) {k : Nat} (hk : k < 4) : k + a.toNat % 4 < 4 ∨ 3 ≤ k + (a + 3#32).toNat % 4 := by
  rw [BitVec.toNat_add]
  have hlt := a.isLt
  have h3 : (3#32).toNat = 3 := rfl
  omega

/-- A load into a register other than 0, as what its next state holds. -/
theorem LoadsTo.of_exec {i : Instr} {s t : State} {rt : Reg} {v a : Word} {n : Width} (h : LoadsTo i s rt v a n)
    (hrt : rt ≠ 0) (ht : exec i s = .next t) : t.readReg rt = v ∧ ∀ b, t.readByte b = s.readByte b := by
  obtain ⟨u, hu, hv, -, -, -, ⟨-, -, hbytes⟩, -⟩ := h
  cases hu.symm.trans ht
  exact ⟨hv.trans (if_neg hrt), hbytes⟩

section
variable {s t : State} {rt base : Reg} {offset : BitVec 16} {a : Word}
variable (hrt : rt ≠ 0) (hs : ∀ j, j < 4 → isStorage (a + BitVec.ofNat 32 j))
include hrt hs

/-- LWL at `a` takes the bytes from `a` on that lie in the word of `a`. -/
theorem readReg_lanes_lwl (ha : s.ea base offset = a) (ht : exec (.lwl rt base offset) s = .next t) :
    (∀ j, j < 4 → byteLane (t.readReg rt) j =
      if j + a.toNat % 4 < 4 then s.readByte (a + BitVec.ofNat 32 j) else byteLane (s.readReg rt) j) ∧
    ∀ b, t.readByte b = s.readByte b := by
  obtain ⟨hv, hmem⟩ := (loadsTo_lwl s rt base offset).of_exec hrt ht
  refine ⟨fun j hj => ?_, hmem⟩
  rw [hv, ha, mergeLwl_lane _ _ _ j (byteInWord_lt a) hj, byteInWord]
  refine if_ctx_congr Iff.rfl (fun hin => ?_) fun _ => rfl
  have hadd := word_add_toNat a j (by omega)
  rw [s.readByte_eq_lane (a := a) (hs j hj) (by omega), hadd, show (a.toNat + j) % 4 = j + a.toNat % 4 by omega]

/-- LWR at `a + 3` takes the bytes from `a` on that lie in the word of `a + 3`. -/
theorem readReg_lanes_lwr (ha : s.ea base offset = a + 3#32) (ht : exec (.lwr rt base offset) s = .next t) :
    (∀ j, j < 4 → byteLane (t.readReg rt) j =
      if 3 ≤ j + (a + 3#32).toNat % 4 then s.readByte (a + BitVec.ofNat 32 j) else byteLane (s.readReg rt) j) ∧
    ∀ b, t.readByte b = s.readByte b := by
  obtain ⟨hv, hmem⟩ := (loadsTo_lwr s rt base offset).of_exec hrt ht
  refine ⟨fun j hj => ?_, hmem⟩
  rw [hv, ha, mergeLwr_lane _ _ _ j (byteInWord_lt _) hj, byteInWord]
  refine if_ctx_congr Iff.rfl (fun hin => ?_) fun _ => rfl
  have hadd : (a + BitVec.ofNat 32 j).toNat + 3 = (a + 3#32).toNat + j := by
    have hlt := a.isLt
    rw [BitVec.toNat_add, BitVec.toNat_ofNat] at hin ⊢
    rw [BitVec.toNat_add, BitVec.toNat_ofNat]
    omega
  rw [s.readByte_eq_lane (a := a + 3#32) (hs j hj) (by omega),
    show (a + BitVec.ofNat 32 j).toNat % 4 = j + (a + 3#32).toNat % 4 - 3 by omega]

end

/-- A word whose lanes are the four bytes from an address on is the big-endian word there (20_memory.md R40). -/
theorem State.eq_wordOfBytes (s : State) {a v : Word}
    (h : ∀ j, j < 4 → byteLane v j = s.readByte (a + BitVec.ofNat 32 j)) :
    v = wordOfBytes (s.readByte a) (s.readByte (a + 1#32)) (s.readByte (a + 2#32)) (s.readByte (a + 3#32)) := by
  have h0 := h 0 (by decide)
  rw [BitVec.add_zero] at h0
  rw [← h0, ← h 1 (by decide), ← h 2 (by decide), ← h 3 (by decide)]
  exact (wordOfBytes_bytesOfWord v).symm

/-- The bytes `p` to `q - 1` from `a` on became those lanes of `v`, and every other byte is as before. -/
def StoresLanes (a v : Word) (p q : Nat) (s t : State) : Prop :=
  (∀ k, p ≤ k → k < q → t.readByte (a + BitVec.ofNat 32 k) = byteLane v k) ∧
    ∀ b, (∀ k, p ≤ k → k < q → region b ≠ region (a + BitVec.ofNat 32 k)) → t.readByte b = s.readByte b

/-- A store of lanes of `v`, as what its next state holds. -/
theorem StoresTo.lanes {i : Instr} {s t : State} {a v : Word} {p n : Nat}
    (h : StoresTo i s (a + BitVec.ofNat 32 p) n (fun k => byteLane v (p + k))) (ht : exec i s = .next t) :
    StoresLanes a v p (p + n) s t := by
  obtain ⟨u, hu, hbytes, hframe, -⟩ := h
  cases hu.symm.trans ht
  have hadd {k : Nat} (hk : p ≤ k) : a + BitVec.ofNat 32 p + BitVec.ofNat 32 (k - p) = a + BitVec.ofNat 32 k := by
    rw [word_add_add_ofNat, Nat.add_sub_of_le hk]
  refine ⟨fun k hp hq => ?_, fun b hb => hframe b fun k hk => ?_⟩
  · rw [← hadd hp, hbytes (k - p) (by omega)]
    exact congrArg _ (Nat.add_sub_of_le hp)
  · have hne := hb (p + k) (by omega) (by omega)
    rwa [← hadd (Nat.le_add_right p k), Nat.add_sub_cancel_left] at hne

/-- Different bytes of four in RAM are different places. -/
theorem region_ram_add_inj {a : Word} (hram : ∀ k, k < 4 → ∃ o, region (a + BitVec.ofNat 32 k) = .ram o) {j k : Nat}
    (hj : j < 4) (hk : k < 4) (h : region (a + BitVec.ofNat 32 j) = region (a + BitVec.ofNat 32 k)) : j = k := by
  obtain ⟨o, ho⟩ := hram j hj
  have ho' := (region_ram_iff _ o).mp (h.symm.trans ho)
  have ho := (region_ram_iff _ o).mp ho
  rw [BitVec.toNat_add, BitVec.toNat_ofNat] at ho ho'
  omega

/-- Two stores of lanes of one word that cover its four lanes store the word, whatever they share. -/
theorem StoresLanes.cover {s t u : State} {a v : Word} {p q p' q' : Nat} (h : StoresLanes a v p q s t)
    (h' : StoresLanes a v p' q' t u) (hram : ∀ k, k < 4 → ∃ o, region (a + BitVec.ofNat 32 k) = .ram o)
    (hq : q ≤ 4) (hq' : q' ≤ 4) (hcover : ∀ k, k < 4 → (p ≤ k ∧ k < q) ∨ (p' ≤ k ∧ k < q')) :
    (∀ k, k < 4 → u.readByte (a + BitVec.ofNat 32 k) = byteLane v k) ∧
      ∀ b, (∀ k, k < 4 → region b ≠ region (a + BitVec.ofNat 32 k)) → u.readByte b = s.readByte b := by
  obtain ⟨hbytes, hframe⟩ := h
  obtain ⟨hbytes', hframe'⟩ := h'
  refine ⟨fun k hk => ?_, fun b hb => ?_⟩
  · by_cases hlast : p' ≤ k ∧ k < q'
    · exact hbytes' k hlast.1 hlast.2
    · have hfirst := (hcover k hk).resolve_right hlast
      rw [hframe' _ fun j hp hj hregion => ?_, hbytes k hfirst.1 hfirst.2]
      cases region_ram_add_inj hram hk (hj.trans_le hq') hregion
      exact hlast ⟨hp, hj⟩
  · rw [hframe' b fun k _ hk => hb k (hk.trans_le hq'),
      hframe b fun k _ hk => hb k (hk.trans_le hq)]

theorem State.readReg_congr (t : State) {s : State} (h : t.regs = s.regs) {r : Reg} : t.readReg r = s.readReg r := by
  simp only [State.readReg, h]

theorem State.ea_congr (t : State) {s : State} (h : t.regs = s.regs) {base : Reg} {offset : BitVec 16} :
    t.ea base offset = s.ea base offset := by rw [State.ea, State.ea, t.readReg_congr h]

/-- What `storeMerged` to RAM keeps for a second store: the registers and RAM's canonical form. -/
theorem storeMerged_keeps {s t : State} {merge : Word → Word → Nat → Word} {rt : Reg} {a : Word}
    (hw : Memory.wf Config.ramSize s.ram = true) (h : storeMerged s merge rt a = .next t) :
    t.regs = s.regs ∧ Memory.wf Config.ramSize t.ram = true := by
  cases h
  refine ⟨by simp, ?_⟩
  rw [State.advance_ram]
  exact State.memWrite_ram_wf _ _ (by rwa [State.noteRead_ram]) (alignedWord_aligned a)

section
variable {s t : State} {rt base : Reg} {offset : BitVec 16} {a : Word}
variable (hw : Memory.wf Config.ramSize s.ram = true)
variable (hram : ∀ k, k < 4 → ∃ o, region (a + BitVec.ofNat 32 k) = .ram o)
include hw hram

/-- SWL at `a` stores the lanes that lie in the word of `a`. -/
theorem storesLanes_swl (ha : s.ea base offset = a) (ht : exec (.swl rt base offset) s = .next t) :
    StoresLanes a (s.readReg rt) 0 (4 - a.toNat % 4) s t := by
  obtain ⟨o, hr⟩ := hram 0 (by decide)
  rw [BitVec.add_zero] at hr
  have hswl := storesTo_swl rt hw ha hr
  rw [← Nat.zero_add (4 - a.toNat % 4)]
  refine StoresTo.lanes (i := .swl rt base offset) ?_ ht
  simpa only [BitVec.add_zero, Nat.zero_add] using hswl

/-- SWR at `a + 3` stores the lanes that lie in the word of `a + 3`. -/
theorem storesLanes_swr (ha : s.ea base offset = a + 3#32) (ht : exec (.swr rt base offset) s = .next t) :
    StoresLanes a (s.readReg rt) (3 - (a + 3#32).toNat % 4) 4 s t := by
  obtain ⟨o, hr⟩ := hram 3 (by decide)
  have hswr := storesTo_swr rt hw ha hr
  have hstart : alignedWord (a + 3#32) = a + BitVec.ofNat 32 (3 - (a + 3#32).toNat % 4) := by
    apply BitVec.eq_of_toNat_eq
    have hlt := a.isLt
    rw [alignedWord_toNat, BitVec.toNat_add, BitVec.toNat_add, BitVec.toNat_ofNat, BitVec.toNat_ofNat]
    omega
  rw [hstart] at hswr
  have hlanes := hswr.lanes ht
  rwa [show 3 - (a + 3#32).toNat % 4 + ((a + 3#32).toNat % 4 + 1) = 4 by omega] at hlanes

end

/-- Settles O35: the two instructions cover the four lanes, so it does not matter which one comes first. -/
theorem unalignedPairs : Obligations.UnalignedPairs := by
  intro s t rt base base' offset offset' a w stored
  refine ⟨fun hrt hs => ⟨fun ht hea => ?_, fun ht hea hea' => ?_⟩,
    fun hw hram hea => ⟨fun ht => ?_, fun ht => ?_⟩⟩
  · obtain ⟨hfirst, hmem⟩ := readReg_lanes_lwl hrt hs rfl ht
    obtain ⟨hsecond, -⟩ := readReg_lanes_lwr (s := t) hrt hs hea rfl
    refine ⟨_, rfl, s.eq_wordOfBytes fun j hj => ?_⟩
    rw [hsecond j hj, hmem]
    split
    next => rfl
    next hr => rw [hfirst j hj, if_pos ((pair_covers a hj).resolve_right hr)]
  · obtain ⟨hfirst, hmem⟩ := readReg_lanes_lwr hrt hs hea ht
    obtain ⟨hsecond, -⟩ := readReg_lanes_lwl (s := t) hrt hs hea' rfl
    refine ⟨_, rfl, s.eq_wordOfBytes fun j hj => ?_⟩
    rw [hsecond j hj, hmem]
    split
    next => rfl
    next hl => rw [hfirst j hj, if_pos ((pair_covers a hj).resolve_left hl)]
  · obtain ⟨u, hu⟩ : ∃ u, exec (.swr rt base' offset') t = .next u := ⟨_, rfl⟩
    obtain ⟨hregs, hw'⟩ := storeMerged_keeps hw ht
    have hfirst := storesLanes_swl hw hram rfl ht
    have hsecond := storesLanes_swr hw' hram ((t.ea_congr hregs).trans hea) hu
    rw [t.readReg_congr hregs] at hsecond
    exact ⟨u, hu, hfirst.cover hsecond hram (by omega) le_rfl fun k hk => by have := pair_covers a hk; omega⟩
  · obtain ⟨u, hu⟩ : ∃ u, exec (.swl rt base offset) t = .next u := ⟨_, rfl⟩
    obtain ⟨hregs, hw'⟩ := storeMerged_keeps hw ht
    have hfirst := storesLanes_swr hw hram hea ht
    have hsecond := storesLanes_swl hw' hram (t.ea_congr hregs) hu
    rw [t.readReg_congr hregs] at hsecond
    exact ⟨u, hu, hfirst.cover hsecond hram le_rfl (by omega) fun k hk => by have := pair_covers a hk; omega⟩

end Sys2Proof.Machine

/-! PROOFS. The statements of 45_control.md: the targets, links and conditions of the jumps and branches, and the
alignment of the program counter. -/

namespace Sys2Proof.Machine

/-! ## Jumps and branches -/

/-- Settles O42: a jump is a branch whose condition always holds, and the model's target is the region joined with the
field times four. -/
theorem jumps : Obligations.Jumps := by
  intro s target rd rs t
  have ht : jumpTarget s.pc target = t := jumpTarget_eq s.pc target
  have always : true = true ↔ True := iff_of_true rfl trivial
  rw [← ht]
  exact ⟨transfers_of true always rfl, transfers_link_of true always rfl, transfers_of true always rfl,
    transfers_link_of true always rfl⟩

/-- Settles O43: each instruction branches on the decision of its condition, and the model's target is counted from
the branch's own address. -/
theorem branches : Obligations.Branches := by
  intro s rs rt imm t v
  have ht : branchTarget s.pc imm = t := branchTarget_eq s.pc imm
  rw [← ht]
  exact ⟨transfers_of _ decide_eq_true_iff rfl, transfers_of _ decide_eq_true_iff rfl,
    transfers_of _ decide_eq_true_iff rfl, transfers_of _ decide_eq_true_iff rfl,
    transfers_of _ decide_eq_true_iff rfl, transfers_of _ decide_eq_true_iff rfl,
    transfers_link_of _ decide_eq_true_iff rfl, transfers_link_of _ decide_eq_true_iff rfl⟩

/-! ## Alignment of the sequencer -/

/-- The program counter is word-aligned, and so is a target that waits for its delay slot (45_control.md R125). -/
structure State.SeqAligned (s : State) : Prop where
  pc     : s.pc.toNat % 4 = 0
  target : s.inDelaySlot = true → s.nextPC.toNat % 4 = 0

theorem State.SeqAligned.of_eq {s t : State} (h : s.SeqAligned) (hpc : t.pc = s.pc) (hnext : t.nextPC = s.nextPC)
    (hslot : t.inDelaySlot = s.inDelaySlot) : t.SeqAligned where
  pc := hpc ▸ h.pc
  target := hnext ▸ hslot ▸ h.target

/-- The next word and the latched target are both aligned. -/
theorem State.SeqAligned.followingPc {s : State} (h : s.SeqAligned) : s.followingPc.toNat % 4 = 0 := by
  unfold State.followingPc
  split
  next hslot => exact h.target hslot
  next =>
    have hpc := h.pc
    rw [BitVec.toNat_add, show (4#32).toNat = 4 from rfl]
    omega

/-- The exception vector is aligned, and entry drops a pending target (60_exceptions.md R153). -/
theorem State.seqAligned_enter (s : State) (e : Exc) (epc bad : Word) : (s.enter e epc bad).SeqAligned where
  pc := by rw [State.enter_pc]; decide
  target := by rw [State.enter_inDelaySlot]; nofun

theorem Effect.seqAligned {i : Instr} {s u : State} (hu : Effect i s u) (h : s.SeqAligned) : u.SeqAligned := by
  obtain ⟨hpc, hnext, hslot⟩ := hu.seq
  exact h.of_eq hpc hnext hslot

/-- However an instruction ends, its next address is aligned, but for ERET, JR and JALR, which take theirs as it is
(45_control.md R125; 48_mips1_extension.md R256). -/
theorem Ends.seqAligned {i : Instr} {s m : State} (hm : Ends i s m) (h : s.SeqAligned) (heret : i ≠ .eret)
    (hjr : ∀ rs, i ≠ .jr rs) (hjalr : ∀ rd rs, i ≠ .jalr rd rs) : m.SeqAligned := by
  cases hm with
  | advance u hu => exact ⟨(hu.seqAligned h).followingPc, nofun⟩
  | branch u x hu _ hx => exact ⟨(hu.seqAligned h).followingPc, fun _ => hx hjr hjalr h.pc⟩
  | raise e bad => exact s.seqAligned_enter e s.pc bad
  | ret hi => exact absurd hi heret

/-- Stages 4 to 6 touch the sequencer only to enter Interrupt (60_exceptions.md R162). -/
theorem State.SeqAligned.finishStep {s : State} (h : s.SeqAligned) (cia : Word) : (s.finishStep cia).SeqAligned := by
  unfold State.finishStep State.pollInterrupts
  split
  next => exact State.seqAligned_enter _ _ _ _
  next => exact h.of_eq (by simp) (by simp) (by simp)

/-- Stages 1 to 3 keep the alignment, whether they execute an instruction or raise. -/
theorem execFetched_seqAligned {s m : State} (hm : execFetched s = .next m) (h : s.SeqAligned)
    (heret : ¬s.Executes .eret) (hjr : ∀ rs, ¬s.Executes (.jr rs)) (hjalr : ∀ rd rs, ¬s.Executes (.jalr rd rs)) :
    m.SeqAligned := by
  rcases execFetched_next hm with ⟨i, hi, he⟩ | ⟨-, -, rfl⟩ | ⟨hpc, -⟩
  · have hfetched : s.fetched.SeqAligned := h.of_eq (by simp) (by simp) (by simp)
    refine he.seqAligned hfetched ?_ ?_ ?_
    · rintro rfl; exact heret hi
    · rintro rs rfl; exact hjr rs hi
    · rintro rd rs rfl; exact hjalr rd rs hi
  · exact State.seqAligned_enter _ _ _ _
  · exact absurd h.pc hpc

/-- Settles O18: stages 1 to 3 keep the alignment but for the three instructions, and stages 4 to 6 always. -/
theorem pcStaysAligned : Obligations.PcStaysAligned := by
  intro s t hpc htarget ht heret hjr hjalr
  obtain ⟨m, hm, rfl⟩ := step_next.mp ht
  have haligned := (execFetched_seqAligned hm ⟨hpc, htarget⟩ heret hjr hjalr).finishStep s.pc
  exact ⟨haligned.pc, haligned.target⟩

end Sys2Proof.Machine

/-! PROOFS. The statements of 46_system.md: the reserved word, SYSCALL and BREAK, the COP0 moves, and ERET. -/

namespace Sys2Proof.Machine

/-! ## Exceptions -/

/-- Stages 1 to 3 on a word that stands for no instruction: exception entry after the fetch (46_system.md R136). -/
theorem execFetched_of_reserved {s : State} (hpc : s.pc.toNat % 4 = 0)
    (hdecode : decode s.mips1Ext s.fetchWord = .reserved) :
    execFetched s = .next (s.fetched.enter .reservedInstruction s.pc 0#32) := by
  rw [execFetched, if_pos ((aligned_iff .word s.pc).mpr hpc), hdecode]
  change execReserved s.fetched = _
  rw [execReserved, State.raise, State.fetched_pc]

/-- Settles O6: the step is the entry of stages 1 to 3 and then stages 4 to 6. -/
theorem reservedWordRaises : Obligations.ReservedWordRaises := by
  intro s hpc hdecode
  exact ⟨_, step_next.mpr ⟨_, execFetched_of_reserved hpc hdecode, rfl⟩,
    enters_enter s.fetched .reservedInstruction s.pc 0#32⟩

/-- Settles O44: both instructions are `raise` of an exception that leaves BadVAddr. -/
theorem syscallAndBreak : Obligations.SyscallAndBreak :=
  fun _ => ⟨raises_of (e := .syscall) rfl rfl, raises_of (e := .brk) rfl rfl⟩

/-! ## COP0 writes -/

/-- An answer that is a COP0 write, but for the sequencer, changes that slot and nothing else (10_state.md R21). -/
theorem setsCop0_of_writeC0 {i : Instr} {s t : State} {n : Slot} {v : Word} {ends : State → State → Prop}
    (h : exec i s = .next t)
    (ht : t = { s.writeC0 n v with
      pc := t.pc, nextPC := t.nextPC, inDelaySlot := t.inDelaySlot, result := t.result })
    (hends : ends s t) : SetsCop0 i s n v ends := by
  have hread (m : Slot) : t.readC0 m = if m = n then v else s.readC0 m := by
    rw [ht]
    exact s.readC0_writeC0 n m v
  have hframe : SameRegs [] s t ∧ SameHiLo s t ∧ SameMemory s t ∧ SameDevices s t ∧ SameOutputs s t ∧
      SameConfig s t := by
    rw [ht]
    exact ⟨.of_eq rfl _, ⟨rfl, rfl⟩, .of_eq rfl rfl rfl, ⟨rfl, rfl⟩, ⟨rfl, rfl⟩, ⟨rfl, rfl⟩⟩
  obtain ⟨hregs, hhilo, hmemory, hdevices, houtputs, hconfig⟩ := hframe
  exact ⟨t, h, (hread n).trans (if_pos rfl), fun m hm => (hread m).trans (if_neg (List.ne_of_not_mem_cons hm)),
    hregs, hhilo, hmemory, hdevices, houtputs, hconfig, hends⟩

/-- Settles O45: MFC0 is a register write of the slot, MTC0 a slot write of the register. -/
theorem cop0Moves : Obligations.Cop0Moves :=
  fun _ _ _ => ⟨writesTo_of_writeResult rfl, setsCop0_of_writeC0 rfl rfl (goesOn_advance_of rfl rfl rfl)⟩

/-- Settles O46: ERET is a write of Status with bit 1 cleared, and sets the sequencer from EPC. -/
theorem eretReturns : Obligations.EretReturns := by
  intro s
  refine ⟨setBit s.status 1 false, fun j hj => ?_, setsCop0_of_writeC0 rfl rfl ⟨rfl, rfl, rfl, rfl⟩⟩
  rw [setBit_getLsbD _ _ _ _ hj]
  by_cases hexl : j = 1 <;> simp [hexl]

end Sys2Proof.Machine

/-! PROOFS. The statements of 48_mips1_extension.md: what the gate does to the decoder, DIVU, and the moves of HI and LO. -/

namespace Sys2Proof.Machine

/-! ## The gate -/

/-- A machine without the extension recognises no instruction that a machine with it does not, and none of the
extension's (48_mips1_extension.md R240). -/
theorem decode_true_of_decode_false {w : Word} {i : Instr} (h : decode false w = .instr i) :
    decode true w = .instr i ∧ i.isExt = false := by
  obtain ⟨hw, hwf⟩ := (decodeReadsUsedBitsOnly false w i).mp h
  exact ⟨(decodeReadsUsedBitsOnly true w i).mpr ⟨hw, rfl⟩, by simpa [Instr.wf] using hwf⟩

/-- The GTE's words are outside the gate (30_encoding.md R57). -/
theorem decode_gte_congr {w : Word} (ext ext' : Bool) (h : decode ext w = .gte) : decode ext' w = .gte :=
  (decode_gte_iff ext' w).mpr ((decode_gte_iff ext w).mp h)

/-- A word is reserved without the extension where no base instruction has it and it is not the GTE's. -/
theorem decode_false_eq_reserved {w : Word} (hbase : ∀ i, decode true w = .instr i → i.isExt = true)
    (hgte : decode true w ≠ .gte) : decode false w = .reserved := by
  cases h : decode false w with
  | instr i =>
    obtain ⟨hi, hext⟩ := decode_true_of_decode_false h
    rw [hbase i hi] at hext; cases hext
  | reserved => rfl
  | gte => exact absurd (decode_gte_congr false true h) hgte

/-- Settles O3: the instruction a word stands for does not depend on the gate, which only refuses the extension's. -/
theorem extensionGate : Obligations.ExtensionGate := by
  intro w
  refine ⟨fun i hi hext => ?_, fun i hi hbase => ?_, fun hres => ?_, decode_gte_congr true false⟩
  · refine decode_false_eq_reserved (fun j hj => ?_) (by rw [hi]; nofun)
    rw [hi] at hj; cases hj; exact hext
  · obtain ⟨hw, -⟩ := (decodeReadsUsedBitsOnly true w i).mp hi
    exact (decodeReadsUsedBitsOnly false w i).mpr ⟨hw, by simp [Instr.wf, hbase]⟩
  · exact decode_false_eq_reserved (by rw [hres]; nofun) (by rw [hres]; nofun)

/-! ## DIVU, and the moves -/

theorem exec_divu (s : State) (rs rt : Reg) : exec (.divu rs rt) s =
    divideResult s (s.readReg rt) (s.readReg rs % s.readReg rt) (s.readReg rs / s.readReg rt) := by
  simp only [exec, execDivu, ← BitVec.toNat_umod, ← BitVec.toNat_udiv, BitVec.ofNat_toNat, BitVec.setWidth_eq]

/-- Settles O28: DIVU ends by `divideResult`, on the quotient and remainder of the unsigned words. -/
theorem divideUnsigned : Obligations.DivideUnsigned := by
  intro s rs rt
  refine ⟨fun hdivisor => ⟨_, _, setsHiLo_of_divideResult (exec_divu s rs rt) hdivisor, ?_, ?_⟩,
    fun hzero => emits_of_divideResult_zero (exec_divu s rs rt) hzero⟩
  · rw [BitVec.toNat_udiv, BitVec.toNat_umod, Nat.div_add_mod']
  · rw [BitVec.toNat_umod]
    exact Nat.mod_lt _ (Nat.pos_of_ne_zero fun h => hdivisor (BitVec.eq_of_toNat_eq h))

/-- Settles O29: two register writes and two writes of the pair, one half of it kept. -/
theorem hiLoMoves : Obligations.HiLoMoves :=
  fun _ _ => ⟨writesTo_of_writeResult rfl, writesTo_of_writeResult rfl, setsHiLo_of rfl, setsHiLo_of rfl⟩

end Sys2Proof.Machine

/-! PROOFS. The statements of 60_exceptions.md: exception entry, SetIRQ, the interrupt poll, and which exception a step
reports. -/

namespace Sys2Proof.Machine

/-! ## Entry and SetIRQ -/

/-- Settles O47: the one entry operation, at each of the seven exceptions. -/
theorem exceptionEntry : Obligations.ExceptionEntry :=
  fun s epc bad => ⟨enters_enter s .interrupt epc bad, enters_enter s .addressErrorLoad epc bad,
    badVAddr_enter s .addressErrorLoad epc bad rfl, enters_enter s .addressErrorStore epc bad,
    badVAddr_enter s .addressErrorStore epc bad rfl, enters_enter s .syscall epc bad, enters_enter s .brk epc bad,
    enters_enter s .reservedInstruction epc bad, enters_enter s .integerOverflow epc bad⟩

/-- `SetIRQ` on one bit of Cause (60_exceptions.md R160). -/
theorem State.cause_setIRQ (s : State) (line : Fin 8) (b : Bool) {j : Nat} (hj : j < 32) :
    (s.setIRQ line b).cause.getLsbD j = if j = 8 + line.val then b else s.cause.getLsbD j := by
  rw [State.cause, State.readC0_setIRQ, if_pos rfl, setBit_getLsbD _ _ _ _ hj]

/-- Settles O48: the action is `setIRQ`, a write of one bit of one slot. -/
theorem setIrqWritesOneBit : Obligations.SetIrqWritesOneBit := by
  intro s line b
  refine ⟨s.setIRQ line b, rfl, fun j hj => s.cause_setIRQ line b hj, rfl, fun n hn => ?_⟩
  exact (s.readC0_setIRQ line b n).trans (if_neg (List.ne_of_not_mem_cons hn))

/-! ## The interrupt poll -/

/-- The poll delivers where IE is set, EXL clear and a line pending (60_exceptions.md R162, R164). -/
theorem State.finishStep_of_ready {m : State} (cia : Word)
    (h : m.markStepped.forceZero.tickTimers.interruptReady = true) :
    m.finishStep cia =
      m.markStepped.forceZero.tickTimers.enter .interrupt (if m.inDelaySlot then cia else m.pc) 0#32 := by
  rw [State.finishStep, State.pollInterrupts, if_pos h]
  simp only [State.tickTimers_inDelaySlot, State.tickTimers_pc, State.forceZero_inDelaySlot, State.forceZero_pc,
    State.markStepped_inDelaySlot, State.markStepped_pc]

theorem State.finishStep_of_not_ready {m : State} (cia : Word)
    (h : ¬m.markStepped.forceZero.tickTimers.interruptReady = true) :
    m.finishStep cia = m.markStepped.forceZero.tickTimers := if_neg h

/-- Settles O9: stage 6 on the state that stages 1 to 5 leave. -/
theorem interruptPoll : Obligations.InterruptPoll := by
  intro s m hm
  refine ⟨_, _, rfl, step_next.mpr ⟨m, hm, rfl⟩, fun hready => ?_, fun hnot => ?_⟩
  · rw [← State.interruptReady_iff] at hready
    rw [State.finishStep_of_ready s.pc hready]
    exact ⟨_, enters_enter _ .interrupt _ _⟩
  · rw [← State.interruptReady_iff] at hnot
    exact State.finishStep_of_not_ready s.pc hnot

/-! ## Which exception a step reports -/

/-- A step whose instruction raised nothing reports ok, or the interrupt its poll delivered (60_exceptions.md R164). -/
theorem State.finishStep_of_ok {m : State} (cia : Word) (h : m.result = .ok) :
    (m.finishStep cia).result = .ok ∨ ((m.finishStep cia).result = .exception .interrupt ∧
      (m.finishStep cia).epc = (if m.inDelaySlot then cia else m.pc) ∧ (m.finishStep cia).pc = 0x80000080#32 ∧
      (m.finishStep cia).inDelaySlot = false) := by
  by_cases hready : m.markStepped.forceZero.tickTimers.interruptReady = true
  · rw [State.finishStep_of_ready cia hready]
    obtain ⟨hepc, -, -, hpc, hslot, hresult, -⟩ := enters_enter m.markStepped.forceZero.tickTimers .interrupt
      (if m.inDelaySlot then cia else m.pc) 0#32
    exact .inr ⟨hresult, hepc, hpc, hslot⟩
  · rw [State.finishStep_of_not_ready cia hready]
    exact .inl (by simpa using h)

/-- Entry leaves no pending line in Cause (60_exceptions.md R152). -/
theorem State.enter_cause_line (s : State) (e : Exc) (epc bad : Word) (i : Fin 3) :
    (s.enter e epc bad).cause.getLsbD (11 + i.val) = false := by
  obtain ⟨-, hcause, -⟩ := enters_enter s e epc bad
  rw [hcause]
  revert i
  cases e <;> decide

/-- Where the instruction raised `e`, EXL keeps the poll from delivering, so the step reports `e`; a timer that matches
in the step leaves its line in the Cause that entry wrote (60_exceptions.md R157; 40_step_sequencer.md R67). -/
theorem State.finishStep_enter (f : State) (e : Exc) (epc bad cia : Word) :
    ((f.enter e epc bad).finishStep cia).result = .exception e ∧
    ((f.enter e epc bad).finishStep cia).pc = 0x80000080#32 ∧
    ((f.enter e epc bad).finishStep cia).status.getLsbD 1 = true ∧
    ((f.enter e epc bad).finishStep cia).epc = epc ∧
    ∀ i : Fin 3, ((f.enter e epc bad).finishStep cia).cause.getLsbD (11 + i.val) =
      (f.enter e epc bad).timers[i].tick.irqPending := by
  have hexl := f.enter_exl e epc bad
  obtain ⟨hepc, -⟩ := enters_enter f e epc bad
  rw [State.finishStep_of_exl hexl]
  refine ⟨by simp, by simp [Config.excVector], ?_, ?_, fun i => ?_⟩
  · rwa [State.tickTimers_status, State.forceZero_status, State.markStepped_status]
  · rwa [State.tickTimers_epc, State.forceZero_epc, State.markStepped_epc]
  · rw [State.cause_tickTimers_line, State.forceZero_cause, State.markStepped_cause, State.enter_cause_line,
      Bool.false_or, State.forceZero_timers, State.markStepped_timers]

/-- Settles O10: stages 1 to 3 end well, and the poll decides, or by exception entry, and the poll is held off. -/
theorem oneExceptionPerStep : Obligations.OneExceptionPerStep := by
  intro s m v hm hv
  obtain ⟨m', hm', rfl⟩ := step_next.mp hv
  obtain rfl : m = m' := by rw [hm] at hm'; exact Host.Outcome.next.inj hm'
  refine ⟨fun hok => ?_, fun hok hint => ?_, fun e he => ?_⟩
  · exact (State.finishStep_of_ok s.pc hok).imp_right And.left
  · rcases State.finishStep_of_ok s.pc hok with h | ⟨-, h⟩
    · rw [h] at hint; cases hint
    · exact h
  · rcases execFetched_result hm with hok | ⟨e', bad, f, -, rfl⟩
    · rw [hok] at he; cases he
    · rw [State.enter_result] at he
      obtain rfl := StepResult.exception.inj he
      exact f.finishStep_enter _ s.pc bad s.pc

end Sys2Proof.Machine

/-! PROOFS. The statements of 61_timers.md: the tick and the lines it asserts, the period of a timer, and the registers
on the bus. -/

namespace Sys2Proof.Machine

/-! ## The tick -/

/-- Stage 5 computes the timers from the timers alone. -/
theorem State.tickTimers_timers_congr {s t : State} (h : t.timers = s.timers) :
    t.tickTimers.timers = s.tickTimers.timers := by
  simp only [State.tickTimers, State.tickTimer_timers, h]

/-- A step ticks every timer once, whatever it executed (40_step_sequencer.md R60; 61_timers.md R185). -/
theorem State.finishStep_timers (m : State) (cia : Word) : (m.finishStep cia).timers = m.tickTimers.timers := by
  rw [State.finishStep, State.pollInterrupts_timers]
  exact State.tickTimers_timers_congr rfl

/-- Settles O49: the tick by the match of counter and target, and the line by the pending flag it leaves. -/
theorem timersTickAndAssert : Obligations.TimersTickAndAssert := by
  refine ⟨fun s m v hm hv => ?_, fun s => ⟨fun i => ?_, fun j hj hline => ?_, fun n hn => ?_, s.tickTimers_eq⟩⟩
  · obtain ⟨m', hm', rfl⟩ := step_next.mp hv
    obtain rfl : m = m' := by rw [hm] at hm'; exact Host.Outcome.next.inj hm'
    exact m.finishStep_timers s.pc
  · dsimp only
    rw [State.tickTimers_timer, State.cause_tickTimers_line]
    generalize s.timers[i] = t
    refine ⟨Timer.tick_target _, Timer.tick_mode _, rfl, fun hne => ?_, fun heq => ?_⟩
    · simp [Timer.tick_counter, Timer.tick_irqPending, hne]
    · simp [Timer.tick_counter, Timer.tick_irqPending, heq, Bool.or_assoc]
  · rw [State.cause_tickTimers _ _ hj]
    have h11 : j ≠ 11 := by omega
    have h12 : j ≠ 12 := by omega
    have h13 : j ≠ 13 := by omega
    simp [h11, h12, h13]
  · exact s.readC0_tickTimers (List.ne_of_not_mem_cons hn)

/-! ## The period -/

/-- A timer from one step to the next: the tick, its pending flag spent (61_timers.md R185, R186). -/
def Timer.next (t : Timer) : Timer := { t.tick with irqPending := false }

/-- A timer with ResetOnTarget and IRQEnabled, its counter below its target. -/
structure Timer.Periodic (t : Timer) : Prop where
  reset   : t.mode.getLsbD 4 = true
  irq     : t.mode.getLsbD 10 = true
  pending : t.irqPending = false
  below   : t.counter.toNat < t.target.toNat

/-- Below its target a counter does not wrap at 2^16. -/
theorem Timer.Periodic.succ_toNat {t : Timer} (h : t.Periodic) : (t.counter + 1#16).toNat = t.counter.toNat + 1 := by
  have := h.below
  have := t.target.isLt
  rw [BitVec.toNat_add, BitVec.toNat_ofNat]
  omega

theorem Timer.Periodic.matches_iff {t : Timer} (h : t.Periodic) :
    t.counter + 1#16 = t.target ↔ t.counter.toNat + 1 = t.target.toNat := by
  rw [← BitVec.toNat_inj, h.succ_toNat]

/-- The counter runs modulo the target (61_timers.md R187). -/
theorem Timer.Periodic.next_counter {t : Timer} (h : t.Periodic) :
    t.next.counter.toNat = (t.counter.toNat + 1) % t.target.toNat := by
  have hlt := h.below
  change t.tick.counter.toNat = _
  rw [Timer.tick_counter]
  by_cases hm : t.counter + 1#16 = t.target
  · rw [if_pos ⟨hm, h.reset⟩, h.matches_iff.mp hm, Nat.mod_self]; rfl
  · rw [if_neg fun hc => hm hc.1, h.succ_toNat, Nat.mod_eq_of_lt]
    rw [h.matches_iff] at hm
    omega

/-- The match, as a multiple of the target (61_timers.md R187). -/
theorem Timer.Periodic.tick_irqPending_iff {t : Timer} (h : t.Periodic) :
    t.tick.irqPending = true ↔ (t.counter.toNat + 1) % t.target.toNat = 0 := by
  have hlt := h.below
  rw [Timer.tick_irqPending, h.pending, h.irq, Bool.false_or, Bool.and_true, decide_eq_true_iff, h.matches_iff]
  constructor
  · rintro he; rw [he, Nat.mod_self]
  · intro h0
    exact Nat.le_antisymm hlt (Nat.le_of_dvd (Nat.succ_pos _) (Nat.dvd_of_mod_eq_zero h0))

theorem Timer.Periodic.next {t : Timer} (h : t.Periodic) : t.next.Periodic where
  reset := by rw [Timer.next, Timer.tick_mode]; exact h.reset
  irq := by rw [Timer.next, Timer.tick_mode]; exact h.irq
  pending := rfl
  below := by
    rw [h.next_counter, Timer.next, Timer.tick_target]
    exact Nat.mod_lt _ (Nat.zero_lt_of_lt h.below)

/-- Any number of ticks later. -/
theorem Timer.Periodic.iterate {t : Timer} (h : t.Periodic) (n : Nat) :
    (Timer.next^[n] t).Periodic ∧ (Timer.next^[n] t).target = t.target ∧
      (Timer.next^[n] t).counter.toNat = (t.counter.toNat + n) % t.target.toNat := by
  induction n with
  | zero => exact ⟨h, rfl, (Nat.mod_eq_of_lt h.below).symm⟩
  | succ n ih =>
    obtain ⟨hp, htarget, hcounter⟩ := ih
    rw [Function.iterate_succ_apply']
    refine ⟨hp.next, (Timer.tick_target _).trans htarget, ?_⟩
    rw [hp.next_counter, htarget, hcounter, Nat.mod_add_mod, Nat.add_assoc]

/-- Settles O50: the counter runs modulo the target for ever, and matches where it comes to a multiple of it. -/
theorem timerPeriod : Obligations.TimerPeriod := by
  intro t n hreset hirq hpending hbelow
  obtain ⟨hp, htarget, hcounter⟩ := Timer.Periodic.iterate ⟨hreset, hirq, hpending, hbelow⟩ n
  refine ⟨hcounter, hp.tick_irqPending_iff.trans ?_⟩
  rw [htarget, hcounter, Nat.mod_add_mod]

/-! ## The registers -/

section
variable (s : State) {a : Word} {i : Fin 3} {f : Nat} {n : Width}

theorem State.busRead_timer (h : region a = .timer i f) : s.busRead a n = s.timers[i].readField f n := by
  rw [State.busRead, h]

/-- A register reads without any other effect, and a write sets it and nothing else (61_timers.md R182). -/
theorem State.timer_register {v x : Word} {t : Timer} (h : region a = .timer i f)
    (hfield : s.timers[i].readField f n = some x ∧ s.timers[i].writeField f n v = some t) :
    s.memRead a n = x ∧ s.noteRead a n = s ∧ s.memWrite a n v = { s with timers := s.timers.set i t } := by
  obtain ⟨hread, hwrite⟩ := hfield
  have hbus : s.busRead a n = some x := (s.busRead_timer h).trans hread
  exact ⟨by simp [State.memRead, hbus], by simp [State.noteRead, hbus], by simp only [State.memWrite, h, hwrite]⟩

/-- What is no register of the window behaves as unmapped (61_timers.md R182). -/
theorem State.timer_unmapped (v : Word) (h : region a = .timer i f) (hr : s.timers[i].readField f n = none)
    (hw : s.timers[i].writeField f n v = none) : s.memRead a n = 0#32 ∧
      s.noteRead a n = s.emit (.unmappedRead a n.bytes) ∧
      s.memWrite a n v = s.emit (.unmappedWrite a n.bytes (lowBits n v)) := by
  have hbus : s.busRead a n = none := (s.busRead_timer h).trans hr
  exact ⟨State.memRead_of_busRead_none hbus, State.noteRead_of_busRead_none hbus, by simp only [State.memWrite, h, hw]⟩

end

/-- Which accesses to a timer's window reach no register (61_timers.md R181, R182). -/
theorem Timer.field_none (t : Timer) {f : Nat} {n : Width} (v : Word) (h : (f ≠ 0 ∧ f ≠ 4 ∧ f ≠ 8) ∨ n = .byte) :
    t.readField f n = none ∧ t.writeField f n v = none := by
  cases n with
  | byte => exact ⟨rfl, rfl⟩
  | half | word =>
    obtain ⟨h0, h4, h8⟩ := h.resolve_right (by simp)
    simp [Timer.readField, Timer.writeField, h0, h4, h8]

/-- An access wider than a byte, at the offset of a register (61_timers.md R182). -/
theorem Timer.field_some (t : Timer) {n : Width} (v : Word) (hn : n ≠ .byte) :
    (t.readField 0 n = some (t.counter.setWidth 32) ∧ t.writeField 0 n v = some { t with counter := v.setWidth 16 }) ∧
    (t.readField 4 n = some (t.mode.setWidth 32) ∧ t.writeField 4 n v = some { t with mode := v.setWidth 14 }) ∧
    (t.readField 8 n = some (t.target.setWidth 32) ∧ t.writeField 8 n v = some { t with target := v.setWidth 16 }) := by
  cases n with
  | byte => exact absurd rfl hn
  | half | word => exact ⟨⟨rfl, rfl⟩, ⟨rfl, rfl⟩, rfl, rfl⟩

/-- Settles O39: the three registers by their offsets, and every other access as unmapped. -/
theorem timerRegisters : Obligations.TimerRegisters := by
  intro s a v i f n hr
  refine ⟨?_, ?_, ?_, fun h => ?_⟩
  · rintro rfl hn
    obtain ⟨hcounter, -, -⟩ := s.timers[i].field_some v hn
    exact s.timer_register hr hcounter
  · rintro rfl hn
    obtain ⟨-, hmode, -⟩ := s.timers[i].field_some v hn
    exact s.timer_register hr hmode
  · rintro rfl hn
    obtain ⟨-, -, htarget⟩ := s.timers[i].field_some v hn
    exact s.timer_register hr htarget
  · obtain ⟨hread, hwrite⟩ := s.timers[i].field_none v h
    obtain ⟨hmem, hnote, hmemWrite⟩ := s.timer_unmapped v hr hread hwrite
    exact ⟨hmem, hnote, _, hmemWrite⟩

end Sys2Proof.Machine

/-! PROOFS. The statements of 62_gpu.md: the two ports, the parser, the commands, and the transfer from the CPU. -/

namespace Sys2Proof.Machine

/-! ## The ports -/

/-- The end of a transfer with `irqEnable` set asserts the GPU's line (62_gpu.md R203). -/
theorem State.completeTransfer_of_irqEnable {s : State} (h : s.gpu.irqEnable = true) : s.completeTransfer =
    { s with
      gpu := { s.gpu with xferState := .idle, irqFlag := true }
      render := s.render ++ [RenderEvent.updateVramTexture s.gpu.vram] }.setIRQ Config.gpuIrqLine true := if_pos h

theorem State.completeTransfer_of_not_irqEnable {s : State} (h : s.gpu.irqEnable = false) : s.completeTransfer =
    { s with
      gpu := { s.gpu with xferState := .idle }
      render := s.render ++ [RenderEvent.updateVramTexture s.gpu.vram] } := if_neg (by rw [h]; decide)

/-- What the end of a transfer leaves in the GPU and the streams (62_gpu.md R203). -/
theorem State.completeTransfer_gpu (s : State) : s.completeTransfer.gpu =
    { s.gpu with xferState := .idle, irqFlag := s.gpu.irqEnable || s.gpu.irqFlag } := by
  rcases Bool.eq_false_or_eq_true s.gpu.irqEnable with h | h
  · simp [State.completeTransfer_of_irqEnable h, h]
  · simp [State.completeTransfer_of_not_irqEnable h, h]

theorem State.completeTransfer_streams (s : State) : s.completeTransfer.diag = s.diag ∧
    s.completeTransfer.render = s.render ++ [.updateVramTexture s.gpu.vram] := by
  cases h : s.gpu.irqEnable with
  | true => rw [State.completeTransfer_of_irqEnable h]; exact ⟨rfl, rfl⟩
  | false => rw [State.completeTransfer_of_not_irqEnable h]; exact ⟨rfl, rfl⟩

/-- The end of a transfer touches no bit of Cause but that of the GPU's line. -/
theorem State.completeTransfer_cause (s : State) {j : Nat} (hj : j < 32) : s.completeTransfer.cause.getLsbD j =
    if j = 8 then s.gpu.irqEnable || s.cause.getLsbD 8 else s.cause.getLsbD j := by
  cases h : s.gpu.irqEnable with
  | true =>
    rw [State.completeTransfer_of_irqEnable h]
    exact State.cause_setIRQ _ Config.gpuIrqLine true hj
  | false =>
    rw [State.completeTransfer_of_not_irqEnable h, Bool.false_or]
    split
    next h8 => rw [h8]; rfl
    next => rfl

/-- A command word leaves every bit of Cause but that of the GPU's line (62_gpu.md R196). -/
theorem State.gpuWriteCommand_cause (s : State) (w : Word) {j : Nat} (hj : j < 32) (h8 : j ≠ 8) :
    (s.gpuWriteCommand w).cause.getLsbD j = s.cause.getLsbD j := by
  have complete (t : State) : t.completeTransfer.cause.getLsbD j = t.cause.getLsbD j := by
    rw [State.completeTransfer_cause t hj, if_neg h8]
  unfold State.gpuWriteCommand
  split
  · unfold State.gpuIdle; dsimp only
    split
    · rfl
    · split
      · rw [State.setQueue_cause, State.cause, State.readC0_gpuDispatch]; rfl
      · rfl
  · unfold State.gpuAwaiting; dsimp only
    split
    · split
      · rw [complete]; rfl
      · rfl
    · rfl
  · unfold State.gpuTransferring; dsimp only
    split
    · rw [complete]; rfl
    · rfl

/-- A command word touches nothing outside the GPU but the streams and its line (62_gpu.md R196). -/
theorem gpuOnly_gpuWriteCommand (s : State) (w : Word) : GpuOnly s (s.gpuWriteCommand w) :=
  ⟨by simp, ⟨by simp, by simp⟩, by simp, by simp, by simp,
    fun _ hn => s.readC0_gpuWriteCommand w (List.ne_of_not_mem_cons hn),
    fun _ hj h8 => s.gpuWriteCommand_cause w hj h8, .of_eq (by simp) (by simp) (by simp), by simp, by simp,
    by simp, by simp⟩

theorem State.gpuWriteControl_ack {s : State} {w : Word} (h : topByte w = Config.gp1IrqAck) : s.gpuWriteControl w =
    ({ s with gpu := { s.gpu with irqFlag := false } }).setIRQ Config.gpuIrqLine false := if_pos h

theorem State.gpuWriteControl_enable {s : State} {w : Word} (h : topByte w = Config.gp1IrqEnable) :
    s.gpuWriteControl w = { s with gpu := { s.gpu with irqEnable := true } } := by
  rw [State.gpuWriteControl, if_neg (by rw [h]; decide), if_pos h]

theorem State.gpuWriteControl_other {s : State} {w : Word} (hack : topByte w ≠ Config.gp1IrqAck)
    (henable : topByte w ≠ Config.gp1IrqEnable) : s.gpuWriteControl w = s := by
  rw [State.gpuWriteControl, if_neg hack, if_neg henable]

/-- Settles O51: every case of a command word touches Cause only to end a transfer, and of the control words only the
acknowledge touches it. -/
theorem portWordsTouchOnlyTheGpu : Obligations.PortWordsTouchOnlyTheGpu := by
  intro s w
  refine ⟨gpuOnly_gpuWriteCommand s w, fun hack => ?_, State.gpuWriteControl_enable, State.gpuWriteControl_other⟩
  rw [State.gpuWriteControl_ack hack]
  have hcause {j : Nat} (hj : j < 32) := State.cause_setIRQ { s with gpu := { s.gpu with irqFlag := false } }
    Config.gpuIrqLine false hj
  refine ⟨⟨rfl, ⟨rfl, rfl⟩, rfl, rfl, rfl, fun n hn => ?_, fun j hj h8 => (hcause hj).trans (if_neg h8),
    .of_eq rfl rfl rfl, rfl, rfl, rfl, rfl⟩, rfl, rfl, rfl, (hcause (by decide)).trans (if_pos rfl)⟩
  exact (State.readC0_setIRQ _ _ _ n).trans (if_neg (List.ne_of_not_mem_cons hn))

/-! ## Packets -/

/-- Settles O58: the three cases of a word in Idle. -/
theorem setupWordRestartsParser : Obligations.SetupWordRestartsParser := by
  intro s w hidle
  refine ⟨State.gpuWriteCommand_setup hidle, State.gpuWriteCommand_queue hidle, fun hw hl => ?_⟩
  rw [State.gpuWriteCommand_dispatch hidle hw hl]
  exact ⟨rfl, (s.gpuDispatch_xferState _).trans hidle⟩

/-- No command reads or writes the queue (62_gpu.md R204). -/
theorem State.gpuDispatch_setQueue (s : State) (q p : List Word) :
    (s.setQueue q).gpuDispatch p = (s.gpuDispatch p).setQueue q := by
  simp only [State.gpuDispatch, apply_ite fun t : State => t.setQueue q]
  rfl

theorem State.setQueue_setQueue (s : State) (q p : List Word) : (s.setQueue q).setQueue p = s.setQueue p := rfl

theorem State.setQueue_self {s : State} {q : List Word} (h : s.gpu.queue = q) : s.setQueue q = s := by
  subst h; rfl

theorem State.gpuWriteCommands_cons (s : State) (w : Word) (ws : List Word) :
    s.gpuWriteCommands (w :: ws) = (s.gpuWriteCommand w).gpuWriteCommands ws := rfl

theorem State.gpuWriteCommands_append (s : State) (us ws : List Word) :
    s.gpuWriteCommands (us ++ ws) = (s.gpuWriteCommands us).gpuWriteCommands ws := List.foldl_append

/-- The words that complete the packet begun in the queue execute it and empty the queue (62_gpu.md R198, R204). -/
theorem State.gpuWriteCommands_rest {s : State} {w : Word} {ws : List Word} (hidle : s.gpu.xferState = .idle)
    (hws : ∀ u ∈ w :: ws, topByte u ≠ Config.opXferSetup)
    (hl : (s.gpu.queue ++ w :: ws).length = packetLength (topByte (packetWord (s.gpu.queue ++ w :: ws) 0))) :
    s.gpuWriteCommands (w :: ws) = (s.gpuDispatch (s.gpu.queue ++ w :: ws)).setQueue [] := by
  obtain ⟨hw, hrest⟩ := List.forall_mem_cons.mp hws
  induction ws generalizing s w with
  | nil => exact State.gpuWriteCommand_dispatch hidle hw hl
  | cons u us ih =>
    have hassoc : s.gpu.queue ++ w :: u :: us = (s.gpu.queue ++ [w]) ++ u :: us := by simp
    have hhead : packetWord (s.gpu.queue ++ w :: u :: us) 0 = packetWord (s.gpu.queue ++ [w]) 0 := by
      cases s.gpu.queue <;> rfl
    have hshort : (s.gpu.queue ++ [w]).length ≠ packetLength (topByte (packetWord (s.gpu.queue ++ [w]) 0)) := by
      rw [← hhead, ← hl, hassoc, List.length_append (bs := u :: us), List.length_cons]
      omega
    obtain ⟨hu, hus⟩ := List.forall_mem_cons.mp hrest
    rw [State.gpuWriteCommands_cons, State.gpuWriteCommand_queue hidle hw hshort,
      ih (s := s.setQueue (s.gpu.queue ++ [w])) hidle hrest (by rw [State.setQueue_gpu, ← hassoc]; exact hl) hu hus,
      State.gpuDispatch_setQueue, State.setQueue_setQueue, State.setQueue_gpu, hassoc]

/-- A whole packet, from an empty Idle parser: the command, and nothing else. -/
theorem State.gpuWriteCommands_packet {s : State} {w : Word} {ws : List Word} (hidle : s.gpu.xferState = .idle)
    (hqueue : s.gpu.queue = []) (hws : ∀ u ∈ w :: ws, topByte u ≠ Config.opXferSetup)
    (hl : (w :: ws).length = packetLength (topByte w)) : s.gpuWriteCommands (w :: ws) = s.gpuDispatch (w :: ws) := by
  rw [State.gpuWriteCommands_rest hidle hws (by rw [hqueue]; exact hl), hqueue, List.nil_append]
  exact State.setQueue_self ((s.gpuDispatch_queue _).trans hqueue)

/-! ## Dispatch by opcode -/

section
variable (s : State) {q : List Word}

theorem State.gpuDispatch_nop (h : topByte (packetWord q 0) = Config.opNop) : s.gpuDispatch q = s := if_pos h

theorem State.gpuDispatch_fill (h : topByte (packetWord q 0) = Config.opFill) : s.gpuDispatch q = s.gpuFill q := by
  rw [State.gpuDispatch, h]; rfl

theorem State.gpuDispatch_triFlat (h : topByte (packetWord q 0) = Config.opTriFlat) :
    s.gpuDispatch q = s.gpuFlatTriangle q := by
  rw [State.gpuDispatch, h]; rfl

theorem State.gpuDispatch_triTex (h : topByte (packetWord q 0) = Config.opTriTex) :
    s.gpuDispatch q = s.gpuTexturedTriangle q := by
  rw [State.gpuDispatch, h]; rfl

theorem State.gpuDispatch_vramCopy (h : topByte (packetWord q 0) = Config.opVramCopy) :
    s.gpuDispatch q = s.gpuCopy q := by
  rw [State.gpuDispatch, h]; rfl

theorem State.gpuDispatch_areaTL (h : topByte (packetWord q 0) = Config.opAreaTL) :
    s.gpuDispatch q = s.gpuAreaTopLeft (packetWord q 0) := by
  rw [State.gpuDispatch, h]; rfl

theorem State.gpuDispatch_areaBR (h : topByte (packetWord q 0) = Config.opAreaBR) :
    s.gpuDispatch q = s.gpuAreaBottomRight (packetWord q 0) := by
  rw [State.gpuDispatch, h]; rfl

theorem State.gpuDispatch_offset (h : topByte (packetWord q 0) = Config.opOffset) :
    s.gpuDispatch q = s.gpuDrawOffset (packetWord q 0) := by
  rw [State.gpuDispatch, h]; rfl

theorem State.gpuDispatch_mask (h : topByte (packetWord q 0) = Config.opMask) :
    s.gpuDispatch q = s.gpuMaskBit (packetWord q 0) := by
  rw [State.gpuDispatch, h]; rfl

/-- The opcodes of 62_gpu.md R204, the setup of a transfer included. -/
def gpuOpcodes : List Byte :=
  [Config.opNop, Config.opFill, Config.opTriFlat, Config.opTriTex, Config.opVramCopy, Config.opXferSetup,
    Config.opAreaTL, Config.opAreaBR, Config.opOffset, Config.opMask]

/-- An unknown opcode is logged and dropped (62_gpu.md R210). -/
theorem State.gpuDispatch_unknown (h : topByte (packetWord q 0) ∉ gpuOpcodes) :
    s.gpuDispatch q = s.emit (.unknownGpuOpcode (packetWord q 0)) := by
  simp only [gpuOpcodes, List.mem_cons, not_or] at h
  simp [State.gpuDispatch, h]

/-- Whatever does not stand in the table of 62_gpu.md R198 is a packet of one word. -/
theorem packetLength_unknown {op : Byte} (h : op ∉ gpuOpcodes) : packetLength op = 1 := by
  simp only [gpuOpcodes, List.mem_cons, not_or] at h
  simp [packetLength, h]

end

/-! ## The commands -/

/-- The fill colour, as the channels' top bits joined (62_gpu.md R206). -/
theorem fillColour_eq (c : Word) :
    fillColour c = (0#1 ++ c.extractLsb' 19 5 ++ c.extractLsb' 11 5 ++ c.extractLsb' 3 5 : BitVec 16) := by
  unfold fillColour
  generalize c.extractLsb' 19 5 = blue
  generalize c.extractLsb' 11 5 = green
  generalize c.extractLsb' 3 5 = red
  ext j hj
  simp only [BitVec.getElem_or, BitVec.getElem_shiftLeft, BitVec.getElem_setWidth]
  grind

/-- A packet of three words whose parameters do not restart the parser. -/
theorem State.gpuWriteCommands_three {s : State} {w0 w1 w2 : Word} (hidle : s.gpu.xferState = .idle)
    (hqueue : s.gpu.queue = []) (h0 : topByte w0 = Config.opFill ∨ topByte w0 = Config.opVramCopy)
    (h1 : topByte w1 ≠ Config.opXferSetup) (h2 : topByte w2 ≠ Config.opXferSetup) :
    s.gpuWriteCommands [w0, w1, w2] = s.gpuDispatch [w0, w1, w2] := by
  have h0' : topByte w0 ≠ Config.opXferSetup := by rcases h0 with h | h <;> rw [h] <;> decide
  refine State.gpuWriteCommands_packet hidle hqueue (by simp [h0', h1, h2]) ?_
  rcases h0 with h | h <;> rw [h] <;> rfl

/-- Settles O55: the packet is `fillRect`, which leaves the colour in its rectangle. -/
theorem fillWritesItsRectangle : Obligations.FillWritesItsRectangle := by
  intro s w0 w1 w2 X Y W H p t hidle hqueue h0 h1 h2 hwf
  have ht : t = s.gpuFill [w0, w1, w2] :=
    (State.gpuWriteCommands_three hidle hqueue (.inl h0) h1 h2).trans (s.gpuDispatch_fill h0)
  refine ⟨fun x y hx hy => ?_, by rw [ht]; rfl⟩
  rw [ht]
  refine ((fillRect_spec hwf (fillColour w0) X Y W H).2 x y hx hy).trans ?_
  rw [fillColour_eq]
  rfl

/-- Settles O56: the packet is `copyRect`, whose two loops are one loop of pixel steps. -/
theorem copyMovesPixels : Obligations.CopyMovesPixels := by
  refine ⟨fun s w0 w1 w2 hidle hqueue h0 h1 h2 =>
      (State.gpuWriteCommands_three hidle hqueue (.inr h0) h1 h2).trans (s.gpuDispatch_vramCopy h0),
    fun g f hwf => ⟨⟨copySteps f g.vram, rfl, copySteps_all f g.vram, fun n _ => ?_⟩, fun hapart x y => ?_⟩⟩
  · exact fun x y => copySteps_succ hwf f n
  · exact copyRect_spec hwf f hapart

/-- A packet of one word (62_gpu.md R198). -/
theorem State.gpuWriteCommand_single {s : State} {w : Word} (hidle : s.gpu.xferState = .idle)
    (hqueue : s.gpu.queue = []) (hw : topByte w ≠ Config.opXferSetup) (hl : packetLength (topByte w) = 1) :
    s.gpuWriteCommand w = s.gpuDispatch [w] :=
  State.gpuWriteCommands_packet (ws := []) hidle hqueue (by simpa using hw) hl.symm

/-- Settles O57: each packet, of one, four or seven words, is its command. -/
theorem commandsWithoutVram : Obligations.CommandsWithoutVram := by
  intro s w w1 w2 w3 w4 w5 w6 hidle hqueue op t v
  have single {b : Byte} (hop : topByte w = b) (hb : b ≠ Config.opXferSetup) (hl : packetLength b = 1) :
      t = s.gpuDispatch [w] := State.gpuWriteCommand_single hidle hqueue (hop ▸ hb) (hop ▸ hl)
  have words {b : Byte} {ws : List Word} (hop : topByte w = b) (hb : b ≠ Config.opXferSetup)
      (hws : ∀ u ∈ ws, topByte u ≠ Config.opXferSetup) (hl : (w :: ws).length = packetLength b) :
      s.gpuWriteCommands (w :: ws) = s.gpuDispatch (w :: ws) :=
    State.gpuWriteCommands_packet hidle hqueue (List.forall_mem_cons.mpr ⟨hop ▸ hb, hws⟩) (hop ▸ hl)
  refine ⟨fun h => ?_, fun h => ?_, fun h => ?_, fun h => ?_, fun h => ?_, fun h => ?_, fun h hws => ?_,
    fun h hws => ?_⟩
  · exact (single h (by decide) (by decide)).trans (s.gpuDispatch_areaTL h)
  · exact (single h (by decide) (by decide)).trans (s.gpuDispatch_areaBR h)
  · exact (single h (by decide) (by decide)).trans (s.gpuDispatch_offset h)
  · exact (single h (by decide) (by decide)).trans (s.gpuDispatch_mask h)
  · exact (single h (by decide) (by decide)).trans (s.gpuDispatch_nop h)
  · refine (single rfl ?_ (packetLength_unknown h)).trans (s.gpuDispatch_unknown h)
    exact fun hsetup => h (show topByte w ∈ gpuOpcodes by rw [hsetup]; decide)
  · exact (words h (by decide) hws rfl).trans (s.gpuDispatch_triFlat h)
  · refine (words h (by decide) hws rfl).trans ((s.gpuDispatch_triTex (q := [w, w1, w2, w3, w4, w5, w6]) h).trans ?_)
    rw [State.gpuTexturedTriangle, State.render1, State.render1, List.append_assoc]
    rfl

/-! ## One data word of a transfer -/

/-- Settles O54: the data word writes its two pixels and moves the cursor; the end of the transfer touches neither. -/
theorem transferWordWritesTwoPixels : Obligations.TransferWordWritesTwoPixels := by
  intro s w g px py t hs hwf
  have ht : t = _ := State.gpuWriteCommand_data hs
  dsimp only at ht
  have hpixel (x y : Nat) (hx : x < 1024) := transferWord_pixel hwf w (y := y) hx
  split at ht
  next hlast =>
    rw [ht]
    refine ⟨fun x y hx _ => ?_, ?_, ?_, ?_⟩
    · rw [Gpu.pixel_eq, State.completeTransfer_vram]
      exact hpixel x y hx
    · rw [State.completeTransfer_gpu]; rfl
    · rw [State.completeTransfer_queue]; rfl
    · exact iff_of_true (State.completeTransfer_xferState _) hlast
  next hmore =>
    rw [ht]
    refine ⟨fun x y hx _ => hpixel x y hx, rfl, rfl, iff_of_false ?_ hmore⟩
    intro hidle
    cases hs.symm.trans hidle

/-! ## A whole transfer -/

/-- The transfer's data words, before the parser asks whether it is complete (62_gpu.md R201). -/
def Gpu.transferWords (g : Gpu) (ws : List Word) : Gpu := ws.foldl Gpu.transferWord g

def State.transferWords (s : State) (ws : List Word) : State := { s with gpu := s.gpu.transferWords ws }

/-- The machine as the second descriptor leaves it (62_gpu.md R199, R200). -/
def State.beginTransfer (s : State) (w1 w2 : Word) : State := { s with gpu := s.gpu.beginTransfer w1 w2 }

theorem Gpu.transferWords_concat (g : Gpu) (ws : List Word) (w : Word) :
    g.transferWords (ws ++ [w]) = (g.transferWords ws).transferWord w := List.foldl_concat ..

/-- Data words change VRAM and the cursor only. -/
theorem Gpu.transferWords_eq (g : Gpu) (ws : List Word) : g.transferWords ws =
    { g with vram := (g.transferWords ws).vram, cursor := (g.transferWords ws).cursor } := by
  induction ws using List.reverseRecOn with
  | nil => rfl
  | append_singleton ws w ih => rw [Gpu.transferWords_concat, Gpu.transferWord, ih]

/-- No transfer is long enough for the cursor to wrap: `xferW * xferH` is below 2^32 - 2 (log 19). -/
theorem Gpu.xferPixels_lt (g : Gpu) : g.xferPixels + 2 < 2 ^ 32 := by
  have hw := g.xferW.isLt
  have hh := g.xferH.isLt
  have : g.xferPixels ≤ 65535 * 65535 := Nat.mul_le_mul (by omega) (by omega)
  omega

/-- The cursor moves by two with each word (62_gpu.md R201). -/
theorem Gpu.transferWords_cursor {g : Gpu} {ws : List Word} (h : g.cursor.toNat + 2 * ws.length < 2 ^ 32) :
    (g.transferWords ws).cursor.toNat = g.cursor.toNat + 2 * ws.length := by
  induction ws using List.reverseRecOn with
  | nil => rfl
  | append_singleton ws w ih =>
    rw [List.length_append, List.length_singleton] at h ⊢
    rw [Gpu.transferWords_concat]
    change ((g.transferWords ws).cursor + 2#32).toNat = _
    rw [BitVec.toNat_add, ih (by omega), show (2#32).toNat = 2 from rfl]
    omega

section
variable {s : State} {ws : List Word} (hs : s.gpu.xferState = .transferringPixels)
include hs

theorem State.transferWords_xferState : (s.transferWords ws).gpu.xferState = .transferringPixels :=
  (congrArg Gpu.xferState (s.gpu.transferWords_eq ws)).trans hs

/-- One word after others that did not complete the transfer. -/
theorem State.gpuWriteCommand_transferWords {w : Word} (h : s.gpu.cursor.toNat + 2 * ws.length < s.gpu.xferPixels) :
    (s.transferWords ws).gpuWriteCommand w =
      if s.gpu.xferPixels ≤ s.gpu.cursor.toNat + 2 * ws.length + 2 then (s.transferWords (ws ++ [w])).completeTransfer
      else s.transferWords (ws ++ [w]) := by
  have hsize := s.gpu.xferPixels_lt
  have hcursor : (s.gpu.transferWords (ws ++ [w])).cursor.toNat = s.gpu.cursor.toNat + 2 * ws.length + 2 := by
    rw [Gpu.transferWords_cursor (by simp; omega), List.length_append, List.length_singleton]; omega
  have hpixels : (s.gpu.transferWords (ws ++ [w])).xferPixels = s.gpu.xferPixels := by rw [Gpu.transferWords_eq]; rfl
  rw [State.gpuWriteCommand_data (State.transferWords_xferState hs), ← hcursor, ← hpixels, State.transferWords,
    State.transferWords, Gpu.transferWords_concat]

/-- While pixels are left to write, the parser takes data words (62_gpu.md R201). -/
theorem State.gpuWriteCommands_incomplete (h : s.gpu.cursor.toNat + 2 * ws.length < s.gpu.xferPixels) :
    s.gpuWriteCommands ws = s.transferWords ws := by
  induction ws using List.reverseRecOn with
  | nil => rfl
  | append_singleton ws w ih =>
    rw [List.length_append, List.length_singleton] at h
    rw [State.gpuWriteCommands_append, ih (by omega)]
    exact (State.gpuWriteCommand_transferWords hs (by omega)).trans (if_neg (by omega))

/-- The word that writes the last pixel completes the transfer (62_gpu.md R202). -/
theorem State.gpuWriteCommands_complete (hpos : s.gpu.cursor.toNat < s.gpu.xferPixels)
    (hmin : s.gpu.xferPixels ≤ s.gpu.cursor.toNat + 2 * ws.length)
    (hmax : s.gpu.cursor.toNat + 2 * ws.length < s.gpu.xferPixels + 2) :
    s.gpuWriteCommands ws = (s.transferWords ws).completeTransfer := by
  rcases List.eq_nil_or_concat' ws with rfl | ⟨us, w, rfl⟩
  · rw [List.length_nil] at hmin; omega
  · rw [List.length_append, List.length_singleton] at hmin hmax
    rw [State.gpuWriteCommands_append, State.gpuWriteCommands_incomplete hs (by omega)]
    exact (State.gpuWriteCommand_transferWords hs (by omega)).trans (if_pos (by omega))

end

/-- The setup word and the two descriptors (62_gpu.md R198 to R200). -/
theorem State.gpuWriteCommands_begin {s : State} {setup w1 w2 : Word} (ws : List Word) (hidle : s.gpu.xferState = .idle)
    (hsetup : topByte setup = Config.opXferSetup) : s.gpuWriteCommands (setup :: w1 :: w2 :: ws) =
      (if (s.beginTransfer w1 w2).gpu.xferPixels = 0 then (s.beginTransfer w1 w2).completeTransfer
        else s.beginTransfer w1 w2).gpuWriteCommands ws := by
  have hawait : (s.gpuWriteCommand setup).gpuWriteCommand w1 =
      { s with gpu := { s.gpu with queue := [setup, w1], xferState := .awaitingTransferSetup } } := by
    rw [State.gpuWriteCommand_setup hidle hsetup]
    exact State.gpuWriteCommand_await rfl (show 1 ≠ 2 by decide)
  rw [State.gpuWriteCommands_cons, State.gpuWriteCommands_cons, State.gpuWriteCommands_cons, hawait,
    State.gpuWriteCommand_begin rfl rfl]
  rfl

section
variable {s : State} {setup w1 w2 : Word} {data : List Word} (hidle : s.gpu.xferState = .idle)
  (hsetup : topByte setup = Config.opXferSetup)
include hidle hsetup

theorem State.gpuWriteCommands_transfer_incomplete (h : 2 * data.length < (s.beginTransfer w1 w2).gpu.xferPixels) :
    (s.gpuWriteCommands (setup :: w1 :: w2 :: data)).gpu.xferState = .transferringPixels := by
  rw [State.gpuWriteCommands_begin data hidle hsetup, if_neg (by omega)]
  rw [State.gpuWriteCommands_incomplete rfl (by rwa [← Nat.zero_add (2 * _)] at h)]
  exact State.transferWords_xferState rfl

theorem State.gpuWriteCommands_transfer_complete (hpos : 0 < (s.beginTransfer w1 w2).gpu.xferPixels)
    (hmin : (s.beginTransfer w1 w2).gpu.xferPixels ≤ 2 * data.length)
    (hmax : 2 * data.length < (s.beginTransfer w1 w2).gpu.xferPixels + 2) :
    s.gpuWriteCommands (setup :: w1 :: w2 :: data) = ((s.beginTransfer w1 w2).transferWords data).completeTransfer := by
  rw [State.gpuWriteCommands_begin data hidle hsetup, if_neg (by omega)]
  rw [← Nat.zero_add (2 * _)] at hmin hmax
  exact State.gpuWriteCommands_complete rfl hpos hmin hmax

end

/-- Settles O53: the parser counts pixels two by two, so the word that passes the last one is number `ceil(N / 2)`. -/
theorem transferLength : Obligations.TransferLength := by
  intro s setup w1 w2 data N hidle hsetup
  have hN : (s.beginTransfer w1 w2).gpu.xferPixels = N := rfl
  refine ⟨fun hlt => ?_, fun heq => ?_⟩
  · exact State.gpuWriteCommands_transfer_incomplete hidle hsetup (by omega)
  · rcases Nat.eq_zero_or_pos N with h0 | hpos
    · have hnil : data = [] := List.eq_nil_of_length_eq_zero (by omega)
      rw [State.gpuWriteCommands_begin data hidle hsetup, if_pos (hN.trans h0), hnil]
      exact State.completeTransfer_xferState _
    · rw [State.gpuWriteCommands_transfer_complete hidle hsetup (by omega) (by omega) (by omega)]
      exact State.completeTransfer_xferState _

/-! ## The rectangle of a transfer -/

/-- Pixel `n` of the words of a transfer, the low half of each word first (62_gpu.md R201). -/
def halfAt (ws : List Word) (n : Nat) : Pixel :=
  if n % 2 = 0 then lowHalf (ws.getD (n / 2) 0#32) else highHalf (ws.getD (n / 2) 0#32)

theorem halfAt_even (ws : List Word) (k : Nat) : halfAt ws (2 * k) = lowHalf (ws.getD k 0#32) := by
  rw [halfAt, if_pos (by omega), show 2 * k / 2 = k by omega]

theorem halfAt_odd (ws : List Word) (k : Nat) : halfAt ws (2 * k + 1) = highHalf (ws.getD k 0#32) := by
  rw [halfAt, if_neg (by omega), show (2 * k + 1) / 2 = k by omega]

theorem halfAt_append (ws us : List Word) {n : Nat} (h : n < 2 * ws.length) : halfAt (ws ++ us) n = halfAt ws n := by
  rw [halfAt, halfAt, List.getD_append _ _ _ _ (by omega)]

/-- In rows of even width the two pixels of a word stand side by side. -/
theorem succ_row_column {W : Nat} (hW : W % 2 = 0) (hpos : 0 < W) (k : Nat) :
    (2 * k + 1) % W = 2 * k % W + 1 ∧ (2 * k + 1) / W = 2 * k / W ∧ 2 * k % W + 1 < W := by
  have hlt := Nat.mod_lt (2 * k) hpos
  have hsplit := Nat.div_add_mod (2 * k) W
  have heven : 2 * k % W % 2 = 0 := by
    rw [Nat.mod_mod_of_dvd _ (Nat.dvd_of_mod_eq_zero hW)]; omega
  have hin : 2 * k % W + 1 < W := by omega
  have hsucc : 2 * k + 1 = 2 * k % W + 1 + W * (2 * k / W) := by omega
  refine ⟨?_, ?_, hin⟩
  · rw [hsucc, Nat.add_mul_mod_self_left, Nat.mod_eq_of_lt hin]
  · rw [hsucc, Nat.add_mul_div_left _ _ hpos, Nat.div_eq_of_lt hin, Nat.zero_add]

/-- A transfer of an even width inside VRAM, about to take its first data word. -/
structure Gpu.Fits (g : Gpu) : Prop where
  even   : g.xferW.toNat % 2 = 0
  width  : g.xferX.toNat + g.xferW.toNat ≤ 1024
  height : g.xferY.toNat + g.xferH.toNat ≤ 512
  start  : g.cursor = 0#32
  wf     : vramWf g.vram

/-- Pixel `n` of the transfer's rectangle, row by row, is at `(x, y)` (62_gpu.md R201). -/
abbrev Gpu.At (g : Gpu) (n x y : Nat) : Prop :=
  x = g.xferX.toNat + n % g.xferW.toNat ∧ y = g.xferY.toNat + n / g.xferW.toNat

theorem Gpu.At.inj {g : Gpu} {n m x y : Nat} (h : g.At n x y) (h' : g.At m x y) : n = m := by
  obtain ⟨hx, hy⟩ := h
  obtain ⟨hx', hy'⟩ := h'
  rw [← Nat.div_add_mod n g.xferW.toNat, ← Nat.div_add_mod m g.xferW.toNat,
    show n % g.xferW.toNat = m % g.xferW.toNat by omega, show n / g.xferW.toNat = m / g.xferW.toNat by omega]

/-- The pixels of the transfer are those of its rectangle. -/
theorem Gpu.At.mem_rect {g : Gpu} {n x y : Nat} (h : g.At n x y) (hn : n < g.xferPixels) :
    g.xferX.toNat ≤ x ∧ x < g.xferX.toNat + g.xferW.toNat ∧ g.xferY.toNat ≤ y ∧ y < g.xferY.toNat + g.xferH.toNat := by
  obtain ⟨rfl, rfl⟩ := h
  have hrow : n / g.xferW.toNat < g.xferH.toNat := Nat.div_lt_of_lt_mul hn
  have hcolumn : n % g.xferW.toNat < g.xferW.toNat :=
    Nat.mod_lt _ (Nat.pos_of_mul_pos_right (Nat.zero_lt_of_lt hn))
  exact ⟨Nat.le_add_right _ _, Nat.add_lt_add_left hcolumn _, Nat.le_add_right _ _, Nat.add_lt_add_left hrow _⟩

section
variable {g : Gpu} (hfit : g.Fits) {ws : List Word}
include hfit

/-- The pixels of one more word: nothing saturates, and the second is the next of the rectangle. -/
theorem Gpu.Fits.pixel_concat (w : Word) (h : 2 * ws.length < g.xferPixels) (hwf : vramWf (g.transferWords ws).vram)
    {x y : Nat} (hx : x < 1024) : vramPixel (g.transferWords (ws ++ [w])).vram x y =
      if g.At (2 * ws.length + 1) x y then highHalf w
      else if g.At (2 * ws.length) x y then lowHalf w
      else vramPixel (g.transferWords ws).vram x y := by
  have hsize := g.xferPixels_lt
  have hcursor : (g.transferWords ws).cursor.toNat = 2 * ws.length := by
    rw [Gpu.transferWords_cursor (by rw [hfit.start]; simp; omega), hfit.start]; simp
  obtain ⟨hmod, hdiv, hin⟩ := succ_row_column hfit.even (Nat.pos_of_mul_pos_right (Nat.zero_lt_of_lt h)) ws.length
  have hrow : 2 * ws.length / g.xferW.toNat < g.xferH.toNat := Nat.div_lt_of_lt_mul h
  have hwidth := hfit.width
  have hheight := hfit.height
  have hsecond : min (g.xferX.toNat + 2 * ws.length % g.xferW.toNat + 1) 1023 =
      g.xferX.toNat + (2 * ws.length + 1) % g.xferW.toNat := by rw [hmod]; omega
  have hfirst : min (g.xferX.toNat + 2 * ws.length % g.xferW.toNat) 1023 =
      g.xferX.toNat + 2 * ws.length % g.xferW.toNat := by omega
  have hline : min (g.xferY.toNat + 2 * ws.length / g.xferW.toNat) 511 =
      g.xferY.toNat + 2 * ws.length / g.xferW.toNat := by omega
  have hpixel := transferWord_pixel hwf w (y := y) hx
  rw [hcursor, congrArg Gpu.xferX (g.transferWords_eq ws), congrArg Gpu.xferY (g.transferWords_eq ws),
    congrArg Gpu.xferW (g.transferWords_eq ws)] at hpixel
  dsimp only at hpixel
  rw [hsecond, hfirst, hline] at hpixel
  simp only [Gpu.transferWords_concat, hpixel, Gpu.At, hdiv]

/-- The words written so far fill the first pixels of the rectangle, and leave every other pixel. -/
theorem Gpu.Fits.pixels (h : 2 * ws.length ≤ g.xferPixels) : vramWf (g.transferWords ws).vram ∧
    ∀ x y, x < 1024 →
      (∀ n, n < 2 * ws.length → g.At n x y → vramPixel (g.transferWords ws).vram x y = halfAt ws n) ∧
      ((∀ n, n < 2 * ws.length → ¬g.At n x y) → vramPixel (g.transferWords ws).vram x y = vramPixel g.vram x y) := by
  induction ws using List.reverseRecOn with
  | nil => exact ⟨hfit.wf, fun x y _ => ⟨fun n hn => absurd hn (by simp), fun _ => rfl⟩⟩
  | append_singleton ws w ih =>
    rw [List.length_append, List.length_singleton] at h ⊢
    obtain ⟨hwf, hpixels⟩ := ih (by omega)
    refine ⟨by rw [Gpu.transferWords_concat]; exact transferWord_wf hwf w, fun x y hx => ?_⟩
    obtain ⟨hinside, houtside⟩ := hpixels x y hx
    rw [hfit.pixel_concat w (by omega) hwf hx]
    have hlast : (ws ++ [w]).getD ws.length 0#32 = w := by simp
    refine ⟨fun n hn hat => ?_, fun hnone => ?_⟩
    · rcases (by omega : n = 2 * ws.length + 1 ∨ n = 2 * ws.length ∨ n < 2 * ws.length) with rfl | rfl | hlt
      · rw [if_pos hat, halfAt_odd, hlast]
      · rw [if_neg fun hc => absurd (hat.inj hc) (by omega), if_pos hat, halfAt_even, hlast]
      · rw [if_neg fun hc => absurd (hat.inj hc) (by omega), if_neg fun hc => absurd (hat.inj hc) (by omega),
          hinside n hlt hat, halfAt_append ws [w] hlt]
    · rw [if_neg (hnone _ (by omega)), if_neg (hnone _ (by omega))]
      exact houtside fun n hn => hnone n (by omega)

end

/-- Settles O52: the last word completes the transfer of the rectangle's pixels, two by two. -/
theorem transferFillsItsRectangle : Obligations.TransferFillsItsRectangle := by
  intro s setup w1 w2 data X Y W H t hidle hsetup heven hpos hwidth hheight hwf hlength
  have hpixels : (s.beginTransfer w1 w2).gpu.xferPixels = W * H := rfl
  have hfit : (s.beginTransfer w1 w2).gpu.Fits := ⟨heven, hwidth, hheight, rfl, hwf⟩
  have ht : t = ((s.beginTransfer w1 w2).transferWords data).completeTransfer :=
    State.gpuWriteCommands_transfer_complete hidle hsetup (by omega) (by omega) (by omega)
  have hframe := (s.beginTransfer w1 w2).gpu.transferWords_eq data
  have hirqEnable : ((s.beginTransfer w1 w2).transferWords data).gpu.irqEnable = s.gpu.irqEnable :=
    (congrArg Gpu.irqEnable hframe :)
  have hirqFlag : ((s.beginTransfer w1 w2).transferWords data).gpu.irqFlag = s.gpu.irqFlag :=
    (congrArg Gpu.irqFlag hframe :)
  have hvram : t.gpu.vram = ((s.beginTransfer w1 w2).gpu.transferWords data).vram := by
    rw [ht, State.completeTransfer_vram]; rfl
  obtain ⟨-, hpixel⟩ := hfit.pixels (ws := data) (by omega)
  simp only [← hvram] at hpixel
  obtain ⟨hdiag, hrender⟩ := ((s.beginTransfer w1 w2).transferWords data).completeTransfer_streams
  refine ⟨?_, ?_, fun n hn => ?_, fun k hk => ?_, fun x y hx _ hout => ?_, ?_, ?_, ?_, ?_⟩
  · rw [ht]; exact State.completeTransfer_xferState _
  · rw [ht, State.completeTransfer_queue]; exact congrArg Gpu.queue hframe
  · exact State.gpuWriteCommands_transfer_incomplete hidle hsetup (by rw [List.length_take]; omega)
  · obtain ⟨hmod, hdiv, hin⟩ := succ_row_column heven (Nat.pos_of_mul_pos_right hpos) k
    have hfirst : (s.beginTransfer w1 w2).gpu.At (2 * k) (X + 2 * k % W) (Y + 2 * k / W) := ⟨rfl, rfl⟩
    have hsecond : (s.beginTransfer w1 w2).gpu.At (2 * k + 1) (X + 2 * k % W + 1) (Y + 2 * k / W) :=
      ⟨congrArg (X + ·) hmod.symm, congrArg (Y + ·) hdiv.symm⟩
    exact ⟨((hpixel _ _ (by omega)).1 _ (by omega) hfirst).trans (halfAt_even data k),
      ((hpixel _ _ (by omega)).1 _ (by omega) hsecond).trans (halfAt_odd data k)⟩
  · exact (hpixel x y hx).2 fun n hn hat => hout (hat.mem_rect (by omega))
  · rw [hvram, ht, hrender]; rfl
  · rw [ht, hdiag]; rfl
  · rw [ht, State.completeTransfer_cause _ (by decide), if_pos rfl, hirqEnable]; rfl
  · rw [ht, State.completeTransfer_gpu, hirqEnable, hirqFlag]

end Sys2Proof.Machine

/-! PROOFS. The statement of 70_reset_and_hazards.md: every step completes, but for the GTE's. -/

namespace Sys2Proof.Machine

/-- Stages 1 to 3 refuse a word of the GTE (46_system.md R138). -/
theorem execFetched_of_gte {s : State} (hpc : s.pc.toNat % 4 = 0) (hdecode : decode s.mips1Ext s.fetchWord = .gte) :
    execFetched s = .refused (.gteOpcode s.fetchWord) := by
  rw [execFetched, if_pos ((aligned_iff .word s.pc).mpr hpc), hdecode]
  rfl

/-- Whatever else is fetched, stages 1 to 3 answer a next state. -/
theorem execFetched_total {s : State} (h : s.pc.toNat % 4 = 0 → decode s.mips1Ext s.fetchWord ≠ .gte) :
    ∃ m, execFetched s = .next m := by
  by_cases hpc : s.pc.toNat % 4 = 0
  · cases hdecode : decode s.mips1Ext s.fetchWord with
    | instr i =>
      obtain ⟨m, hm⟩ := exec_total i s.fetched
      exact ⟨m, (execFetched_of_executes ⟨hpc, hdecode⟩).trans hm⟩
    | reserved => exact ⟨_, execFetched_of_reserved hpc hdecode⟩
    | gte => exact absurd hdecode (h hpc)
  · exact ⟨_, if_neg fun ha => hpc ((aligned_iff .word s.pc).mp ha)⟩

/-- Settles O7: every instruction answers, and of the words fetched only the GTE's are refused. -/
theorem everyStepCompletesExceptGte : Obligations.EveryStepCompletesExceptGte := by
  refine ⟨exec_total, fun s => ⟨fun ⟨hpc, hword⟩ => ?_, fun hnot => ?_⟩⟩
  · rw [step, execFetched_of_gte hpc ((decode_gte_iff s.mips1Ext s.fetchWord).mpr hword)]
  · obtain ⟨m, hm⟩ := execFetched_total fun hpc hdecode =>
      hnot ⟨hpc, (decode_gte_iff s.mips1Ext s.fetchWord).mp hdecode⟩
    exact ⟨_, step_next.mpr ⟨m, hm, rfl⟩⟩

end Sys2Proof.Machine
